-- ==== Sys2Proof/Word.lean ====
section
/-! DEFINITION. The word types of the TSD core (spec 00 R9: all values are unsigned; bit 0 is least significant). -/

namespace Sys2Proof

/-- A command word, an operand word, an element of a standalone FIFO (spec 30 R67, 10 R20). -/
abbrev Word := BitVec 32

/-- A byte of a datagram buffer (spec 20 R36). -/
abbrev Byte := BitVec 8

/-- A ticket handle or an element of a channel's queue, `HANDLE_W` = 16 (spec 00 R6). -/
abbrev Handle := BitVec 16

end Sys2Proof
end

