-- ==== Sys2Proof/Syntax.lean ====
section
/-! DEFINITION. The commands and events of the TSD core, one constructor per row of spec/opcode_table.json (spec 30 R74). -/

namespace Sys2Proof

/-- A command (host) or an event (peripheral, timer). `u` is a UNIT field that selects a queue (spec 30 R69), `c` a UNIT
field that is a channel number. Operand words whose reserved bits a command's own rule checks stay whole words. -/
inductive Instr where
  /-- push(elem), spec 41 R91 -/
  | fpush (u : BitVec 8) (e : Word)
  /-- push(buffer, n), spec 41 R92; n is the number of elements -/
  | fpushn (u : BitVec 8) (es : List Word)
  /-- pop(n), spec 41 R93 -/
  | fpop (u : BitVec 8) (n : BitVec 16)
  /-- pop_until(terminator), spec 41 R94 -/
  | fpopu (u : BitVec 8) (e : Word)
  /-- pull(n, remove), spec 41 R95 -/
  | fpull (u : BitVec 8) (r : Bool) (n : BitVec 15)
  /-- pull_until(terminator, remove), spec 41 R96 -/
  | fpullu (u : BitVec 8) (r : Bool) (e : Word)
  /-- find(elem), spec 41 R97 -/
  | ffind (u : BitVec 8) (e : Word)
  /-- normalize(), spec 41 R98 -/
  | fnorm (u : BitVec 8)
  /-- size, spec 41 R99 -/
  | fsize (u : BitVec 8)
  /-- capacity, spec 41 R100 -/
  | fcap (u : BitVec 8)
  /-- empty, spec 41 R101 -/
  | fempty (u : BitVec 8)
  /-- checksum(bytes), spec 42 R111; the byte count and the words that carry the bytes -/
  | crc8 (n : BitVec 16) (ws : List Word)
  /-- build a read request, spec 42 R112 -/
  | mkrd (dev : Byte) (reg : BitVec 7)
  /-- build a write data frame, spec 42 R113 -/
  | mkwr (dev : Byte) (reg : BitVec 7) (v : Word)
  /-- parse a received data frame, spec 42 R114 -/
  | parse (w1 w2 : Word)
  /-- read ticket status, spec 43 R122 -/
  | tstat (h : Handle)
  /-- read ticket value, spec 43 R123 -/
  | tval (h : Handle)
  /-- release ticket, spec 43 R124 -/
  | trel (h : Handle)
  /-- new(channel_id), spec 44 R133 -/
  | chnew (c : BitVec 8)
  /-- read(device, register, handler), spec 44 R134; w1 carries the handler id -/
  | chrd (c : BitVec 8) (dev : Byte) (reg : BitVec 7) (w1 : Word)
  /-- write(device, register, value, handler), spec 44 R135; w2 carries the handler id -/
  | chwr (c : BitVec 8) (dev : Byte) (reg : BitVec 7) (v w2 : Word)
  /-- return from a host completion handler, spec 44 R136 -/
  | hret (c : BitVec 8)
  /-- read channel status, spec 44 R137 -/
  | chstat (c : BitVec 8)
  /-- event: the channel's peripheral finished, spec 60 R148; the words carry the 8 bytes delivered -/
  | evcomp (c : BitVec 8) (flags : BitVec 2) (w1 w2 : Word)
  /-- event: idle tick for the channel, spec 60 R149 -/
  | evtick (c : BitVec 8)
  deriving DecidableEq, Repr

/-- The rows of the opcode map by name (spec 30 R74). -/
inductive Opcode where
  | fpush | fpushn | fpop | fpopu | fpull | fpullu | ffind | fnorm | fsize | fcap | fempty
  | crc8 | mkrd | mkwr | parse
  | tstat | tval | trel
  | chnew | chrd | chwr | hret | chstat
  | evcomp | evtick
  deriving DecidableEq, Repr

/-- The formats of spec 30 R68, named by their operand words. -/
inductive Format where
  /-- no operand word -/
  | H
  /-- one operand word -/
  | H1
  /-- two operand words -/
  | H2
  /-- IMM operand words -/
  | HN
  /-- the operand words that hold IMM bytes -/
  | HB
  deriving DecidableEq, Repr

end Sys2Proof
end

