-- ==== Sys2Proof/Decode.lean ====
section
/-! DEFINITION. The opcode map, the decoder of command and event words, and the encoder (spec 30, sections 2 to 6). -/

namespace Sys2Proof

/-! ## The header and the opcode map -/

/-- `OPC = hdr[31:24]` (spec 30 R67). -/
def hdrOpc (hdr : Word) : BitVec 8 := hdr.extractLsb' 24 8

/-- `UNIT = hdr[23:16]` (spec 30 R67). -/
def hdrUnit (hdr : Word) : BitVec 8 := hdr.extractLsb' 16 8

/-- `IMM = hdr[15:0]` (spec 30 R67). -/
def hdrImm (hdr : Word) : BitVec 16 := hdr.extractLsb' 0 16

/-- One row of the table of spec 30 R74. -/
structure Row where
  format : Format
  headerMatch : Word
  headerMask : Word
  deriving DecidableEq, Repr

/-- The opcode map, spec 30 R74, row by row. -/
def Opcode.row : Opcode → Row
  | .fpush => ⟨.H1, 0x10000000#32, 0xFF00FFFF#32⟩
  | .fpushn => ⟨.HN, 0x11000000#32, 0xFF000000#32⟩
  | .fpop => ⟨.H, 0x12000000#32, 0xFF000000#32⟩
  | .fpopu => ⟨.H1, 0x13000000#32, 0xFF00FFFF#32⟩
  | .fpull => ⟨.H, 0x14000000#32, 0xFF000000#32⟩
  | .fpullu => ⟨.H1, 0x15000000#32, 0xFF007FFF#32⟩
  | .ffind => ⟨.H1, 0x16000000#32, 0xFF00FFFF#32⟩
  | .fnorm => ⟨.H, 0x17000000#32, 0xFF00FFFF#32⟩
  | .fsize => ⟨.H, 0x18000000#32, 0xFF00FFFF#32⟩
  | .fcap => ⟨.H, 0x19000000#32, 0xFF00FFFF#32⟩
  | .fempty => ⟨.H, 0x1A000000#32, 0xFF00FFFF#32⟩
  | .crc8 => ⟨.HB, 0x20000000#32, 0xFFFF0000#32⟩
  | .mkrd => ⟨.H, 0x21000000#32, 0xFFFF0080#32⟩
  | .mkwr => ⟨.H1, 0x22000000#32, 0xFFFF0080#32⟩
  | .parse => ⟨.H2, 0x23000000#32, 0xFFFFFFFF#32⟩
  | .tstat => ⟨.H, 0x30000000#32, 0xFFFF0000#32⟩
  | .tval => ⟨.H, 0x31000000#32, 0xFFFF0000#32⟩
  | .trel => ⟨.H, 0x32000000#32, 0xFFFF0000#32⟩
  | .chnew => ⟨.H, 0x40000000#32, 0xFF00FFFF#32⟩
  | .chrd => ⟨.H1, 0x41000000#32, 0xFF000080#32⟩
  | .chwr => ⟨.H2, 0x42000000#32, 0xFF000080#32⟩
  | .hret => ⟨.H, 0x43000000#32, 0xFF00FFFF#32⟩
  | .chstat => ⟨.H, 0x44000000#32, 0xFF00FFFF#32⟩
  | .evcomp => ⟨.H2, 0x80000000#32, 0xFF00FFFC#32⟩
  | .evtick => ⟨.H, 0x81000000#32, 0xFF00FFFF#32⟩

/-- The rows in the table's order. -/
def Opcode.all : List Opcode :=
  [.fpush, .fpushn, .fpop, .fpopu, .fpull, .fpullu, .ffind, .fnorm, .fsize, .fcap, .fempty,
   .crc8, .mkrd, .mkwr, .parse, .tstat, .tval, .trel,
   .chnew, .chrd, .chwr, .hret, .chstat, .evcomp, .evtick]

/-- The OPC byte of a row: the top byte of its header match, which every row's mask covers. -/
def Opcode.code (o : Opcode) : BitVec 8 := hdrOpc o.row.headerMatch

/-- The row of an OPC byte; `none` is an illegal opcode (spec 30 R80). -/
def Opcode.ofCode (b : BitVec 8) : Option Opcode := Opcode.all.find? (fun o => o.code == b)

/-- How many operand words follow a header of this format (spec 30 R68, R81). -/
def Format.operandWords (f : Format) (imm : BitVec 16) : Nat :=
  match f with
  | .H => 0
  | .H1 => 1
  | .H2 => 2
  | .HN => imm.toNat
  | .HB => (imm.toNat + 3) / 4

/-- The length of a command in words, told from its header alone (spec 30 R81). -/
def Opcode.lengthInWords (o : Opcode) (hdr : Word) : Nat := 1 + o.row.format.operandWords (hdrImm hdr)

/-! ## Operand fields (spec 30 R70, R71) -/

/-- `dev = IMM[15:8]`. -/
def immDev (imm : BitVec 16) : Byte := imm.extractLsb' 8 8

/-- `reg = IMM[6:0]`. -/
def immReg (imm : BitVec 16) : BitVec 7 := imm.extractLsb' 0 7

/-- `R = IMM[15]`. -/
def immRemove (imm : BitVec 16) : Bool := imm.getLsbD 15

/-- The instruction of a row, from its header and its operand words (spec 30 R70, R71). -/
def Opcode.instr (o : Opcode) (hdr : Word) (ops : List Word) : Instr :=
  match o with
  | .fpush => .fpush (hdrUnit hdr) (ops.getD 0 0#32)
  | .fpushn => .fpushn (hdrUnit hdr) ops
  | .fpop => .fpop (hdrUnit hdr) (hdrImm hdr)
  | .fpopu => .fpopu (hdrUnit hdr) (ops.getD 0 0#32)
  | .fpull => .fpull (hdrUnit hdr) (immRemove (hdrImm hdr)) ((hdrImm hdr).extractLsb' 0 15)
  | .fpullu => .fpullu (hdrUnit hdr) (immRemove (hdrImm hdr)) (ops.getD 0 0#32)
  | .ffind => .ffind (hdrUnit hdr) (ops.getD 0 0#32)
  | .fnorm => .fnorm (hdrUnit hdr)
  | .fsize => .fsize (hdrUnit hdr)
  | .fcap => .fcap (hdrUnit hdr)
  | .fempty => .fempty (hdrUnit hdr)
  | .crc8 => .crc8 (hdrImm hdr) ops
  | .mkrd => .mkrd (immDev (hdrImm hdr)) (immReg (hdrImm hdr))
  | .mkwr => .mkwr (immDev (hdrImm hdr)) (immReg (hdrImm hdr)) (ops.getD 0 0#32)
  | .parse => .parse (ops.getD 0 0#32) (ops.getD 1 0#32)
  | .tstat => .tstat (hdrImm hdr)
  | .tval => .tval (hdrImm hdr)
  | .trel => .trel (hdrImm hdr)
  | .chnew => .chnew (hdrUnit hdr)
  | .chrd => .chrd (hdrUnit hdr) (immDev (hdrImm hdr)) (immReg (hdrImm hdr)) (ops.getD 0 0#32)
  | .chwr => .chwr (hdrUnit hdr) (immDev (hdrImm hdr)) (immReg (hdrImm hdr)) (ops.getD 0 0#32) (ops.getD 1 0#32)
  | .hret => .hret (hdrUnit hdr)
  | .chstat => .chstat (hdrUnit hdr)
  | .evcomp => .evcomp (hdrUnit hdr) ((hdrImm hdr).extractLsb' 0 2) (ops.getD 0 0#32) (ops.getD 1 0#32)
  | .evtick => .evtick (hdrUnit hdr)

/-! ## The decoder -/

/-- Why a header is refused; each is `Fault(IllegalCommand)` (spec 30 R75, R80). -/
inductive Reject where
  /-- OPC names no row of the map -/
  | unknownOpcode
  /-- a bit under the row's mask differs from its match -/
  | reservedBits
  /-- `OPC[7]` = 1 on the host's command port -/
  | eventOnCommandPort
  /-- a command's opcode on the event inputs (log entry 10) -/
  | commandOnEventInput
  deriving DecidableEq, Repr

/-- What stands at the front of a stream of words. -/
inductive Decoded where
  /-- an instruction and the words after it -/
  | instr (i : Instr) (rest : List Word)
  /-- an illegal header -/
  | reject (r : Reject) (hdr : Word)
  /-- not all words of the command have arrived (spec 30 R67) -/
  | short
  deriving DecidableEq, Repr

/-- Decode the command at the front of a stream of words (spec 30 R67, R74, R80, R81). The length is told from the
opcode and IMM; the header is held against its row once every word has arrived (log entry 9). -/
def decode (ws : List Word) : Decoded :=
  match ws with
  | [] => .short
  | hdr :: rest =>
    match Opcode.ofCode (hdrOpc hdr) with
    | none => .reject .unknownOpcode hdr
    | some o =>
      let k := o.row.format.operandWords (hdrImm hdr)
      if rest.length < k then .short
      else if hdr &&& o.row.headerMask ≠ o.row.headerMatch then .reject .reservedBits hdr
      else .instr (o.instr hdr (rest.take k)) (rest.drop k)

/-- `OPC[7]`: the header of an event (spec 30 R75). -/
def hdrIsEvent (hdr : Word) : Bool := hdr.getLsbD 31

/-- Decode at the host's command port: an event's opcode is illegal there, as soon as its header is seen (spec 30 R75). -/
def decodeCommand (ws : List Word) : Decoded :=
  match ws with
  | [] => .short
  | hdr :: _ => if hdrIsEvent hdr then .reject .eventOnCommandPort hdr else decode ws

/-- Decode at the event inputs, which carry only EVCOMP and EVTICK (spec 30 R75, R80; log entry 10). -/
def decodeEvent (ws : List Word) : Decoded :=
  match ws with
  | [] => .short
  | hdr :: _ => if hdrIsEvent hdr then decode ws else .reject .commandOnEventInput hdr

/-! ## The encoder -/

/-- A header word `{OPC, UNIT, IMM}` (spec 30 R67). -/
def header (o : Opcode) (unit : BitVec 8) (imm : BitVec 16) : Word := o.code ++ unit ++ imm

/-- `IMM = {dev, 0, reg}` (spec 30 R70). -/
def devRegImm (dev : Byte) (reg : BitVec 7) : BitVec 16 := dev ++ 0#1 ++ reg

/-- `IMM = {R, n}` (spec 30 R70). -/
def removeImm (r : Bool) (n : BitVec 15) : BitVec 16 := BitVec.ofBool r ++ n

/-- The words of an instruction (spec 30 R67 to R74, R82). -/
def encode : Instr → List Word
  | .fpush u e => [header .fpush u 0#16, e]
  | .fpushn u es => header .fpushn u (BitVec.ofNat 16 es.length) :: es
  | .fpop u n => [header .fpop u n]
  | .fpopu u e => [header .fpopu u 0#16, e]
  | .fpull u r n => [header .fpull u (removeImm r n)]
  | .fpullu u r e => [header .fpullu u (removeImm r 0#15), e]
  | .ffind u e => [header .ffind u 0#16, e]
  | .fnorm u => [header .fnorm u 0#16]
  | .fsize u => [header .fsize u 0#16]
  | .fcap u => [header .fcap u 0#16]
  | .fempty u => [header .fempty u 0#16]
  | .crc8 n ws => header .crc8 0#8 n :: ws
  | .mkrd dev reg => [header .mkrd 0#8 (devRegImm dev reg)]
  | .mkwr dev reg v => [header .mkwr 0#8 (devRegImm dev reg), v]
  | .parse w1 w2 => [header .parse 0#8 0#16, w1, w2]
  | .tstat h => [header .tstat 0#8 h]
  | .tval h => [header .tval 0#8 h]
  | .trel h => [header .trel 0#8 h]
  | .chnew c => [header .chnew c 0#16]
  | .chrd c dev reg w1 => [header .chrd c (devRegImm dev reg), w1]
  | .chwr c dev reg v w2 => [header .chwr c (devRegImm dev reg), v, w2]
  | .hret c => [header .hret c 0#16]
  | .chstat c => [header .chstat c 0#16]
  | .evcomp c flags w1 w2 => [header .evcomp c (0#14 ++ flags), w1, w2]
  | .evtick c => [header .evtick c 0#16]

/-! ## Byte strings on the command port (spec 20 R45) -/

/-- The four bytes of an operand word, the first in bits 31..24. -/
def wordBytes (w : Word) : List Byte :=
  [w.extractLsb' 24 8, w.extractLsb' 16 8, w.extractLsb' 8 8, w.extractLsb' 0 8]

/-- The bytes that operand words carry, in order. -/
def unpackWords (ws : List Word) : List Byte := ws.flatMap wordBytes

/-- The word that carries four bytes. -/
def packWord (b0 b1 b2 b3 : Byte) : Word := b0 ++ b1 ++ b2 ++ b3

/-- The words that carry a byte string; unused low bytes of the last word are 0. -/
def packBytes : List Byte → List Word
  | [] => []
  | [b0] => [packWord b0 0#8 0#8 0#8]
  | [b0, b1] => [packWord b0 b1 0#8 0#8]
  | [b0, b1, b2] => [packWord b0 b1 b2 0#8]
  | b0 :: b1 :: b2 :: b3 :: rest => packWord b0 b1 b2 b3 :: packBytes rest

/-! ## One table row as a number -/

/-- The words of the instruction whose bits are `w`, numbered as the opcode table numbers them: bit 0 is bit 0 of the
header, a later word's bits count on from 32; bits from `nbits` up are 0. As many words as the header tells. -/
def tableWords (nbits w : Nat) : List Word :=
  let v := w % 2 ^ nbits
  let hdr := BitVec.ofNat 32 v
  match Opcode.ofCode (hdrOpc hdr) with
  | none => [hdr]
  | some o => hdr :: (List.range (o.row.format.operandWords (hdrImm hdr))).map fun j => BitVec.ofNat 32 (v >>> (32 * (j + 1)))

/-- The instruction the decoder reads from those words. -/
def decodeTableWord (nbits w : Nat) : Option Instr :=
  match decode (tableWords nbits w) with
  | .instr i _ => some i
  | .reject _ _ => none
  | .short => none

/-! ## Fields of an instruction that a fault records (spec 10 R26) -/

/-- The row an instruction belongs to. -/
def Instr.opcode : Instr → Opcode
  | .fpush .. => .fpush
  | .fpushn .. => .fpushn
  | .fpop .. => .fpop
  | .fpopu .. => .fpopu
  | .fpull .. => .fpull
  | .fpullu .. => .fpullu
  | .ffind .. => .ffind
  | .fnorm .. => .fnorm
  | .fsize .. => .fsize
  | .fcap .. => .fcap
  | .fempty .. => .fempty
  | .crc8 .. => .crc8
  | .mkrd .. => .mkrd
  | .mkwr .. => .mkwr
  | .parse .. => .parse
  | .tstat .. => .tstat
  | .tval .. => .tval
  | .trel .. => .trel
  | .chnew .. => .chnew
  | .chrd .. => .chrd
  | .chwr .. => .chwr
  | .hret .. => .hret
  | .chstat .. => .chstat
  | .evcomp .. => .evcomp
  | .evtick .. => .evtick

/-- The UNIT field of an instruction; 0 for the codec and ticket commands (spec 30 R69). -/
def Instr.unitField : Instr → BitVec 8
  | .fpush u _ => u
  | .fpushn u _ => u
  | .fpop u _ => u
  | .fpopu u _ => u
  | .fpull u _ _ => u
  | .fpullu u _ _ => u
  | .ffind u _ => u
  | .fnorm u => u
  | .fsize u => u
  | .fcap u => u
  | .fempty u => u
  | .crc8 _ _ => 0#8
  | .mkrd _ _ => 0#8
  | .mkwr _ _ _ => 0#8
  | .parse _ _ => 0#8
  | .tstat _ => 0#8
  | .tval _ => 0#8
  | .trel _ => 0#8
  | .chnew c => c
  | .chrd c _ _ _ => c
  | .chwr c _ _ _ _ => c
  | .hret c => c
  | .chstat c => c
  | .evcomp c _ _ _ => c
  | .evtick c => c

/-- The two instructions that arrive only on the event inputs (spec 30 R75). -/
def Instr.isEvent : Instr → Bool
  | .fpush .. => false
  | .fpushn .. => false
  | .fpop .. => false
  | .fpopu .. => false
  | .fpull .. => false
  | .fpullu .. => false
  | .ffind .. => false
  | .fnorm .. => false
  | .fsize .. => false
  | .fcap .. => false
  | .fempty .. => false
  | .crc8 .. => false
  | .mkrd .. => false
  | .mkwr .. => false
  | .parse .. => false
  | .tstat .. => false
  | .tval .. => false
  | .trel .. => false
  | .chnew .. => false
  | .chrd .. => false
  | .chwr .. => false
  | .hret .. => false
  | .chstat .. => false
  | .evcomp .. => true
  | .evtick .. => true

end Sys2Proof
end

