-- ==== Sys2Proof/Config.lean ====
section
/-! DEFINITION. The parameters of the TSD core (spec 00 R6): fixed for the life of a machine, written by no step. -/

namespace Sys2Proof

/-- Where the next queued transfer is started after a completion (spec 44 R132). -/
inductive NextStart where
  | deferred
  | immediate
  deriving DecidableEq, Repr

/-- How datagram fields are placed in a byte (spec 30 R58, R60, R64). -/
inductive BitPacking where
  | msbFirst
  | lsbFirst
  deriving DecidableEq, Repr

/-- The parameters of spec 00 R6. Those the spec marks OPEN are arguments of the model: a statement about every
state is a statement about every value of them. -/
structure Config where
  numChannels : Nat
  numFifos : Nat
  maxTickets : Nat
  initCapacity : Nat
  memLimit : Nat
  debounceT : Nat
  nextStart : NextStart
  bitPacking : BitPacking
  /-- handed to the peripheral by PSTART; no rule reads it -/
  timeoutBitTimes : Nat
  /-- handed to the peripheral's `configure`, outside the block; no rule reads it -/
  baud : Nat
  /-- the period of the idle-tick timer; no rule reads it -/
  tickPeriod : Nat
  deriving DecidableEq, Repr

/-- The constraint column of spec 00 R6. -/
abbrev Config.Valid (g : Config) : Prop :=
  1 ≤ g.numChannels ∧ g.numChannels ≤ 128 ∧ g.numFifos ≤ 128 ∧ 1 ≤ g.maxTickets ∧ g.maxTickets ≤ 65535 ∧
  g.initCapacity ≤ g.memLimit ∧ g.memLimit ≤ 65535 ∧ g.debounceT ≤ 253 ∧ 1 ≤ g.tickPeriod

/-- The parameter values of spec 95 ("Parameters, unless a vector says otherwise"), with this hardware's `NEXT_START` and
`BIT_PACKING` (spec 00 R6). DESIGN CHOICE: the three parameters no rule reads have no example there; any value would do
(log entry 1). -/
def Config.specVectors : Config where
  numChannels := 1
  numFifos := 1
  maxTickets := 8
  initCapacity := 4
  memLimit := 64
  debounceT := 2
  nextStart := .deferred
  bitPacking := .msbFirst
  timeoutBitTimes := 1
  baud := 1
  tickPeriod := 1

end Sys2Proof
end

