-- ==== Sys2Proof/Machine/State.lean ====
section
/-! DEFINITION. The state of the TSD core as plain data (spec 10), the inputs and outputs of its steps, and its state after reset. -/

namespace Sys2Proof.Machine

/-! ## Records of the spec -/

/-- A queue (spec 10 R16): the offsets of the first live element and of one past the last, and the cells of the arena. The
capacity is the number of cells. A cell that holds no value is `none` (spec 10 R18; log entry 7). -/
structure Queue (w : Nat) where
  h : Nat
  t : Nat
  cell : List (Option (BitVec w))
  deriving DecidableEq, Repr

/-- An empty queue of a capacity, its cells holding no value (spec 10 R34, 44 R133). -/
def Queue.fresh (w cap : Nat) : Queue w := ⟨0, 0, List.replicate cap none⟩

/-- The kind of a ticket, 0 = Read, 1 = Write (spec 10 R21, 30 R73). -/
inductive Kind where
  | read
  | write
  deriving DecidableEq, Repr

/-- The status of a ticket, encoded 0, 1, 2, 3 in this order (spec 30 R73). -/
inductive Status where
  | pending
  | completedOk
  | crcError
  | timedOut
  deriving DecidableEq, Repr

/-- The record of a live ticket slot (spec 10 R21). A buffer byte that holds no value is `none` (spec 10 R22; log entry 8). -/
structure Ticket where
  kind : Kind
  chan : BitVec 7
  dev : Byte
  reg : BitVec 7
  value : Word
  frame : List (Option Byte)
  reply : List (Option Byte)
  status : Status
  hid : BitVec 16
  deriving DecidableEq, Repr

/-- The block's view of a channel's peripheral (spec 10 R25). -/
structure Periph where
  armed : Bool
  ieRx : Bool
  ieTo : Bool
  stRx : Bool
  stTo : Bool
  deriving DecidableEq, Repr

/-- The peripheral state of a channel with no transfer (spec 10 R34). -/
def Periph.off : Periph := ⟨false, false, false, false, false⟩

/-- A channel (spec 10 R23). -/
structure Channel where
  init : Bool
  q : Queue 16
  idle : BitVec 8
  per : Periph
  tickp : Bool
  deriving DecidableEq, Repr

/-- `NOT_IDLE` = 0xFF (spec 10 R24). -/
def notIdle : BitVec 8 := 0xFF#8

/-- The handler phase (spec 10 R27): no handler, or the handler of a ticket of a channel. -/
inductive HPhase where
  | none
  | active (c : BitVec 7) (h : Handle)
  deriving DecidableEq, Repr

/-- The fault register (spec 10 R26). -/
structure FaultReg where
  code : BitVec 8
  unit : BitVec 8
  opc : BitVec 8
  deriving DecidableEq, Repr

/-! ## Outputs and moves -/

/-- The buffer a peripheral writes what it receives to (spec 30 R78, 20 R36). -/
inductive RxTarget where
  | reply (h : Handle)
  | frame (h : Handle)
  deriving DecidableEq, Repr

/-- What the block puts out in a step. -/
inductive Output where
  /-- the words of a response, the response code first (spec 30 R76) -/
  | response (ws : List Word)
  /-- the two words of a NOTIFY (spec 30 R77) -/
  | notify (n0 n1 : Word)
  /-- PSTART (spec 30 R78) -/
  | pstart (c : Nat) (tx : List Byte) (txLen : Nat) (rx : RxTarget) (rxLen : Nat) (timeoutBitTimes : Nat)
  /-- PRESET (spec 30 R78) -/
  | preset (c : Nat)
  deriving DecidableEq, Repr

/-- Which agent moves at a step (spec 00 R8; log entry 2). -/
inductive Move where
  /-- the command at the front of the command port is taken -/
  | host
  /-- the event at the front of the event inputs arrives -/
  | event
  /-- the block takes channel `c`'s completion (spec 60 R151) -/
  | takeComp (c : Nat)
  /-- the block takes channel `c`'s tick (spec 60 R152) -/
  | takeTick (c : Nat)
  deriving DecidableEq, Repr

/-! ## The state -/

/-- The state `S` of spec 10, the machine's parameters, and the inputs and outputs of its steps. -/
structure State where
  /-- the parameters of spec 00 R6 (log entry 1) -/
  cfg : Config
  /-- `S.fault`, spec 10 R26 -/
  fault : FaultReg
  /-- `S.hphase`, spec 10 R27 -/
  hphase : HPhase
  /-- `S.fifo[0..NUM_FIFOS-1]`, spec 10 R20 -/
  fifo : List (Queue 32)
  /-- `S.tkt[1..MAX_TICKETS]`, spec 10 R21; the slot of handle h stands at h - 1, `none` while it is not live -/
  tkt : List (Option Ticket)
  /-- `S.ch[0..NUM_CHANNELS-1]`, spec 10 R23 -/
  ch : List Channel
  /-- words arrived on the command port and not consumed, oldest first (spec 30 R67; log entry 2) -/
  cmd : List Word
  /-- words arrived on the event inputs and not consumed, oldest first (spec 30 R75; log entries 2 and 3) -/
  evt : List Word
  /-- who moves at each coming step (log entry 2) -/
  sched : List Move
  /-- what the block has put out, oldest first (spec 30 R76 to R78; log entry 4) -/
  out : List Output
  deriving DecidableEq, Repr

/-- The host's `fault` outcome: the machine stops because the spec gives the step no effect. -/
inductive Fault where
  /-- Raised by an operation that would read or write outside a space, or read a cell or byte that holds no value (spec
  00 R11: both primitives "are defined only for offsets inside the space"). Safe: the model stops, and no state that
  keeps the invariants of spec 10 R35 reaches it (log entry 6). -/
  | outsideSpace
  deriving DecidableEq, Repr

/-- The host's `refused` outcome. -/
inductive Refusal where
  /-- Raised by an arm of `exec` whose instruction has no meaning yet; no arm of this model does. Safe. -/
  | notModelled (mnemonic : String)
  deriving DecidableEq, Repr

/-- A channel before CHNEW (spec 10 R34). -/
def Channel.reset : Channel := ⟨false, Queue.fresh 16 0, notIdle, Periph.off, false⟩

/-- The state after power-on reset of a machine with parameters `g` (spec 10 R34, 70 R164). -/
def State.resetOf (g : Config) : State where
  cfg := g
  fault := ⟨0#8, 0#8, 0#8⟩
  hphase := .none
  fifo := List.replicate g.numFifos (Queue.fresh 32 g.initCapacity)
  tkt := List.replicate g.maxTickets none
  ch := List.replicate g.numChannels Channel.reset
  cmd := []
  evt := []
  sched := []
  out := []

/-- The machine right after reset, with the parameter values the spec's vectors use. DESIGN CHOICE: the parameters are open
(log entry 1); statements about reset are about `State.resetOf g` for every valid `g`. -/
def State.reset : State := State.resetOf Config.specVectors

end Sys2Proof.Machine
end

