-- ==== Sys2Proof/Machine/Ops.lean ====
section
/-! DEFINITION. The named operations every meaning is written over: raising a fault, the memory primitives, the queue procedures
of spec 41 section 1, and access to FIFOs, tickets and channels. -/

namespace Sys2Proof.Machine

/-! ## Raising a fault (spec 60 R144 to R146) -/

/-- The fault codes of spec 60 R144. -/
inductive FaultCode where
  | allocationFailure
  | illegalCommand
  | badUnit
  | badHandle
  | releasePending
  | spuriousCompletion
  | doubleStart
  | valueUnavailable
  | handlerProtocol
  | invariantBroken
  deriving DecidableEq, Repr

/-- The code column of spec 60 R144. -/
def FaultCode.byte : FaultCode → BitVec 8
  | .allocationFailure => 0x01#8
  | .illegalCommand => 0x02#8
  | .badUnit => 0x03#8
  | .badHandle => 0x04#8
  | .releasePending => 0x05#8
  | .spuriousCompletion => 0x06#8
  | .doubleStart => 0x07#8
  | .valueUnavailable => 0x08#8
  | .handlerProtocol => 0x09#8
  | .invariantBroken => 0x0A#8

/-- How a rule's pseudocode ends early. -/
inductive Halt where
  /-- `raise Fault(code)` (spec 00 R12) -/
  | raised (c : FaultCode)
  /-- a read or write the spec does not define (log entry 6) -/
  | outside
  deriving DecidableEq, Repr

/-- A procedure of the spec: a result, or an early end. -/
abbrev Op (α : Type) := Except Halt α

/-- `raise Fault(code)` inside a procedure. -/
def raise {α : Type} (c : FaultCode) : Op α := .error (.raised c)

/-- An access outside a space. -/
def outside {α : Type} : Op α := .error .outside

/-- The outcome of one step. -/
abbrev Result := Host.Outcome State Fault Refusal

/-- The block is faulted: `S.fault.code != 0` (spec 60 R145). -/
def State.faulted (s : State) : Bool := s.fault.code != 0#8

/-- TAKING A FAULT (spec 60 R145): code, unit and opcode are latched; every other write and output of the step has been
discarded, so the rest is the state before it (R146). Only power-on reset leads out of it. -/
def State.latch (s : State) (c : FaultCode) (unit opc : BitVec 8) : State :=
  { s with fault := { code := c.byte, unit := unit, opc := opc } }

/-- One step with opcode `opc` and unit or channel `unit`, whose rule is `body`: a faulted block answers nothing and nothing
changes; a fault raised by the rule is latched in the state before the step; else the rule's own state comes next
(spec 00 R12, 60 R145). -/
def runStep (opc unit : BitVec 8) (s : State) (body : Op State) : Result :=
  if s.faulted then .next s
  else
    match body with
    | .ok t => .next t
    | .error (.raised c) => .next (s.latch c unit opc)
    | .error .outside => .fault .outsideSpace

/-- One command or event of the opcode map. -/
def command (o : Opcode) (unit : BitVec 8) (s : State) (body : Op State) : Result := runStep o.code unit s body

/-! ## Memory primitives (spec 00 R11, 20 R37) -/

/-- The values of a run of cells; outside where a cell holds no value. -/
def cellValues {α : Type} : List (Option α) → Op (List α)
  | [] => .ok []
  | none :: _ => outside
  | some v :: cs => do
    let vs ← cellValues cs
    .ok (v :: vs)

/-- `MemRead((space, off), n)`, defined only inside the space. -/
def memRead {α : Type} (cells : List (Option α)) (off n : Nat) : Op (List α) :=
  if off + n ≤ cells.length then cellValues ((cells.drop off).take n) else outside

/-- `MemWrite((space, off), len(vs), vs)`, defined only inside the space. -/
def memWrite {α : Type} (cells : List (Option α)) (off : Nat) (vs : List α) : Op (List (Option α)) :=
  if off + vs.length ≤ cells.length then .ok (cells.take off ++ vs.map some ++ cells.drop (off + vs.length)) else outside

/-! ## Queues (spec 10 R16, 00 R13, 41 section 1) -/

/-- `capacity(Q)`. -/
def Queue.cap {w : Nat} (q : Queue w) : Nat := q.cell.length

/-- `size(Q) = Q.t - Q.h`. -/
def Queue.size {w : Nat} (q : Queue w) : Nat := q.t - q.h

/-- `live(Q)`, oldest first. -/
def Queue.live {w : Nat} (q : Queue w) : Op (List (BitVec w)) := memRead q.cell q.h q.size

/-- `head(Q)`, defined when `size(Q) > 0`. -/
def Queue.head {w : Nat} (q : Queue w) : Op (BitVec w) := do
  let l ← q.live
  match l with
  | [] => outside
  | x :: _ => .ok x

/-- `compact(Q)` (spec 41 R84). -/
def Queue.compact {w : Nat} (q : Queue w) : Op (Queue w) := do
  let l ← q.live
  let cell ← memWrite q.cell 0 l
  .ok { h := 0, t := l.length, cell := cell }

/-- `grow(Q, k)` (spec 41 R85): a new allocation, the live range copied to its start; the fault comes before any change. -/
def Queue.grow {w : Nat} (g : Config) (q : Queue w) (k : Nat) : Op (Queue w) :=
  if q.cap + k > g.memLimit then raise .allocationFailure
  else do
    let l ← q.live
    let cell ← memWrite (List.replicate (q.cap + k) none) 0 l
    .ok { h := 0, t := l.length, cell := cell }

/-- `MemWrite((ARENA(Q), Q.t), n, L); Q.t <- Q.t + n`, the end of `place` (spec 41 R86). -/
def Queue.append {w : Nat} (q : Queue w) (l : List (BitVec w)) : Op (Queue w) := do
  let cell ← memWrite q.cell q.t l
  .ok { q with t := q.t + l.length, cell := cell }

/-- How `place` makes room for `n` > 0 elements, and whether that is a reallocation: room at the tail, else compaction if
it frees enough and the live part stays below 80% of the capacity, else growth by `max(n, cap div 5)` (spec 41 R86). -/
def Queue.makeRoom {w : Nat} (g : Config) (q : Queue w) (n : Nat) : Op (Queue w × Bool) :=
  if n ≤ q.cap - q.t then .ok (q, false)
  else if n ≤ q.cap - q.size ∧ 5 * (q.size + n) < 4 * q.cap then do
    let q' ← q.compact
    .ok (q', false)
  else do
    let q' ← q.grow g (max n (q.cap / 5))
    .ok (q', true)

/-- `place(Q, L)`: the queue with L appended, and the reallocation flag (spec 41 R86). -/
def Queue.place {w : Nat} (g : Config) (q : Queue w) (l : List (BitVec w)) : Op (Queue w × Bool) :=
  if l.length = 0 then .ok (q, false)
  else do
    let r ← q.makeRoom g l.length
    let q' ← r.1.append l
    .ok (q', r.2)

/-- `qpop(Q, k)`: the offsets are not reset when the queue becomes empty (spec 41 R88). -/
def Queue.pop {w : Nat} (q : Queue w) (k : Nat) : Queue w := { q with h := q.h + k }

/-- `qfind(Q, e)` on the live list: the least position of `e`, or the size (spec 41 R89). -/
def findPos {w : Nat} (l : List (BitVec w)) (e : BitVec w) : Nat :=
  match l with
  | [] => 0
  | x :: xs => if x = e then 0 else findPos xs e + 1

/-- `normalize()` on a queue and the reallocation flag (spec 41 R98). -/
def Queue.normalize {w : Nat} (g : Config) (q : Queue w) : Op (Queue w × Bool) :=
  if q.h = 0 then .ok (q, false)
  else if 5 * q.size < 4 * q.cap then do
    let q' ← q.compact
    .ok (q', false)
  else do
    let q' ← q.grow g (q.cap / 5)
    .ok (q', true)

/-! ## Elements of the state -/

/-- `S.fifo[k]`. -/
def State.getFifo (s : State) (k : Nat) : Op (Queue 32) :=
  match s.fifo[k]? with
  | some q => .ok q
  | none => outside

/-- `S.fifo[k] <- q`. -/
def State.setFifo (s : State) (k : Nat) (q : Queue 32) : State := { s with fifo := s.fifo.set k q }

/-- `S.ch[c]`. -/
def State.getCh (s : State) (c : Nat) : Op Channel :=
  match s.ch[c]? with
  | some x => .ok x
  | none => outside

/-- `S.ch[c] <- x`. -/
def State.setCh (s : State) (c : Nat) (x : Channel) : State := { s with ch := s.ch.set c x }

/-- A channel number checked against `NUM_CHANNELS` (spec 30 R69). -/
def State.channelUnit (s : State) (c : Nat) : Op Channel :=
  if c ≥ s.cfg.numChannels then raise .badUnit else s.getCh c

/-- `S.tkt[h]` as an optional live record; `none` for handle 0 and beyond the table too (spec 43 R121). -/
def State.ticket? (s : State) (h : Handle) : Option Ticket :=
  if h = 0#16 then none else (s.tkt[h.toNat - 1]?).join

/-- The record of a live ticket. -/
def State.getTkt (s : State) (h : Handle) : Op Ticket :=
  match s.ticket? h with
  | some x => .ok x
  | none => outside

/-- The slot of handle `h` gets a record, or is freed. -/
def State.setSlot (s : State) (h : Handle) (x : Option Ticket) : State := { s with tkt := s.tkt.set (h.toNat - 1) x }

/-- `S.tkt[h] <- x` for a live slot. -/
def State.setTkt (s : State) (h : Handle) (x : Ticket) : State := s.setSlot h (some x)

/-- `release(h)`: the slot is free and its fields hold no value (spec 43 R120). -/
def State.release (s : State) (h : Handle) : State := s.setSlot h none

/-- `valid(h)`: 1 <= h <= MAX_TICKETS and the slot is live (spec 43 R121). -/
def State.validHandle (s : State) (h : Handle) : Bool :=
  decide (1 ≤ h.toNat) && decide (h.toNat ≤ s.cfg.maxTickets) && (s.ticket? h).isSome

/-- The record of a valid handle, else `Fault(BadHandle)` (spec 43 R121). -/
def State.ticketOf (s : State) (h : Handle) : Op Ticket :=
  if s.validHandle h then s.getTkt h else raise .badHandle

/-- `emit E` (spec 00 R12). -/
def State.emit (s : State) (o : Output) : State := { s with out := s.out ++ [o] }

/-- `S.hphase <- p`. -/
def State.setHphase (s : State) (p : HPhase) : State := { s with hphase := p }

/-- `return (OK, ws)` (spec 30 R76). -/
def State.respondOk (s : State) (ws : List Word) : State := s.emit (.response (0x00000000#32 :: ws))

/-- `return (FAIL, [])`, the sentinel result (spec 30 R76, 60 R143). -/
def State.respondFail (s : State) : State := s.emit (.response [0x00000001#32])

end Sys2Proof.Machine
end

