-- ==== Sys2Proof/Machine/Flags.lean ====
section
/-! DEFINITION. The words that carry flags, statuses and counts: response words, the words of CHSTAT, NOTIFY and the halt word
(spec 10 R30, 30 R73 and R76 to R79, 44 R137). -/

namespace Sys2Proof.Machine

/-- A flag of one bit as a response word: the reallocation flag, the checksum-ok flag, `empty` (spec 30 R76). -/
def flagWord (b : Bool) : Word := if b then 1#32 else 0#32

/-- A count as a response word (`zext_32`). -/
def countWord (n : Nat) : Word := BitVec.ofNat 32 n

/-- The 2-bit encoding of a ticket status (spec 30 R73). -/
def Status.bits : Status → BitVec 2
  | .pending => 0#2
  | .completedOk => 1#2
  | .crcError => 2#2
  | .timedOut => 3#2

/-- A ticket status as a response word. -/
def Status.word (s : Status) : Word := s.bits.zeroExtend 32

/-- `N0 = {0xC0, zext_8(c), 0x00, zext_8(status)}` (spec 30 R77). -/
def notifyN0 (c : BitVec 7) (st : Status) : Word := 0xC0#8 ++ c.zeroExtend 8 ++ 0x00#8 ++ st.bits.zeroExtend 8

/-- `N1 = {handle, hid}` (spec 30 R77). -/
def notifyN1 (h : Handle) (hid : BitVec 16) : Word := h ++ hid

/-- The halt word a faulted block drives: `{0xEE, opc, unit, code}` (spec 30 R79); nothing is driven otherwise (70 R166). -/
def State.haltWord (s : State) : Option Word :=
  if s.faulted then some (0xEE#8 ++ s.fault.opc ++ s.fault.unit ++ s.fault.code) else none

/-- The handle of the handler active for channel `c`, if there is one. -/
def handlerOf (p : HPhase) (c : Nat) : Option Handle :=
  match p with
  | HPhase.none => Option.none
  | HPhase.active c' h => if c'.toNat = c then some h else Option.none

/-- The element HPHASE as a word: active in bit 0, the channel in bits 7..1, the handle in bits 31..16; 0 for None (spec 10 R31;
log entry 22). -/
def HPhase.word (p : HPhase) : Word :=
  match p with
  | HPhase.none => 0#32
  | HPhase.active c h => h ++ 0#8 ++ c ++ 1#1

/-- `active[0]` of an HPHASE word (spec 10 R31). -/
def hphaseActive (w : Word) : Bool := w.getLsbD 0

/-- `chan[7:1]` of an HPHASE word (spec 10 R31). -/
def hphaseChan (w : Word) : BitVec 7 := w.extractLsb' 1 7

/-- `handle[31:16]` of an HPHASE word (spec 10 R31). -/
def hphaseHandle (w : Word) : Handle := w.extractLsb' 16 16

/-- What CHSTAT of channel `c` shows of an HPHASE word: the handle, where the word is active for `c` (spec 10 R31, 44 R137; log
entry 22). -/
def chstatHandler (w : Word) (c : Nat) : Option Handle :=
  if hphaseActive w = true ∧ (hphaseChan w).toNat = c then some (hphaseHandle w) else Option.none

/-- Word 0 of CHSTAT: eight flags, zeros, the idle counter (spec 44 R137). -/
def chstatW0 (x : Channel) (act : Bool) : Word :=
  BitVec.ofBool x.init ++ BitVec.ofBool x.per.armed ++ BitVec.ofBool x.per.ieRx ++ BitVec.ofBool x.per.ieTo ++
    BitVec.ofBool x.per.stRx ++ BitVec.ofBool x.per.stTo ++ BitVec.ofBool x.tickp ++ BitVec.ofBool act ++ 0#16 ++ x.idle

/-- Word 1 of CHSTAT: size and capacity of the channel's queue. -/
def chstatW1 (x : Channel) : Word := BitVec.ofNat 16 x.q.size ++ BitVec.ofNat 16 x.q.cap

/-- Word 2 of CHSTAT: the head ticket and the ticket of the active handler, 0 where there is none (spec 44 R137). A ticket's
status is no part of it: a head not 0 is what shows that the ticket is Pending (log entry 21). -/
def chstatW2 (headOr0 handlerOr0 : Handle) : Word := headOr0 ++ handlerOr0

end Sys2Proof.Machine
end

