-- ==== Sys2Proof/Machine/Operands.lean ====
section
/-! DEFINITION. Operand forms: the queue a UNIT field selects, its elements as words, and reserved operand bits
(spec 30 R69 to R71, 41 R83). -/

namespace Sys2Proof.Machine

/-- The queue a FIFO command's UNIT selects: a standalone FIFO (W = 32) or a channel's ticket queue (W = 16). -/
inductive Selected where
  | fifo (k : Nat) (q : Queue 32)
  | chan (c : Nat) (q : Queue 16)
  deriving DecidableEq, Repr

/-- `k = UNIT[6:0]`. -/
def unitIndex (u : BitVec 8) : Nat := (u.extractLsb' 0 7).toNat

/-- `UNIT[7]`: a channel queue is selected. -/
def unitIsChannel (u : BitVec 8) : Bool := u.getLsbD 7

/-- `qsel(UNIT, mutating)` (spec 41 R83). -/
def State.qsel (s : State) (u : BitVec 8) (mutating : Bool) : Op Selected :=
  if unitIsChannel u then
    if unitIndex u ≥ s.cfg.numChannels then raise .badUnit
    else do
      let x ← s.getCh (unitIndex u)
      if x.init = false then raise .badUnit
      else if mutating then raise .badUnit
      else .ok (.chan (unitIndex u) x.q)
  else
    if unitIndex u ≥ s.cfg.numFifos then raise .badUnit
    else do
      let q ← s.getFifo (unitIndex u)
      .ok (.fifo (unitIndex u) q)

/-- `qsel(UNIT, true)`, which answers a standalone FIFO or faults: its number and the queue. -/
def State.qselMut (s : State) (u : BitVec 8) : Op (Nat × Queue 32) := do
  let sel ← s.qsel u true
  match sel with
  | .fifo k q => .ok (k, q)
  | .chan _ _ => raise .badUnit

/-- `size(Q)` of a selected queue. -/
def Selected.size : Selected → Nat
  | .fifo _ q => q.size
  | .chan _ q => q.size

/-- `capacity(Q)` of a selected queue. -/
def Selected.cap : Selected → Nat
  | .fifo _ q => q.cap
  | .chan _ q => q.cap

/-- `live(Q)` of a selected queue, each element zero-extended to 32 bits (spec 30 R76). -/
def Selected.liveWords : Selected → Op (List Word)
  | .fifo _ q => q.live
  | .chan _ q => do
    let l ← q.live
    .ok (l.map (fun x => x.zeroExtend 32))

/-- An element operand of a selected queue: for W = 16 its bits 31:16 must be 0 (spec 30 R71, 41 R83; log entry 13). -/
def Selected.element (sel : Selected) (e : Word) : Op Word :=
  match sel with
  | .fifo _ _ => .ok e
  | .chan _ _ => if e.extractLsb' 16 16 = 0#16 then .ok e else raise .illegalCommand

/-- `qpop(Q, k)` on a selected queue, in the state. Only a standalone FIFO is ever selected for removal (spec 41 R83). -/
def State.popSelected (s : State) (sel : Selected) (k : Nat) : State :=
  match sel with
  | .fifo i q => s.setFifo i (q.pop k)
  | .chan _ _ => s

/-- The handler id of a handler id word: `W[31:16]` must be 0 (spec 30 R71, R72). -/
def handlerId (w : Word) : Op (BitVec 16) :=
  if w.extractLsb' 16 16 = 0#16 then .ok (w.extractLsb' 0 16) else raise .illegalCommand

/-- The bytes of CRC8's operand words: N is 1..255 and the unused low bytes of the last word are 0 (spec 42 R111). -/
def crc8Operands (n : BitVec 16) (ws : List Word) : Op (List Byte) :=
  if n.toNat = 0 ∨ n.toNat > 255 then raise .illegalCommand
  else if ((unpackWords ws).drop n.toNat).any (fun b => b != 0#8) then raise .illegalCommand
  else .ok ((unpackWords ws).take n.toNat)

end Sys2Proof.Machine
end

