-- ==== Sys2Proof/Machine/Codec.lean ====
section
/-! DEFINITION. The datagram codec and its checksum, and the four codec commands (spec 42). -/

namespace Sys2Proof.Machine

/-! ## Functions (spec 42 section 1) -/

/-- One bit of the checksum: the data bit fed is `b` (spec 42 R103). -/
def crcBit (crc : Byte) (b : Bool) : Byte :=
  if (crc.getLsbD 7 ^^ b) then (crc <<< 1) ^^^ 0x07#8 else crc <<< 1

/-- One byte of the checksum, fed from its bit 0 upward (spec 42 R103, 20 R43). -/
def crcByte (crc b : Byte) : Byte :=
  crcBit (crcBit (crcBit (crcBit (crcBit (crcBit (crcBit (crcBit crc (b.getLsbD 0)) (b.getLsbD 1)) (b.getLsbD 2))
    (b.getLsbD 3)) (b.getLsbD 4)) (b.getLsbD 5)) (b.getLsbD 6)) (b.getLsbD 7)

/-- The running checksum of a whole string; initial value 0x00 (spec 42 R103, D8; log entry 11). -/
def crcOver (bs : List Byte) : Byte := bs.foldl crcByte 0x00#8

/-- `crc8(B, N)`: over the first N - 1 bytes (spec 42 R103, conflicts C1 and C2). -/
def crc8 (bs : List Byte) (n : Nat) : Byte := crcOver (bs.take (n - 1))

/-- Byte 0, sync and reserved (spec 42 R106). -/
def byte0 (p : BitPacking) : Byte :=
  match p with
  | .msbFirst => 0x50#8
  | .lsbFirst => 0x05#8

/-- Byte 2, register and read/write flag (spec 42 R106). -/
def byte2 (p : BitPacking) (reg : BitVec 7) (rw : Bool) : Byte :=
  match p with
  | .msbFirst => reg ++ BitVec.ofBool rw
  | .lsbFirst => BitVec.ofBool rw ++ reg

/-- The bytes of a datagram before its checksum, closed by the checksum over them (spec 30 R62). -/
def withCrc (bs : List Byte) : List Byte := bs ++ [crcOver bs]

/-- The 4 bytes of a read request (spec 42 R107). -/
def buildRead (p : BitPacking) (dev : Byte) (reg : BitVec 7) : List Byte :=
  withCrc [byte0 p, dev, byte2 p reg false]

/-- The 8 bytes of a write data frame, data3 first (spec 42 R108, 20 R41). -/
def buildWrite (p : BitPacking) (dev : Byte) (reg : BitVec 7) (v : Word) : List Byte :=
  withCrc ([byte0 p, dev, byte2 p reg true] ++ wordBytes v)

/-- The value carried by bytes 3..6 of a received frame (spec 42 R109). -/
def frameValue (r : List Byte) : Word := packWord (r.getD 3 0#8) (r.getD 4 0#8) (r.getD 5 0#8) (r.getD 6 0#8)

/-- Byte 7 of a received frame is the checksum of bytes 0..6 (spec 42 R109). -/
def frameOk (r : List Byte) : Bool := crc8 r 8 == r.getD 7 0#8

/-- `parse(R)` of the 8 bytes received: the checksum flag and the value; nothing else is checked (spec 42 R109, 30 R66). -/
def parse (r : List Byte) : Bool × Word := (frameOk r, frameValue r)

/-! ## Commands (spec 42 section 2) -/

/-- CRC8 (spec 42 R111). -/
def execCrc8 (n : BitVec 16) (ws : List Word) (s : State) : Result :=
  command .crc8 0#8 s do
    let bs ← crc8Operands n ws
    .ok (s.respondOk [(crc8 bs n.toNat).zeroExtend 32])

/-- MKRD (spec 42 R112). -/
def execMkrd (dev : Byte) (reg : BitVec 7) (s : State) : Result :=
  command .mkrd 0#8 s (.ok (s.respondOk (packBytes (buildRead s.cfg.bitPacking dev reg))))

/-- MKWR (spec 42 R113). -/
def execMkwr (dev : Byte) (reg : BitVec 7) (v : Word) (s : State) : Result :=
  command .mkwr 0#8 s (.ok (s.respondOk (packBytes (buildWrite s.cfg.bitPacking dev reg v))))

/-- PARSE (spec 42 R114). -/
def execParse (w1 w2 : Word) (s : State) : Result :=
  command .parse 0#8 s
    (.ok (s.respondOk [flagWord (parse (unpackWords [w1, w2])).1, (parse (unpackWords [w1, w2])).2]))

end Sys2Proof.Machine
end

