-- ==== Sys2Proof/Machine/Ticket.lean ====
section
/-! DEFINITION. Ticket allocation and the ticket commands (spec 43). -/

namespace Sys2Proof.Machine

/-- The least position of a free slot, if there is one. -/
def freeSlot : List (Option Ticket) → Option Nat
  | [] => none
  | none :: _ => some 0
  | some _ :: rest => (freeSlot rest).map (· + 1)

/-- The record of a new ticket; buffer bytes that hold no value are `none` (spec 43 R115). -/
def newTicket (p : BitPacking) (c : Nat) (kind : Kind) (dev : Byte) (reg : BitVec 7) (v : Word) (hid : BitVec 16) : Ticket where
  kind := kind
  chan := BitVec.ofNat 7 c
  dev := dev
  reg := reg
  value := match kind with
    | .read => 0#32
    | .write => v
  frame := match kind with
    | .read => (buildRead p dev reg).map some ++ List.replicate 4 none
    | .write => (buildWrite p dev reg v).map some
  reply := List.replicate 8 none
  status := .pending
  hid := hid

/-- `tkt_alloc`: the least free handle, and the state with its slot filled (spec 43 R115). -/
def State.tktAlloc (s : State) (c : Nat) (kind : Kind) (dev : Byte) (reg : BitVec 7) (v : Word) (hid : BitVec 16) :
    Op (State × Handle) :=
  match freeSlot s.tkt with
  | none => raise .allocationFailure
  | some i =>
    let h := BitVec.ofNat 16 (i + 1)
    .ok (s.setTkt h (newTicket s.cfg.bitPacking c kind dev reg v hid), h)

/-- TSTAT (spec 43 R122). -/
def execTstat (h : Handle) (s : State) : Result :=
  command .tstat 0#8 s do
    let x ← s.ticketOf h
    .ok (s.respondOk [x.status.word])

/-- TVAL reads the reply of a Read ticket that is CompletedOk or CrcError (spec 43 R123). -/
def Ticket.valueReadable (x : Ticket) : Bool :=
  x.kind == .read && (x.status == .completedOk || x.status == .crcError)

/-- TVAL (spec 43 R123). -/
def execTval (h : Handle) (s : State) : Result :=
  command .tval 0#8 s do
    let x ← s.ticketOf h
    if x.valueReadable = false then raise .valueUnavailable
    else do
      let r ← memRead x.reply 0 8
      .ok (s.respondOk [(parse r).2])

/-- TREL (spec 43 R124). -/
def execTrel (h : Handle) (s : State) : Result :=
  command .trel 0#8 s do
    let x ← s.ticketOf h
    if x.status = .pending then raise .releasePending
    else .ok ((s.release h).respondOk [])

end Sys2Proof.Machine
end

