-- ==== Sys2Proof/Machine/Scheduler.lean ====
section
/-! DEFINITION. The transfer sequencer: its internal operations and the channel commands (spec 44). -/

namespace Sys2Proof.Machine

/-! ## Internal operations (spec 44 section 1) -/

/-- The peripheral state of a transfer just started (spec 44 R126). -/
def Periph.started : Periph := { armed := true, ieRx := true, ieTo := true, stRx := false, stTo := false }

/-- The PSTART record of a ticket's transfer (spec 44 R126, 30 R78). -/
def pstartOf (g : Config) (c : Nat) (h : Handle) (x : Ticket) : Op Output :=
  match x.kind with
  | .read => do
    let tx ← memRead x.frame 0 4
    .ok (.pstart c tx 4 (.reply h) 8 g.timeoutBitTimes)
  | .write => do
    let tx ← memRead x.frame 0 8
    .ok (.pstart c tx 8 (.frame h) 8 g.timeoutBitTimes)

/-- `start_transfer(c)`: the transfer of the head ticket, which stays queued (spec 44 R126, conflict C3). -/
def State.startTransfer (s : State) (c : Nat) : Op State := do
  let x ← s.getCh c
  if x.per.armed then raise .doubleStart
  else do
    let h ← x.q.head
    let t ← s.getTkt h
    let o ← pstartOf s.cfg c h t
    .ok ((s.setCh c { x with per := Periph.started }).emit o)

/-- `enqueue(c, h)`: push, and start at once if the queue was empty (spec 44 R125). -/
def State.enqueue (s : State) (c : Nat) (h : Handle) : Op State := do
  let x ← s.getCh c
  let r ← x.q.place s.cfg [h]
  let s' := s.setCh c { x with q := r.1 }
  if x.q.size = 0 then s'.startTransfer c else .ok s'

/-- The buffer a ticket's transfer delivers to: the reply of a Read, the frame of a Write (spec 44 R126, R128). -/
def Ticket.inbound (x : Ticket) : List (Option Byte) :=
  match x.kind with
  | .read => x.reply
  | .write => x.frame

/-- `classify`: a timeout wins; else the checksum of the inbound buffer decides (spec 44 R128, 60 R153). -/
def classify (x : Ticket) (timedOut : Bool) : Op Status :=
  if timedOut then .ok .timedOut
  else do
    let buf ← memRead x.inbound 0 8
    .ok (if (parse buf).1 then .completedOk else .crcError)

/-- The handler id NONE (spec 30 R72). -/
def hidNone : BitVec 16 := 0x0000#16

/-- The handler id DEFAULT_RELEASE (spec 30 R72). -/
def hidDefaultRelease : BitVec 16 := 0xFFFF#16

/-- `invoke_handler(c, h, s)`: nothing, the default release, or the ENTRY of a host handler, which saves channel and ticket
in the handler phase and notifies the host (spec 44 R129, 60 R154). -/
def State.invokeHandler (s : State) (c : Nat) (h : Handle) (st : Status) (hid : BitVec 16) : State :=
  if hid = hidNone then s
  else if hid = hidDefaultRelease then s.release h
  else (s.emit (.notify (notifyN0 (BitVec.ofNat 7 c) st) (notifyN1 h hid))).setHphase (.active (BitVec.ofNat 7 c) h)

/-- `continuation(c)`: what follows the handler of a completion (spec 44 R130, conflict C4). -/
def State.continuation (s : State) (c : Nat) : Op State := do
  let x ← s.getCh c
  if 1 ≤ x.q.size ∧ x.per.armed = false then
    match s.cfg.nextStart with
    | .deferred => .ok (s.setCh c { x with idle := 0x00#8 })
    | .immediate => s.startTransfer c
  else .ok s

/-- `on_completion(c)` (spec 44 R127). -/
def State.onCompletion (s : State) (c : Nat) : Op State := do
  let x ← s.getCh c
  if x.per.armed = false ∨ x.q.size = 0 then raise .spuriousCompletion
  else do
    let h ← x.q.head
    let s1 := (s.setCh c { x with q := x.q.pop 1, per := Periph.off }).emit (.preset c)
    let t ← s1.getTkt h
    let st ← classify t x.per.stTo
    let s2 := s1.setTkt h { t with status := st }
    let s3 := s2.invokeHandler c h st t.hid
    if s3.hphase = .none then s3.continuation c else .ok s3

/-- `idle_tick(c)` (spec 44 R131). -/
def State.idleTick (s : State) (c : Nat) : Op State := do
  let x ← s.getCh c
  if x.idle = notIdle then .ok s
  else if x.idle.toNat + 1 > s.cfg.debounceT then
    if x.q.size = 0 then raise .invariantBroken
    else do
      let s1 ← s.startTransfer c
      let x1 ← s1.getCh c
      .ok (s1.setCh c { x1 with idle := notIdle })
  else .ok (s.setCh c { x with idle := x.idle + 1#8 })

/-! ## Commands (spec 44 section 2) -/

/-- A channel that exists and has been created, else `Fault(BadUnit)` (spec 44 R134, R135). -/
def State.createdChannel (s : State) (c : Nat) : Op Channel := do
  let x ← s.channelUnit c
  if x.init = false then raise .badUnit else .ok x

/-- The common rule of CHRD and CHWR: allocate a ticket, enqueue it, answer its handle (spec 44 R134, R135). -/
def State.submit (s : State) (c : Nat) (kind : Kind) (dev : Byte) (reg : BitVec 7) (v hidWord : Word) : Op State := do
  let _ ← s.createdChannel c
  let hid ← handlerId hidWord
  let a ← s.tktAlloc c kind dev reg v hid
  let s' ← a.1.enqueue c a.2
  .ok (s'.respondOk [a.2.zeroExtend 32])

/-- A channel as CHNEW makes it (spec 44 R133). -/
def newChannel (g : Config) : Channel :=
  { init := true, q := Queue.fresh 16 g.initCapacity, idle := notIdle, per := Periph.off, tickp := false }

/-- CHNEW (spec 44 R133). -/
def execChnew (c : BitVec 8) (s : State) : Result :=
  command .chnew c s do
    let x ← s.channelUnit c.toNat
    if x.init then raise .badUnit
    else .ok ((s.setCh c.toNat (newChannel s.cfg)).respondOk [])

/-- CHRD (spec 44 R134). -/
def execChrd (c : BitVec 8) (dev : Byte) (reg : BitVec 7) (w1 : Word) (s : State) : Result :=
  command .chrd c s (s.submit c.toNat .read dev reg 0#32 w1)

/-- CHWR (spec 44 R135). -/
def execChwr (c : BitVec 8) (dev : Byte) (reg : BitVec 7) (v w2 : Word) (s : State) : Result :=
  command .chwr c s (s.submit c.toNat .write dev reg v w2)

/-- HRET, THE RETURN from a host handler: the handler phase ends and the completion's continuation runs (spec 44 R136, 60 R155). -/
def execHret (c : BitVec 8) (s : State) : Result :=
  command .hret c s do
    let _ ← s.channelUnit c.toNat
    match handlerOf s.hphase c.toNat with
    | none => raise .handlerProtocol
    | some _ =>
      let s' ← (s.setHphase .none).continuation c.toNat
      .ok (s'.respondOk [])

/-- The head of a channel's queue, 0 where it is empty (spec 44 R137). -/
def Queue.headOr0 (q : Queue 16) : Op Handle := if 1 ≤ q.size then q.head else .ok 0#16

/-- CHSTAT (spec 44 R137): what it shows of HPHASE it takes from the element's word (spec 10 R31; log entry 22). -/
def execChstat (c : BitVec 8) (s : State) : Result :=
  command .chstat c s do
    let x ← s.channelUnit c.toNat
    let hd ← x.q.headOr0
    let act := chstatHandler s.hphase.word c.toNat
    .ok (s.respondOk [chstatW0 x act.isSome, chstatW1 x, chstatW2 hd (act.getD 0#16)])

end Sys2Proof.Machine
end

