-- ==== Sys2Proof/Machine/Event.lean ====
section
/-! DEFINITION. The events, the block's own take steps, and what an illegal word does (spec 60 section 2, 30 R80). -/

namespace Sys2Proof.Machine

/-- `rx_complete`, bit 0 of the flags of EVCOMP (spec 30 R70). -/
def flagRx (f : BitVec 2) : Bool := f.getLsbD 0

/-- `timed_out`, bit 1 of the flags of EVCOMP (spec 30 R70). -/
def flagTo (f : BitVec 2) : Bool := f.getLsbD 1

/-- The delivered bytes in a ticket's inbound buffer: the reply of a Read, the echo of a Write's frame (spec 60 R148). -/
def Ticket.deliver (x : Ticket) (d : List Byte) : Op Ticket :=
  match x.kind with
  | .read => do
    let b ← memWrite x.reply 0 d
    .ok { x with reply := b }
  | .write => do
    let b ← memWrite x.frame 0 d
    .ok { x with frame := b }

/-- `periph_finish(c, f, D)` (spec 60 R148). -/
def State.periphFinish (s : State) (c : Nat) (f : BitVec 2) (d : List Byte) : Op State := do
  let x ← s.channelUnit c
  if f = 0#2 then raise .illegalCommand
  else if x.per.armed = false ∨ x.per.stRx = true ∨ x.per.stTo = true then raise .spuriousCompletion
  else do
    let h ← x.q.head
    let t ← s.getTkt h
    let t' ← t.deliver d
    .ok ((s.setTkt h t').setCh c { x with per := { x.per with stRx := flagRx f, stTo := flagTo f } })

/-- EVCOMP (spec 60 R148). It gives no response. -/
def execEvcomp (c : BitVec 8) (flags : BitVec 2) (w1 w2 : Word) (s : State) : Result :=
  command .evcomp c s (s.periphFinish c.toNat flags (unpackWords [w1, w2]))

/-- EVTICK: the latch is set; a second tick before the take is lost (spec 60 R149). It gives no response. -/
def execEvtick (c : BitVec 8) (s : State) : Result :=
  command .evtick c s do
    let x ← s.channelUnit c.toNat
    .ok (s.setCh c.toNat { x with tickp := true })

/-! ## Takes (spec 60 R150 to R152) -/

/-- A completion of the channel is pending and enabled (spec 60 R150). -/
def Channel.completionPending (x : Channel) : Bool := (x.per.stRx && x.per.ieRx) || (x.per.stTo && x.per.ieTo)

/-- The completion of channel `c` is takeable: no handler runs and the completion is pending (spec 60 R150). -/
def State.compTakeable (s : State) (c : Nat) : Bool :=
  s.hphase == .none &&
    (match s.ch[c]? with
    | some x => x.completionPending
    | none => false)

/-- The tick of channel `c` is takeable (spec 60 R150). -/
def State.tickTakeable (s : State) (c : Nat) : Bool :=
  s.hphase == .none &&
    (match s.ch[c]? with
    | some x => x.tickp
    | none => false)

/-- `take_tick(c)` (spec 60 R152). -/
def State.takeTickBody (s : State) (c : Nat) : Op State := do
  let x ← s.getCh c
  let s' := s.setCh c { x with tickp := false }
  if x.init then s'.idleTick c else .ok s'

/-- The completion take of channel `c`, recorded with opcode 0x80 if it faults (spec 60 R145, R151); not takeable, nothing
happens (log entry 17). -/
def takeCompletion (c : Nat) (s : State) : Result :=
  if s.compTakeable c then command .evcomp (BitVec.ofNat 8 c) s (s.onCompletion c) else .next s

/-- The tick take of channel `c`, recorded with opcode 0x81 if it faults (spec 60 R145, R152); not takeable, nothing
happens (log entry 17). -/
def takeTick (c : Nat) (s : State) : Result :=
  if s.tickTakeable c then command .evtick (BitVec.ofNat 8 c) s (s.takeTickBody c) else .next s

/-! ## Illegal words (spec 30 R75, R80) -/

/-- An illegal header raises `Fault(IllegalCommand)` with its own opcode and unit (spec 60 R145). -/
def illegalWord (hdr : Word) (s : State) : Result :=
  runStep (hdrOpc hdr) (hdrUnit hdr) s (raise .illegalCommand)

end Sys2Proof.Machine
end

