-- ==== Sys2Proof/Machine/Fifo.lean ====
section
/-! DEFINITION. The FIFO commands (spec 41 section 2). -/

namespace Sys2Proof.Machine

/-- Append to a standalone FIFO and answer the reallocation flag: the common rule of FPUSH and FPUSHN. -/
def State.pushList (s : State) (u : BitVec 8) (es : List Word) : Op State := do
  let sel ← s.qselMut u
  let r ← sel.2.place s.cfg es
  .ok ((s.setFifo sel.1 r.1).respondOk [flagWord r.2])

/-- The first `n` elements, removed if `r`, or the sentinel result: the rule of FPULL. -/
def State.pullCount (s : State) (u : BitVec 8) (r : Bool) (n : Nat) : Op State := do
  let sel ← s.qsel u r
  if n > sel.size then .ok s.respondFail
  else do
    let l ← sel.liveWords
    let s' := if r then s.popSelected sel n else s
    .ok (s'.respondOk (l.take n))

/-- The prefix through the first `e`, removed if `r`, or the sentinel result: the rule of FPULLU. -/
def State.pullUntil (s : State) (u : BitVec 8) (r : Bool) (e : Word) : Op State := do
  let sel ← s.qsel u r
  let e' ← sel.element e
  let l ← sel.liveWords
  let i := findPos l e'
  if i = sel.size then .ok s.respondFail
  else
    let s' := if r then s.popSelected sel (i + 1) else s
    .ok (s'.respondOk (countWord (i + 1) :: l.take (i + 1)))

/-- FPUSH (spec 41 R91). -/
def execFpush (u : BitVec 8) (e : Word) (s : State) : Result := command .fpush u s (s.pushList u [e])

/-- FPUSHN (spec 41 R92). -/
def execFpushn (u : BitVec 8) (es : List Word) (s : State) : Result := command .fpushn u s (s.pushList u es)

/-- FPOP (spec 41 R93). -/
def execFpop (u : BitVec 8) (n : BitVec 16) (s : State) : Result :=
  command .fpop u s do
    let sel ← s.qselMut u
    if n.toNat > sel.2.size then .ok s.respondFail
    else .ok ((s.setFifo sel.1 (sel.2.pop n.toNat)).respondOk [])

/-- FPOPU (spec 41 R94). -/
def execFpopu (u : BitVec 8) (e : Word) (s : State) : Result :=
  command .fpopu u s do
    let sel ← s.qselMut u
    let l ← sel.2.live
    if findPos l e = sel.2.size then .ok s.respondFail
    else .ok ((s.setFifo sel.1 (sel.2.pop (findPos l e + 1))).respondOk [])

/-- FPULL (spec 41 R95). -/
def execFpull (u : BitVec 8) (r : Bool) (n : BitVec 15) (s : State) : Result :=
  command .fpull u s (s.pullCount u r n.toNat)

/-- FPULLU (spec 41 R96). -/
def execFpullu (u : BitVec 8) (r : Bool) (e : Word) (s : State) : Result :=
  command .fpullu u s (s.pullUntil u r e)

/-- FFIND (spec 41 R97). -/
def execFfind (u : BitVec 8) (e : Word) (s : State) : Result :=
  command .ffind u s do
    let sel ← s.qsel u false
    let e' ← sel.element e
    let l ← sel.liveWords
    .ok (s.respondOk [countWord (findPos l e')])

/-- FNORM (spec 41 R98). -/
def execFnorm (u : BitVec 8) (s : State) : Result :=
  command .fnorm u s do
    let sel ← s.qselMut u
    let r ← sel.2.normalize s.cfg
    .ok ((s.setFifo sel.1 r.1).respondOk [flagWord r.2])

/-- FSIZE (spec 41 R99). -/
def execFsize (u : BitVec 8) (s : State) : Result :=
  command .fsize u s do
    let sel ← s.qsel u false
    .ok (s.respondOk [countWord sel.size])

/-- FCAP (spec 41 R100). -/
def execFcap (u : BitVec 8) (s : State) : Result :=
  command .fcap u s do
    let sel ← s.qsel u false
    .ok (s.respondOk [countWord sel.cap])

/-- FEMPTY (spec 41 R101). -/
def execFempty (u : BitVec 8) (s : State) : Result :=
  command .fempty u s do
    let sel ← s.qsel u false
    .ok (s.respondOk [flagWord (sel.size == 0)])

end Sys2Proof.Machine
end

