-- ==== Sys2Proof/Machine/Dispatch.lean ====
section
/-! DEFINITION. One arm per instruction, each one call of its meaning. -/

namespace Sys2Proof.Machine

def exec (i : Instr) (s : State) : Host.Outcome State Fault Refusal :=
  match i with
  | .fpush u e => Sys2Proof.Machine.execFpush u e s
  | .fpushn u es => Sys2Proof.Machine.execFpushn u es s
  | .fpop u n => Sys2Proof.Machine.execFpop u n s
  | .fpopu u e => Sys2Proof.Machine.execFpopu u e s
  | .fpull u r n => Sys2Proof.Machine.execFpull u r n s
  | .fpullu u r e => Sys2Proof.Machine.execFpullu u r e s
  | .ffind u e => Sys2Proof.Machine.execFfind u e s
  | .fnorm u => Sys2Proof.Machine.execFnorm u s
  | .fsize u => Sys2Proof.Machine.execFsize u s
  | .fcap u => Sys2Proof.Machine.execFcap u s
  | .fempty u => Sys2Proof.Machine.execFempty u s
  | .crc8 n ws => Sys2Proof.Machine.execCrc8 n ws s
  | .mkrd dev reg => Sys2Proof.Machine.execMkrd dev reg s
  | .mkwr dev reg v => Sys2Proof.Machine.execMkwr dev reg v s
  | .parse w1 w2 => Sys2Proof.Machine.execParse w1 w2 s
  | .tstat h => Sys2Proof.Machine.execTstat h s
  | .tval h => Sys2Proof.Machine.execTval h s
  | .trel h => Sys2Proof.Machine.execTrel h s
  | .chnew c => Sys2Proof.Machine.execChnew c s
  | .chrd c dev reg w1 => Sys2Proof.Machine.execChrd c dev reg w1 s
  | .chwr c dev reg v w2 => Sys2Proof.Machine.execChwr c dev reg v w2 s
  | .hret c => Sys2Proof.Machine.execHret c s
  | .chstat c => Sys2Proof.Machine.execChstat c s
  | .evcomp c flags w1 w2 => Sys2Proof.Machine.execEvcomp c flags w1 w2 s
  | .evtick c => Sys2Proof.Machine.execEvtick c s

end Sys2Proof.Machine
end

