-- ==== Sys2Proof/Machine/Moves.lean ====
section
/-! DEFINITION. What each agent's move does: the host's command, an event's arrival, the block's takes (spec 00 R8), and how
the words of an instruction come to stand at the port it arrives on. -/

namespace Sys2Proof.Machine

/-- What stands at the front of a port takes effect: an incomplete command waits for its words (spec 30 R67), an illegal
header faults (30 R80), an instruction runs in the state with its words consumed. -/
def runDecoded (d : Decoded) (s : State) (consumed : List Word → State) : Result :=
  match d with
  | .short => .next s
  | .reject _ hdr => illegalWord hdr s
  | .instr i rest => exec i (consumed rest)

/-- The host's move: the command at the front of the command port. -/
def hostMove (s : State) : Result := runDecoded (decodeCommand s.cmd) s (fun rest => { s with cmd := rest })

/-- An event's move: the event at the front of the event inputs. -/
def eventMove (s : State) : Result := runDecoded (decodeEvent s.evt) s (fun rest => { s with evt := rest })

/-- The move of one agent. -/
def agentMove (m : Move) (s : State) : Result :=
  match m with
  | .host => hostMove s
  | .event => eventMove s
  | .takeComp c => takeCompletion c s
  | .takeTick c => takeTick c s

/-- The words of an instruction at the front of the port it arrives on (spec 30 R75), that port's agent next to move. -/
def State.placeWords (s : State) (ws : List Word) : State :=
  match ws with
  | [] => s
  | hdr :: _ =>
    if hdrIsEvent hdr then { s with evt := ws ++ s.evt, sched := .event :: s.sched }
    else { s with cmd := ws ++ s.cmd, sched := .host :: s.sched }

end Sys2Proof.Machine
end

