-- ==== Sys2Proof/Machine/Step.lean ====
section
/-! DEFINITION. One step of the machine: the agent that the schedule names moves (spec 00 R8, 20 R51). -/

namespace Sys2Proof.Machine

/-- One step. A faulted block does nothing (spec 60 R145); with an empty schedule no agent moves (log entry 17). -/
def step (s : State) : Host.Outcome State Fault Refusal :=
  if s.faulted then .next s
  else
    match s.sched with
    | [] => .next s
    | m :: rest => agentMove m { s with sched := rest }

/-- `s` with the instruction whose bits are `w` at the front of the port it arrives on, and that port next to move: the very
next step runs it (log entry 12). -/
def State.withFetchWord (s : State) (nbits w : Nat) : State := s.placeWords (tableWords nbits w)

end Sys2Proof.Machine
end

