-- ==== Sys2Proof/WellFormed.lean ====
section
/-! DEFINITION. Which instructions some sequence of words encodes, and which the operand rules of spec 30 R70 and R71 admit. -/

namespace Sys2Proof

/-- The instruction has words: a list of operand words is as long as its header can say (spec 30 R68, R70). -/
abbrev Instr.Encodable : Instr → Prop
  | .fpush _ _ => True
  | .fpushn _ es => es.length ≤ 65535
  | .fpop _ _ => True
  | .fpopu _ _ => True
  | .fpull _ _ _ => True
  | .fpullu _ _ _ => True
  | .ffind _ _ => True
  | .fnorm _ => True
  | .fsize _ => True
  | .fcap _ => True
  | .fempty _ => True
  | .crc8 n ws => ws.length = (n.toNat + 3) / 4
  | .mkrd _ _ => True
  | .mkwr _ _ _ => True
  | .parse _ _ => True
  | .tstat _ => True
  | .tval _ => True
  | .trel _ => True
  | .chnew _ => True
  | .chrd _ _ _ _ => True
  | .chwr _ _ _ _ _ => True
  | .hret _ => True
  | .chstat _ => True
  | .evcomp _ _ _ _ => True
  | .evtick _ => True

/-- The count of CRC8 is 1..255 and the unused low bytes of its last word are 0 (spec 30 R70, 20 R45). -/
abbrev crc8OperandsLegal (n : BitVec 16) (ws : List Word) : Prop :=
  1 ≤ n.toNat ∧ n.toNat ≤ 255 ∧ ∀ b ∈ (unpackWords ws).drop n.toNat, b = 0#8

/-- The reserved bits of a handler id word are 0 (spec 30 R71). -/
abbrev handlerWordLegal (w : Word) : Prop := w.extractLsb' 16 16 = 0#16

/-- The instruction has words and every operand the encoding restricts is in its range (spec 30 R70, R71). What depends on
the state (a unit that exists, a valid handle, the width of the queue selected) is the rule's own to check. -/
abbrev Instr.WellFormed : Instr → Prop
  | .fpush _ _ => True
  | .fpushn _ es => es.length ≤ 65535
  | .fpop _ _ => True
  | .fpopu _ _ => True
  | .fpull _ _ _ => True
  | .fpullu _ _ _ => True
  | .ffind _ _ => True
  | .fnorm _ => True
  | .fsize _ => True
  | .fcap _ => True
  | .fempty _ => True
  | .crc8 n ws => ws.length = (n.toNat + 3) / 4 ∧ crc8OperandsLegal n ws
  | .mkrd _ _ => True
  | .mkwr _ _ _ => True
  | .parse _ _ => True
  | .tstat _ => True
  | .tval _ => True
  | .trel _ => True
  | .chnew _ => True
  | .chrd _ _ _ w1 => handlerWordLegal w1
  | .chwr _ _ _ _ w2 => handlerWordLegal w2
  | .hret _ => True
  | .chstat _ => True
  | .evcomp _ flags _ _ => flags ≠ 0#2
  | .evtick _ => True

end Sys2Proof
end

