-- ==== Sys2Proof/Safety.lean ====
section
/-! DEFINITION. What a safe state is: the invariants of spec 10 R35 with what they need to be kept, and the states the machine
can reach under every environment. -/

namespace Sys2Proof.Machine

/-! ## Spaces in their form -/

/-- A queue in the order of its boundaries (spec 10 R16) whose live cells hold exactly the list `l`, oldest first. -/
abbrev Queue.Holds {w : Nat} (q : Queue w) (l : List (BitVec w)) : Prop :=
  q.h ≤ q.t ∧ q.t ≤ q.cell.length ∧ (q.cell.drop q.h).take (q.t - q.h) = l.map some

/-- A queue in its form: its boundaries in order, its capacity in the limit (spec 10 R16, R17), its live cells holding values. -/
abbrev Queue.WF {w : Nat} (limit : Nat) (q : Queue w) : Prop :=
  q.h ≤ q.t ∧ q.t ≤ q.cell.length ∧ q.cell.length ≤ limit ∧
    ((q.cell.drop q.h).take (q.t - q.h)).all Option.isSome = true

/-- The live list of a queue as a list; empty where a live cell holds no value. -/
def Queue.liveList {w : Nat} (q : Queue w) : List (BitVec w) :=
  match q.live with
  | .ok l => l
  | .error _ => []

/-- The bytes a ticket sends hold values: 4 of a Read, 8 of a Write (spec 44 R126). -/
def Ticket.sendable (x : Ticket) : Bool :=
  match x.kind with
  | .read => (x.frame.take 4).all Option.isSome
  | .write => x.frame.all Option.isSome

/-- A ticket record in its form: a channel that exists, two buffers of 8 bytes (spec 10 R21), what it sends holding values,
and what it received holding values once it was classified by its checksum (spec 10 R22, 44 R128). -/
abbrev Ticket.WF (g : Config) (x : Ticket) : Prop :=
  x.chan.toNat < g.numChannels ∧ x.frame.length = 8 ∧ x.reply.length = 8 ∧ x.sendable = true ∧
    (x.status = .completedOk ∨ x.status = .crcError → x.inbound.all Option.isSome = true)

/-- Every space of the block is in its form: the FIFO arenas, the channel queues' arenas, the ticket buffers (spec 20 R36). -/
abbrev Memory.wf (s : State) : Prop :=
  (∀ q ∈ s.fifo, q.WF s.cfg.memLimit) ∧ (∀ x ∈ s.ch, x.q.WF s.cfg.memLimit) ∧
    (∀ slot ∈ s.tkt, ∀ x ∈ slot, x.WF s.cfg)

/-! ## What is written in an arena -/

/-- The cells of an arena from `a` up to but not `b` may have been written, every other one is as it was. -/
abbrev WrittenOnly {w : Nat} (q q' : Queue w) (a b : Nat) : Prop :=
  ∀ j : Nat, (j < a ∨ b ≤ j) → q'.cell[j]? = q.cell[j]?

/-- The cells of a new allocation past the elements copied and appended hold no value (spec 41 R85). -/
abbrev RestFree {w : Nat} (q' : Queue w) : Prop :=
  ∀ j : Nat, q'.t ≤ j → j < q'.cell.length → q'.cell[j]? = some none

/-! ## How a push makes room -/

/-- The three ways `place` makes room for `n` elements in a queue (spec 41 R86). -/
inductive Room where
  | tail
  | compaction
  | growth
  deriving DecidableEq, Repr

/-- Which way it is. -/
def Queue.room {w : Nat} (q : Queue w) (n : Nat) : Room :=
  if n ≤ q.cap - q.t then .tail
  else if n ≤ q.cap - q.size ∧ 5 * (q.size + n) < 4 * q.cap then .compaction
  else .growth

/-- The capacity `place` leaves (spec 41 R86). -/
def Queue.capAfter {w : Nat} (q : Queue w) (n : Nat) : Nat :=
  match q.room n with
  | .tail => q.cap
  | .compaction => q.cap
  | .growth => q.cap + max n (q.cap / 5)

/-- The offset of the first live element that `place` leaves (spec 41 R84 to R86). -/
def Queue.startAfter {w : Nat} (q : Queue w) (n : Nat) : Nat :=
  match q.room n with
  | .tail => q.h
  | .compaction => 0
  | .growth => 0

/-! ## The invariants of spec 10 R35 -/

/-- `S.ch[c]`, a channel as reset leaves it beyond the last. -/
def State.chan (s : State) (c : Nat) : Channel := s.ch.getD c Channel.reset

/-- The handle of a slot position. -/
def handleAt (i : Nat) : Handle := BitVec.ofNat 16 (i + 1)

/-- A Pending ticket of channel `c`. -/
def Ticket.pendingOn (x : Ticket) (c : Nat) : Bool := x.chan.toNat == c && x.status == .pending

/-- The tables have the sizes the parameters give them (spec 10 R20, R21, R23). -/
abbrev State.TablesSized (s : State) : Prop :=
  s.fifo.length = s.cfg.numFifos ∧ s.tkt.length = s.cfg.maxTickets ∧ s.ch.length = s.cfg.numChannels

/-- Invariant 2: the queued handles of a channel are distinct, and each names a Pending ticket of the channel. -/
abbrev State.QueuedArePending (s : State) (c : Nat) : Prop :=
  (s.chan c).q.liveList.Nodup ∧
    (s.chan c).q.liveList.all (fun h => (s.ticket? h).any (fun x => x.pendingOn c)) = true

/-- Invariant 2, the other way: a live Pending ticket is queued on its channel. -/
abbrev State.PendingAreQueued (s : State) : Prop :=
  ∀ i < s.tkt.length, ∀ x ∈ s.tkt.getD i none, x.status = .pending → handleAt i ∈ (s.chan x.chan.toNat).q.liveList

/-- Invariants 3 and 4: an armed channel has a queued ticket and both sources enabled; a channel not armed has every
peripheral bit 0. -/
abbrev Channel.ArmedOk (x : Channel) : Prop :=
  (x.per.armed = true → 1 ≤ x.q.size ∧ x.per.ieRx = true ∧ x.per.ieTo = true) ∧
    (x.per.armed = false → x.per = Periph.off)

/-- Invariant 5 with spec 10 R24: an active idle counter is at most the threshold, on a channel not armed that has a queued
ticket; under IMMEDIATE it is never active. -/
abbrev Channel.IdleOk (g : Config) (x : Channel) : Prop :=
  x.idle ≠ notIdle →
    x.per.armed = false ∧ 1 ≤ x.q.size ∧ x.idle.toNat ≤ g.debounceT ∧ g.nextStart = .deferred

/-- Invariant 6: outside its own handler, a channel with a queued ticket has a transfer or a debounce under way. -/
abbrev State.NoneStranded (s : State) (c : Nat) : Prop :=
  handlerOf s.hphase c = none → 1 ≤ (s.chan c).q.size →
    (s.chan c).per.armed = true ∨ (s.chan c).idle ≠ notIdle

/-- A finished transfer has delivered: the inbound buffer of the head ticket holds values (spec 60 R148). -/
abbrev State.FinishedDelivered (s : State) (c : Nat) : Prop :=
  (s.chan c).per.stRx = true ∨ (s.chan c).per.stTo = true →
    ((s.chan c).q.liveList.take 1).all (fun h => (s.ticket? h).any (fun x => x.inbound.all Option.isSome)) = true

/-- A channel not created is inert (spec 10 R34). -/
abbrev Channel.InertUntilCreated (x : Channel) : Prop :=
  x.init = false → x.q = Queue.fresh 16 0 ∧ x.idle = notIdle ∧ x.per = Periph.off

/-- An active handler belongs to a channel that exists and has been created, and to a handle of the table (spec 10 R31). -/
def State.handlerOk (s : State) : Bool :=
  match s.hphase with
  | .none => true
  | .active c h =>
    decide (c.toNat < s.cfg.numChannels) && (s.chan c.toNat).init && decide (1 ≤ h.toNat) &&
      decide (h.toNat ≤ s.cfg.maxTickets)

/-- The invariants of spec 10 R35 (1 to 6) and what they need: legal parameters, tables of their sizes, every space in its
form, a legal handler phase, a fault code of spec 60 R144 or none. -/
structure State.Inv (s : State) : Prop where
  cfgValid : s.cfg.Valid
  sized : s.TablesSized
  memory : Memory.wf s
  pending : s.PendingAreQueued
  handler : s.handlerOk = true
  queued : ∀ c < s.ch.length, s.QueuedArePending c
  armed : ∀ c < s.ch.length, (s.chan c).ArmedOk
  idle : ∀ c < s.ch.length, (s.chan c).IdleOk s.cfg
  stranded : ∀ c < s.ch.length, s.NoneStranded c
  delivered : ∀ c < s.ch.length, s.FinishedDelivered c
  inert : ∀ c < s.ch.length, (s.chan c).InertUntilCreated
  faultCode : s.fault.code.toNat ≤ 10

/-! ## Reachable states -/

/-- The states a machine with parameters `g` can reach: from reset, by its steps, while the environment gives it whatever
inputs it likes and lets the agents move in whatever order (spec 00 R8, 93 I3 to I5). -/
inductive Reachable (g : Config) : State → Prop where
  | reset : Reachable g (State.resetOf g)
  | input (s : State) (cmd evt : List Word) (sched : List Move) :
      Reachable g s → Reachable g { s with cmd := cmd, evt := evt, sched := sched }
  | step (s t : State) : Reachable g s → step s = .next t → Reachable g t

end Sys2Proof.Machine
end

