-- ==== Sys2Proof/Certificates/Slice0/Obligations.lean ====
section
/-! DEFINITION. The statements for the provers, from the numbered rules of the spec, and the words they are said in. -/

namespace Sys2Proof.Claims

open Sys2Proof.Machine

/-! ## Words of the statements -/

/-- The block runs: `S.fault.code` is 0 (spec 10 R26). -/
abbrev Running (s : State) : Prop := s.fault.code = 0x00#8

/-- `s` with a fault latched and nothing else changed (spec 60 R145). -/
def faultedWith (s : State) (code unit opc : BitVec 8) : State := { s with fault := ⟨code, unit, opc⟩ }

/-- `t` is `s` but for the inputs (words on the ports, schedule), which are no state of the block (spec 10 R15, log entry 2). -/
def SameBlock (s t : State) : Prop := { t with cmd := s.cmd, evt := s.evt, sched := s.sched } = s

/-- `s` with one response put out: the response code, 0 for OK and 1 for FAIL, and the result words (spec 30 R76). -/
def answered (s : State) (rc : Word) (ws : List Word) : State := { s with out := s.out ++ [.response (rc :: ws)] }

/-- The UNIT byte of standalone FIFO `k` < 128 (spec 30 R69). -/
abbrev fifoUnit (k : Nat) : BitVec 8 := BitVec.ofNat 8 k

/-- The UNIT byte of the ticket queue of channel `c` < 128 (spec 30 R69). -/
abbrev queueUnit (c : Nat) : BitVec 8 := BitVec.ofNat 8 (128 + c)

/-- Standalone FIFO `k` exists, is `q`, and holds the list `l`. -/
abbrev FifoAt (s : State) (k : Nat) (q : Queue 32) (l : List Word) : Prop :=
  k < 128 ∧ k < s.cfg.numFifos ∧ s.fifo[k]? = some q ∧ q.Holds l

/-- Channel `c` exists and has been created, is `x`, and its queue holds the handles `l`. -/
abbrev QueueAt (s : State) (c : Nat) (x : Channel) (l : List Handle) : Prop :=
  c < 128 ∧ c < s.cfg.numChannels ∧ s.ch[c]? = some x ∧ x.init = true ∧ x.q.Holds l

/-- `h` is a valid handle and names the record `x` (spec 43 R121). -/
abbrev TicketAt (s : State) (h : Handle) (x : Ticket) : Prop :=
  h ≠ 0#16 ∧ h.toNat ≤ s.cfg.maxTickets ∧ s.tkt[h.toNat - 1]? = some (some x)

/-- `h` is not a valid handle: 0, beyond the table, or its slot is not live (spec 43 R121). -/
abbrev InvalidHandle (s : State) (h : Handle) : Prop :=
  h = 0#16 ∨ s.cfg.maxTickets < h.toNat ∨ (s.tkt[h.toNat - 1]?).join = none

/-- Slot position `i` is the least free one, and its handle fits 16 bits (spec 43 R115). -/
abbrev LeastFree (s : State) (i : Nat) : Prop :=
  i + 1 ≤ 65535 ∧ s.tkt[i]? = some none ∧ ∀ j < i, (s.tkt[j]?.join).isSome = true

/-- `q'` is the queue `q`, which held `l`, with `m` appended: where the elements stand, the capacity, and which cells of the
arena are written (spec 41 R84 to R86). -/
abbrev Appended {w : Nat} (q q' : Queue w) (l m : List (BitVec w)) : Prop :=
  q'.Holds (l ++ m) ∧ q'.h = q.startAfter m.length ∧ q'.cap = q.capAfter m.length ∧
    (q.room m.length = .tail → WrittenOnly q q' q.t q'.t) ∧
    (q.room m.length = .compaction → WrittenOnly q q' 0 q'.t) ∧
    (q.room m.length = .growth → RestFree q')

/-- `q'` is the queue `q` moved to the start of an arena of capacity `cap` (spec 41 R84, R85). -/
abbrev MovedToStart {w : Nat} (q' : Queue w) (l : List (BitVec w)) (cap : Nat) : Prop :=
  q'.Holds l ∧ q'.h = 0 ∧ q'.cap = cap

/-- A push of `n` elements finds room or a capacity in the limit (spec 41 R85, R86). -/
abbrev Fits {w : Nat} (s : State) (q : Queue w) (n : Nat) : Prop :=
  q.room n = .growth → q.capAfter n ≤ s.cfg.memLimit

/-- The datagram a ticket sends and its PSTART record (spec 44 R126, 30 R78). -/
abbrev Starts (s : State) (c : Nat) (h : Handle) (x : Ticket) (o : Output) : Prop :=
  (x.kind = .read ∧ ∃ b0 b1 b2 b3 rest, x.frame = some b0 :: some b1 :: some b2 :: some b3 :: rest ∧
    o = .pstart c [b0, b1, b2, b3] 4 (.reply h) 8 s.cfg.timeoutBitTimes) ∨
  (x.kind = .write ∧ ∃ bs : List Byte, bs.length = 8 ∧ x.frame = bs.map some ∧
    o = .pstart c bs 8 (.frame h) 8 s.cfg.timeoutBitTimes)

/-- The peripheral bits of a transfer just started (spec 44 R126). -/
def startedPer : Periph := ⟨true, true, true, false, false⟩

/-- The peripheral bits after disable-and-reset (spec 44 R127). -/
def resetPer : Periph := ⟨false, false, false, false, false⟩

/-- The peripheral bits `p` with the status sources of the EVCOMP flags `f` set (spec 60 R148). -/
def finishedPer (p : Periph) (f : BitVec 2) : Periph := ⟨p.armed, p.ieRx, p.ieTo, f.getLsbD 0, f.getLsbD 1⟩

/-- A channel after its completion take: the head popped, the peripheral reset, the idle counter activated if `act`
(spec 44 R127, R130). -/
def finishedChannel (x : Channel) (act : Bool) : Channel :=
  ⟨x.init, ⟨x.q.h + 1, x.q.t, x.q.cell⟩, if act then 0x00#8 else x.idle, resetPer, x.tickp⟩

/-- The N0 word of a notification: a status of channel `c` (spec 30 R77, R73). -/
def notifyWord (c : Nat) (st : Status) : Word :=
  0xC0#8 ++ BitVec.ofNat 8 c ++ 0x00#8 ++
    (match st with
      | .pending => 0#8
      | .completedOk => 1#8
      | .crcError => 2#8
      | .timedOut => 3#8)

/-- A channel as CHNEW leaves it (spec 44 R133). -/
def createdChannel (cap : Nat) : Channel := ⟨true, ⟨0, 0, List.replicate cap none⟩, 0xFF#8, resetPer, false⟩

/-- The record of the ticket CHRD allocates for channel `c` (spec 43 R115). -/
def readTicket (p : BitPacking) (c : Nat) (dev : Byte) (reg : BitVec 7) (hid : BitVec 16) : Ticket :=
  ⟨.read, BitVec.ofNat 7 c, dev, reg, 0#32, (buildRead p dev reg).map some ++ List.replicate 4 none,
    List.replicate 8 none, .pending, hid⟩

/-- The record of the ticket CHWR allocates for channel `c` (spec 43 R115). -/
def writeTicket (p : BitPacking) (c : Nat) (dev : Byte) (reg : BitVec 7) (v : Word) (hid : BitVec 16) : Ticket :=
  ⟨.write, BitVec.ofNat 7 c, dev, reg, v, (buildWrite p dev reg v).map some, List.replicate 8 none, .pending, hid⟩

/-- `s` with the ticket slot at position `i` holding `o` (spec 10 R21). -/
def withSlot (s : State) (i : Nat) (o : Option Ticket) : State := { s with tkt := s.tkt.set i o }

/-- `s` with channel `c` being `x` (spec 10 R23). -/
def withChan (s : State) (c : Nat) (x : Channel) : State := { s with ch := s.ch.set c x }

/-- `s` with standalone FIFO `k` being `q` (spec 10 R20). -/
def withFifo (s : State) (k : Nat) (q : Queue 32) : State := { s with fifo := s.fifo.set k q }

/-- `s` with more outputs put out. -/
def withOut (s : State) (os : List Output) : State := { s with out := s.out ++ os }

/-- The 8 bytes that two words carry, the first in bits 31..24 (spec 20 R45). -/
def eightBytes (w1 w2 : Word) : List Byte :=
  [w1.extractLsb' 24 8, w1.extractLsb' 16 8, w1.extractLsb' 8 8, w1.extractLsb' 0 8,
   w2.extractLsb' 24 8, w2.extractLsb' 16 8, w2.extractLsb' 8 8, w2.extractLsb' 0 8]

/-- A flag as a word. -/
def bitWord (b : Bool) : Word := if b then 1#32 else 0#32

/-- The bits of a byte in reverse (spec 42 R104). -/
def rev8 (b : Byte) : Byte :=
  BitVec.ofBool (b.getLsbD 0) ++ BitVec.ofBool (b.getLsbD 1) ++ BitVec.ofBool (b.getLsbD 2) ++ BitVec.ofBool (b.getLsbD 3) ++
    BitVec.ofBool (b.getLsbD 4) ++ BitVec.ofBool (b.getLsbD 5) ++ BitVec.ofBool (b.getLsbD 6) ++ BitVec.ofBool (b.getLsbD 7)

/-- One shift of an MSB-first CRC register with polynomial 0x07. -/
def msbShift (r : Byte) : Byte := if r.getLsbD 7 then (r <<< 1) ^^^ 0x07#8 else r <<< 1

/-- The MSB-first CRC-8 with polynomial 0x07, initial value 0 and no final XOR, a byte at a time. -/
def msbCrc (bs : List Byte) : Byte :=
  bs.foldl (fun r b => msbShift (msbShift (msbShift (msbShift (msbShift (msbShift (msbShift (msbShift (r ^^^ b))))))))) 0x00#8

/-- `n` idle ticks of channel `c`, one after the other (spec 44 R131). -/
def idleTicks (c : Nat) : Nat → State → Op State
  | 0, s => .ok s
  | n + 1, s => do
    let s' ← idleTicks c n s
    s'.idleTick c

/-- The FIFO commands (spec 30 R69). -/
def isFifoCommand (i : Instr) : Bool := decide (0x10 ≤ i.opcode.code.toNat) && decide (i.opcode.code.toNat ≤ 0x1A)

/-- The FIFO commands that mutate the queue they name (spec 41 R83). -/
def mutates : Instr → Bool
  | .fpush _ _ => true
  | .fpushn _ _ => true
  | .fpop _ _ => true
  | .fpopu _ _ => true
  | .fpull _ r _ => r
  | .fpullu _ r _ => r
  | .ffind _ _ => false
  | .fnorm _ => true
  | .fsize _ => false
  | .fcap _ => false
  | .fempty _ => false
  | .crc8 _ _ => false
  | .mkrd _ _ => false
  | .mkwr _ _ _ => false
  | .parse _ _ => false
  | .tstat _ => false
  | .tval _ => false
  | .trel _ => false
  | .chnew _ => false
  | .chrd _ _ _ _ => false
  | .chwr _ _ _ _ _ => false
  | .hret _ => false
  | .chstat _ => false
  | .evcomp _ _ _ _ => false
  | .evtick _ => false

/-- The commands and events whose UNIT is a channel number (spec 30 R69). -/
def isChannelInstr (i : Instr) : Bool :=
  (decide (0x40 ≤ i.opcode.code.toNat) && decide (i.opcode.code.toNat ≤ 0x44)) || decide (0x80 ≤ i.opcode.code.toNat)

end Sys2Proof.Claims

open Sys2Proof Sys2Proof.Machine Sys2Proof.Claims

/-! ## Decode and encode -/

/-- Spec 30 R67 to R74, R81: the words of an instruction, followed by anything, decode to it and leave what follows. -/
def Obligations.DecodeReadsBackEncode : Prop :=
  ∀ (i : Instr) (rest : List Word), i.Encodable → decode (encode i ++ rest) = .instr i rest

/-- Spec 30 R67 to R74, R80: what decodes to an instruction is that instruction's words, bit for bit, and what follows. -/
def Obligations.EncodeReadsBackDecode : Prop :=
  ∀ (ws : List Word) (i : Instr) (rest : List Word), decode ws = .instr i rest → i.Encodable ∧ encode i ++ rest = ws

/-- Spec 30 R74: no header matches two rows. -/
def Obligations.HeaderMatchesOneRow : Prop :=
  ∀ (hdr : Word) (o p : Opcode), hdr &&& o.row.headerMask = o.row.headerMatch → hdr &&& p.row.headerMask = p.row.headerMatch → o = p

/-- Words of the spec's own listings (spec 95) decode to the commands they list, one or more of each family. -/
def Obligations.ListedWordsDecode : Prop :=
  decode [0x10000000#32, 0x00000007#32] = .instr (.fpush 0x00#8 7#32) [] ∧
  decode [0x11000002#32, 0x00000001#32, 0x00000002#32] = .instr (.fpushn 0x00#8 [1#32, 2#32]) [] ∧
  decode [0x14008003#32] = .instr (.fpull 0x00#8 true 3#15) [] ∧
  decode [0x14800002#32] = .instr (.fpull 0x80#8 false 2#15) [] ∧
  decode [0x15008000#32, 0x0000000D#32] = .instr (.fpullu 0x00#8 true 0x0D#32) [] ∧
  decode [0x19800000#32] = .instr (.fcap 0x80#8) [] ∧
  decode [0x20000004#32, 0x50000087#32] = .instr (.crc8 4#16 [0x50000087#32]) [] ∧
  decode [0x2100FF7F#32] = .instr (.mkrd 0xFF#8 0x7F#7) [] ∧
  decode [0x23000000#32, 0x500021AA#32, 0xBBCCDDA9#32] = .instr (.parse 0x500021AA#32 0xBBCCDDA9#32) [] ∧
  decode [0x32000001#32] = .instr (.trel 1#16) [] ∧
  decode [0x41010103#32, 0x00000000#32] = .instr (.chrd 0x01#8 0x01#8 0x03#7 0#32) [] ∧
  decode [0x42000010#32, 0x00001F00#32, 0x0000FFFF#32] = .instr (.chwr 0x00#8 0x00#8 0x10#7 0x1F00#32 0xFFFF#32) [] ∧
  decode [0x80010001#32, 0x50010600#32, 0x00003379#32] = .instr (.evcomp 0x01#8 1#2 0x50010600#32 0x00003379#32) [] ∧
  decode [0x81000000#32] = .instr (.evtick 0x00#8) []

/-! ## Steps -/

/-- Spec 00 R8, 20 R49, 30 R67, R75: the step of the agent that moves runs the instruction at the front of its port, its words
consumed; where the block's own take is next, the step is that take. -/
def Obligations.StepRunsDecodedInstruction : Prop :=
  ∀ (s : State) (i : Instr) (ws : List Word) (r : List Move) (c : Nat), Running s →
    (s.sched = .host :: r → decode s.cmd = .instr i ws → i.isEvent = false →
      step s = exec i { s with sched := r, cmd := ws }) ∧
    (s.sched = .event :: r → decode s.evt = .instr i ws → i.isEvent = true →
      step s = exec i { s with sched := r, evt := ws }) ∧
    (s.sched = .takeComp c :: r → step s = takeCompletion c { s with sched := r }) ∧
    (s.sched = .takeTick c :: r → step s = takeTick c { s with sched := r })

/-- Spec 30 R67: a command whose words have not all arrived is not taken; the host's move changes nothing (that the move itself is
used up is the model's choice: log entry 17). -/
def Obligations.IncompleteCommandWaits : Prop :=
  ∀ (s : State) (o : Opcode) (hdr : Word) (ws : List Word) (r : List Move), Running s → s.sched = .host :: r →
    s.cmd = hdr :: ws → hdrOpc hdr = o.code → o.code.getLsbD 7 = false → ws.length + 1 < o.lengthInWords hdr →
    step s = .next { s with sched := r }

/-- Spec 30 R80: an opcode that no row of the map has, or an opcode above 0x80 on the command port, raises IllegalCommand, and the
fault records the header's own opcode and unit. -/
def Obligations.UnlistedOpcodeFaults : Prop :=
  ∀ (s : State) (hdr : Word) (ws : List Word) (r : List Move), Running s →
    (s.sched = .host :: r → s.cmd = hdr :: ws →
      (hdr.toNat / 2 ^ 24 ≤ 0x0F ∨ (0x1B ≤ hdr.toNat / 2 ^ 24 ∧ hdr.toNat / 2 ^ 24 ≤ 0x1F) ∨
        (0x24 ≤ hdr.toNat / 2 ^ 24 ∧ hdr.toNat / 2 ^ 24 ≤ 0x2F) ∨ (0x33 ≤ hdr.toNat / 2 ^ 24 ∧ hdr.toNat / 2 ^ 24 ≤ 0x3F) ∨
        0x45 ≤ hdr.toNat / 2 ^ 24) →
      step s = .next (faultedWith { s with sched := r } 0x02#8 (hdr.extractLsb' 16 8) (hdr.extractLsb' 24 8))) ∧
    (s.sched = .event :: r → s.evt = hdr :: ws → 0x82 ≤ hdr.toNat / 2 ^ 24 →
      step s = .next (faultedWith { s with sched := r } 0x02#8 (hdr.extractLsb' 16 8) (hdr.extractLsb' 24 8)))

/-- Spec 30 R80: a header of a known opcode whose bits under the row's mask differ from the match raises IllegalCommand (once
the words its length counts have arrived: log entry 9). -/
def Obligations.ReservedHeaderBitFaults : Prop :=
  ∀ (s : State) (o : Opcode) (hdr : Word) (ws : List Word) (r : List Move), Running s → hdrOpc hdr = o.code →
    o.lengthInWords hdr ≤ ws.length + 1 → hdr &&& o.row.headerMask ≠ o.row.headerMatch →
    (o.code.getLsbD 7 = false → s.sched = .host :: r → s.cmd = hdr :: ws →
      step s = .next (faultedWith { s with sched := r } 0x02#8 (hdr.extractLsb' 16 8) o.code)) ∧
    (o.code.getLsbD 7 = true → s.sched = .event :: r → s.evt = hdr :: ws →
      step s = .next (faultedWith { s with sched := r } 0x02#8 (hdr.extractLsb' 16 8) o.code))

/-- Spec 30 R75: a host command word with `OPC[7]` = 1 raises IllegalCommand, whatever follows it, and changes nothing else. -/
def Obligations.EventOpcodeOnCommandPortFaults : Prop :=
  ∀ (s : State) (hdr : Word) (ws : List Word) (r : List Move), Running s → s.sched = .host :: r → s.cmd = hdr :: ws →
    hdr.getLsbD 31 = true →
    ∃ t, step s = .next t ∧ SameBlock (faultedWith s 0x02#8 (hdr.extractLsb' 16 8) (hdr.extractLsb' 24 8)) t

/-- Spec 30 R79: a faulted block outputs the halt word of its fault; no instruction and no step of any agent changes it or puts
anything out. -/
def Obligations.FaultedBlockHalts : Prop :=
  ∀ s : State, s.fault.code ≠ 0x00#8 →
    s.haltWord = some (0xEE#8 ++ s.fault.opc ++ s.fault.unit ++ s.fault.code) ∧
      (∀ i : Instr, exec i s = .next s) ∧ ∃ t, step s = .next t ∧ SameBlock s t

/-- The inference of spec 60 R146 (the spec derives it from R145 and 00 R12): the state after a fault is the state before the step
but for the fault register; no output is put out. -/
def Obligations.FaultsArePrecise : Prop :=
  ∀ s t : State, Running s → step s = .next t → ¬Running t →
    SameBlock (faultedWith s t.fault.code t.fault.unit t.fault.opc) t

/-- Spec 10 R26, 60 R144, R145: a fault that an instruction raises records its opcode, its unit and one of the ten codes. -/
def Obligations.FaultRecordsItsInstruction : Prop :=
  ∀ (i : Instr) (s t : State), Running s → exec i s = .next t → ¬Running t →
    t.fault.opc = i.opcode.code ∧ t.fault.unit = i.unitField ∧ 1 ≤ t.fault.code.toNat ∧ t.fault.code.toNat ≤ 10

/-! ## FIFO commands (spec 41) -/

/-- FPUSH, FPUSHN (spec 41 R84 to R86, R91, R92): the elements are appended, after compaction or growth where the rule says
so, the flag says whether it grew, and nothing else changes; n = 0 changes nothing. What stays in cells outside the live range is
the model's choice (log entry 7). -/
def Obligations.PushAppends : Prop :=
  ∀ (s : State) (k : Nat) (q : Queue 32) (l es : List Word), Running s → FifoAt s k q l →
    (es ≠ [] → Fits s q es.length →
      ∃ q', Appended q q' l es ∧
        exec (.fpushn (fifoUnit k) es) s =
          .next (answered (withFifo s k q') 0#32 [bitWord (decide (q.room es.length = .growth))]) ∧
        ∀ e, es = [e] → exec (.fpush (fifoUnit k) e) s =
          .next (answered (withFifo s k q') 0#32 [bitWord (decide (q.room es.length = .growth))])) ∧
    exec (.fpushn (fifoUnit k) []) s = .next (answered s 0#32 [0#32])

/-- Spec 41 R85: a growth past MEM_LIMIT raises AllocationFailure before any change. -/
def Obligations.PushPastLimitFaults : Prop :=
  ∀ (s : State) (k : Nat) (q : Queue 32) (l es : List Word), Running s → FifoAt s k q l → es ≠ [] → ¬Fits s q es.length →
    exec (.fpushn (fifoUnit k) es) s = .next (faultedWith s 0x01#8 (fifoUnit k) 0x11#8) ∧
    ∀ e, es = [e] → exec (.fpush (fifoUnit k) e) s = .next (faultedWith s 0x01#8 (fifoUnit k) 0x10#8)

/-- The inference of spec 41 R87 (the spec derives it from R86): if size + n passes the capacity, `place` takes the growth branch
and returns 1 (where the memory limit lets it; else it is the allocation fault of R85). -/
def Obligations.PushPastCapacityReallocates : Prop :=
  ∀ (w : Nat) (g : Config) (q : Queue w) (l m : List (BitVec w)), q.Holds l → q.cap < q.size + m.length →
    (q.capAfter m.length ≤ g.memLimit →
      ∃ q', q.place g m = .ok (q', true) ∧ q'.cap = q.cap + max m.length (q.cap / 5) ∧ q'.Holds (l ++ m)) ∧
    (g.memLimit < q.capAfter m.length → q.place g m = .error (.raised .allocationFailure))

/-- The inference of spec 41 R90 (the spec derives it from R84 to R86): after `compact`, `grow` or `place` of a list the live list
is the old one followed by that list. -/
def Obligations.QueueOperationsKeepOrder : Prop :=
  ∀ (w : Nat) (g : Config) (q q' : Queue w) (l m : List (BitVec w)) (k : Nat) (b : Bool), q.Holds l →
    (q.compact = .ok q' → q'.Holds l) ∧ (q.grow g k = .ok q' → q'.Holds l) ∧ (q.place g m = .ok (q', b) → q'.Holds (l ++ m))

/-- FPOP (spec 41 R88, R93): the first n elements go, or FAIL and nothing changes. -/
def Obligations.FpopRemovesPrefix : Prop :=
  ∀ (s : State) (k : Nat) (q : Queue 32) (l : List Word) (n : BitVec 16), Running s → FifoAt s k q l →
    (n.toNat ≤ l.length → ({ q with h := q.h + n.toNat } : Queue 32).Holds (l.drop n.toNat) ∧
      exec (.fpop (fifoUnit k) n) s =
        .next (answered (withFifo s k { q with h := q.h + n.toNat }) 0#32 [])) ∧
    (l.length < n.toNat → exec (.fpop (fifoUnit k) n) s = .next (answered s 1#32 []))

/-- FPOPU (spec 41 R94): everything through the first terminator goes, or FAIL and nothing changes. -/
def Obligations.FpopuRemovesThroughTerminator : Prop :=
  ∀ (s : State) (k : Nat) (q : Queue 32) (l : List Word) (e : Word), Running s → FifoAt s k q l →
    (∀ a b, l = a ++ e :: b → e ∉ a → ({ q with h := q.h + (a.length + 1) } : Queue 32).Holds b ∧
      exec (.fpopu (fifoUnit k) e) s =
        .next (answered (withFifo s k { q with h := q.h + (a.length + 1) }) 0#32 [])) ∧
    (e ∉ l → exec (.fpopu (fifoUnit k) e) s = .next (answered s 1#32 []))

/-- FPULL (spec 41 R95): the first n elements are answered and removed if R = 1, or FAIL; on a channel's queue with R = 0 the
handles are answered zero-extended and nothing changes. -/
def Obligations.FpullCopiesPrefix : Prop :=
  ∀ (s : State) (n : BitVec 15), Running s →
    (∀ (k : Nat) (q : Queue 32) (l : List Word) (r : Bool), FifoAt s k q l →
      (n.toNat ≤ l.length → exec (.fpull (fifoUnit k) r n) s =
        .next (answered (if r then withFifo s k { q with h := q.h + n.toNat } else s) 0#32 (l.take n.toNat))) ∧
      (l.length < n.toNat → exec (.fpull (fifoUnit k) r n) s = .next (answered s 1#32 []))) ∧
    (∀ (c : Nat) (x : Channel) (l : List Handle), QueueAt s c x l →
      (n.toNat ≤ l.length → exec (.fpull (queueUnit c) false n) s =
        .next (answered s 0#32 ((l.take n.toNat).map (fun h => 0#16 ++ h)))) ∧
      (l.length < n.toNat → exec (.fpull (queueUnit c) false n) s = .next (answered s 1#32 [])))

/-- FPULLU (spec 41 R96): the count and the prefix through the first terminator are answered, and removed if R = 1, or FAIL; on
a channel's queue with R = 0 the terminator is a zero-extended handle and nothing changes. -/
def Obligations.FpulluCopiesThroughTerminator : Prop :=
  ∀ s : State, Running s →
    (∀ (k : Nat) (q : Queue 32) (l : List Word) (r : Bool) (e : Word), FifoAt s k q l →
      (∀ a b, l = a ++ e :: b → e ∉ a → exec (.fpullu (fifoUnit k) r e) s =
        .next (answered (if r then withFifo s k { q with h := q.h + (a.length + 1) } else s) 0#32
          (BitVec.ofNat 32 (a.length + 1) :: (a ++ [e])))) ∧
      (e ∉ l → exec (.fpullu (fifoUnit k) r e) s = .next (answered s 1#32 []))) ∧
    (∀ (c : Nat) (x : Channel) (l : List Handle) (e : Handle), QueueAt s c x l →
      (∀ a b, l = a ++ e :: b → e ∉ a → exec (.fpullu (queueUnit c) false (0#16 ++ e)) s =
        .next (answered s 0#32 (BitVec.ofNat 32 (a.length + 1) :: (a ++ [e]).map (fun h => 0#16 ++ h)))) ∧
      (e ∉ l → exec (.fpullu (queueUnit c) false (0#16 ++ e)) s = .next (answered s 1#32 [])))

/-- FFIND (spec 41 R89, R97): the least position that holds the element, or the size; nothing else changes. -/
def Obligations.FfindAnswersLeastPosition : Prop :=
  ∀ s : State, Running s →
    (∀ (k : Nat) (q : Queue 32) (l : List Word) (e : Word), FifoAt s k q l →
      (∀ a b, l = a ++ e :: b → e ∉ a →
        exec (.ffind (fifoUnit k) e) s = .next (answered s 0#32 [BitVec.ofNat 32 a.length])) ∧
      (e ∉ l → exec (.ffind (fifoUnit k) e) s = .next (answered s 0#32 [BitVec.ofNat 32 l.length]))) ∧
    (∀ (c : Nat) (x : Channel) (l : List Handle) (e : Handle), QueueAt s c x l →
      (∀ a b, l = a ++ e :: b → e ∉ a →
        exec (.ffind (queueUnit c) (0#16 ++ e)) s = .next (answered s 0#32 [BitVec.ofNat 32 a.length])) ∧
      (e ∉ l → exec (.ffind (queueUnit c) (0#16 ++ e)) s = .next (answered s 0#32 [BitVec.ofNat 32 l.length])))

/-- FNORM (spec 41 R98): nothing if already compacted; compaction below 80%; else growth by cap div 5, or AllocationFailure. What
stays in cells outside the live range is the model's choice (log entry 7). -/
def Obligations.FnormCompactsOrGrows : Prop :=
  ∀ (s : State) (k : Nat) (q : Queue 32) (l : List Word), Running s → FifoAt s k q l →
    (q.h = 0 → exec (.fnorm (fifoUnit k)) s = .next (answered s 0#32 [0#32])) ∧
    (q.h ≠ 0 → 5 * l.length < 4 * q.cap →
      ∃ q', MovedToStart q' l q.cap ∧ WrittenOnly q q' 0 l.length ∧
        exec (.fnorm (fifoUnit k)) s = .next (answered (withFifo s k q') 0#32 [0#32])) ∧
    (q.h ≠ 0 → 4 * q.cap ≤ 5 * l.length → q.cap + q.cap / 5 ≤ s.cfg.memLimit →
      ∃ q', MovedToStart q' l (q.cap + q.cap / 5) ∧ RestFree q' ∧
        exec (.fnorm (fifoUnit k)) s = .next (answered (withFifo s k q') 0#32 [1#32])) ∧
    (q.h ≠ 0 → 4 * q.cap ≤ 5 * l.length → s.cfg.memLimit < q.cap + q.cap / 5 →
      exec (.fnorm (fifoUnit k)) s = .next (faultedWith s 0x01#8 (fifoUnit k) 0x17#8))

/-- FSIZE, FCAP, FEMPTY (spec 41 R99 to R101) on a standalone FIFO and on a channel's queue: the answer, and nothing else. -/
def Obligations.SizeCapEmptyAnswer : Prop :=
  ∀ s : State, Running s →
    (∀ (k : Nat) (q : Queue 32) (l : List Word), FifoAt s k q l →
      exec (.fsize (fifoUnit k)) s = .next (answered s 0#32 [BitVec.ofNat 32 l.length]) ∧
      exec (.fcap (fifoUnit k)) s = .next (answered s 0#32 [BitVec.ofNat 32 q.cell.length]) ∧
      exec (.fempty (fifoUnit k)) s = .next (answered s 0#32 [bitWord l.isEmpty])) ∧
    (∀ (c : Nat) (x : Channel) (l : List Handle), QueueAt s c x l →
      exec (.fsize (queueUnit c)) s = .next (answered s 0#32 [BitVec.ofNat 32 l.length]) ∧
      exec (.fcap (queueUnit c)) s = .next (answered s 0#32 [BitVec.ofNat 32 x.q.cell.length]) ∧
      exec (.fempty (queueUnit c)) s = .next (answered s 0#32 [bitWord l.isEmpty]))

/-- Spec 30 R69, R71, 41 R83: a FIFO command on a unit that names no queue, or that mutates a channel's queue, raises BadUnit;
an element operand of a channel's queue with a bit of 31:16 set raises IllegalCommand, for FPULLU by the model's reading of R83
(log entry 13). -/
def Obligations.FifoUnitAndElementFaults : Prop :=
  ∀ (i : Instr) (s : State), Running s → s.TablesSized → isFifoCommand i = true →
    (i.unitField.toNat < 128 → s.cfg.numFifos ≤ i.unitField.toNat →
      exec i s = .next (faultedWith s 0x03#8 i.unitField i.opcode.code)) ∧
    (128 ≤ i.unitField.toNat →
      (s.cfg.numChannels ≤ i.unitField.toNat - 128 ∨ (s.chan (i.unitField.toNat - 128)).init = false ∨ mutates i = true) →
      exec i s = .next (faultedWith s 0x03#8 i.unitField i.opcode.code)) ∧
    (128 ≤ i.unitField.toNat → i.unitField.toNat - 128 < s.cfg.numChannels → (s.chan (i.unitField.toNat - 128)).init = true →
      ∀ e : Word, e.extractLsb' 16 16 ≠ 0#16 → (i = .ffind i.unitField e ∨ i = .fpullu i.unitField false e) →
        exec i s = .next (faultedWith s 0x02#8 i.unitField i.opcode.code))

/-- The frame of the FIFO commands (spec 10 R30, 20 R48): in every state, one that does not fault puts out one response and
changes at most the queue it names; a channel's queue, every ticket and every other element stay as they were. -/
def Obligations.FifoCommandsFrame : Prop :=
  ∀ (i : Instr) (s t : State), isFifoCommand i = true → Running s → exec i s = .next t → Running t →
    { t with fifo := s.fifo, out := s.out } = s ∧
    (∀ j, (128 ≤ i.unitField.toNat ∨ j ≠ i.unitField.toNat) → t.fifo[j]? = s.fifo[j]?) ∧
    ∃ ws, t.out = s.out ++ [.response ws]

/-- Spec 10 R19: no step makes the capacity of a queue smaller (the queue of a channel lives from CHNEW, spec 44 R133). -/
def Obligations.CapacityNeverShrinks : Prop :=
  ∀ s t : State, step s = .next t →
    (∀ (k : Nat) (q : Queue 32), s.fifo[k]? = some q → ∃ q' : Queue 32, t.fifo[k]? = some q' ∧ q.cap ≤ q'.cap) ∧
    (∀ (c : Nat) (x : Channel), s.ch[c]? = some x → x.init = true →
      ∃ x' : Channel, t.ch[c]? = some x' ∧ x.q.cap ≤ x'.q.cap)

/-! ## Codec (spec 42) -/

/-- The inference of spec 42 R104 (the spec derives it from R103 by executing it): `crc8` is the MSB-first CRC over the bit-
reversed bytes but the last, with the check value 0x04 where the plain MSB-first CRC gives 0xF4. -/
def Obligations.Crc8IsMsbCrcOfReversedBytes : Prop :=
  (∀ (bs : List Byte) (n : Nat), crc8 bs n = msbCrc ((bs.take (n - 1)).map rev8)) ∧
  crc8 [0x31#8, 0x32#8, 0x33#8, 0x34#8, 0x35#8, 0x36#8, 0x37#8, 0x38#8, 0x39#8, 0x00#8] 10 = 0x04#8 ∧
  msbCrc [0x31#8, 0x32#8, 0x33#8, 0x34#8, 0x35#8, 0x36#8, 0x37#8, 0x38#8, 0x39#8] = 0xF4#8

/-- CRC8 (spec 42 R111): the checksum of the bytes carried, the last excluded; an illegal count or padding is IllegalCommand. -/
def Obligations.Crc8Answers : Prop :=
  ∀ (s : State) (n : BitVec 16) (ws : List Word), Running s →
    (crc8OperandsLegal n ws →
      exec (.crc8 n ws) s = .next (answered s 0#32 [0#24 ++ crc8 ((unpackWords ws).take n.toNat) n.toNat])) ∧
    (¬crc8OperandsLegal n ws → exec (.crc8 n ws) s = .next (faultedWith s 0x02#8 0x00#8 0x20#8))

/-- MKRD, MKWR (spec 42 R106 to R108, R112, R113): the datagrams in wire order, under both bit packings; nothing else changes. -/
def Obligations.DatagramsBuilt : Prop :=
  ∀ (s : State) (dev : Byte) (reg : BitVec 7) (v : Word), Running s →
    (s.cfg.bitPacking = .msbFirst →
      exec (.mkrd dev reg) s = .next (answered s 0#32
        [0x50#8 ++ dev ++ (reg ++ 0#1) ++ crc8 [0x50#8, dev, reg ++ 0#1, 0x00#8] 4]) ∧
      exec (.mkwr dev reg v) s = .next (answered s 0#32
        [0x50#8 ++ dev ++ (reg ++ 1#1) ++ v.extractLsb' 24 8,
         v.extractLsb' 0 24 ++ crc8 (0x50#8 :: dev :: (reg ++ 1#1) :: (eightBytes v 0#32).take 5) 8])) ∧
    (s.cfg.bitPacking = .lsbFirst →
      exec (.mkrd dev reg) s = .next (answered s 0#32
        [0x05#8 ++ dev ++ (0#1 ++ reg) ++ crc8 [0x05#8, dev, 0#1 ++ reg, 0x00#8] 4]) ∧
      exec (.mkwr dev reg v) s = .next (answered s 0#32
        [0x05#8 ++ dev ++ (1#1 ++ reg) ++ v.extractLsb' 24 8,
         v.extractLsb' 0 24 ++ crc8 (0x05#8 :: dev :: (1#1 ++ reg) :: (eightBytes v 0#32).take 5) 8]))

/-- PARSE (spec 42 R109, R114): the checksum of bytes 0..6 against byte 7, and bytes 3..6 as the value; nothing else changes. -/
def Obligations.ParseAnswers : Prop :=
  ∀ (s : State) (w1 w2 : Word), Running s →
    exec (.parse w1 w2) s = .next (answered s 0#32
      [bitWord (decide (crc8 (eightBytes w1 w2) 8 = w2.extractLsb' 0 8)), w1.extractLsb' 0 8 ++ w2.extractLsb' 8 24])

/-- The inference of spec 42 R110 (the spec derives it from R103, R108 and R109): what `build_write` builds parses back to its
value; a good frame with byte 7 changed, or with one bit of one of bytes 0..6 changed, parses with ok = 0. -/
def Obligations.FramesParseBackAndErrorsShow : Prop :=
  (∀ (p : BitPacking) (dev : Byte) (reg : BitVec 7) (v : Word), parse (buildWrite p dev reg v) = (true, v)) ∧
  (∀ r : List Byte, r.length = 8 → (parse r).1 = true →
    (∀ b : Byte, b ≠ r.getD 7 0#8 → (parse (r.set 7 b)).1 = false) ∧
    (∀ i < 7, ∀ j < 8, (parse (r.set i (r.getD i 0#8 ^^^ (1#8 <<< j)))).1 = false))

/-! ## Tickets (spec 43) -/

/-- TSTAT (spec 43 R122, 30 R73): the status code of a valid handle, and nothing else changes; BadHandle for any other. -/
def Obligations.TstatAnswersStatus : Prop :=
  ∀ (s : State) (h : Handle), Running s →
    (∀ x, TicketAt s h x →
      (x.status = .pending → exec (.tstat h) s = .next (answered s 0#32 [0#32])) ∧
      (x.status = .completedOk → exec (.tstat h) s = .next (answered s 0#32 [1#32])) ∧
      (x.status = .crcError → exec (.tstat h) s = .next (answered s 0#32 [2#32])) ∧
      (x.status = .timedOut → exec (.tstat h) s = .next (answered s 0#32 [3#32]))) ∧
    (InvalidHandle s h → exec (.tstat h) s = .next (faultedWith s 0x04#8 0x00#8 0x30#8))

/-- TVAL (spec 43 R123): bytes 3..6 of the reply of a Read that is CompletedOk or CrcError, and nothing else changes; BadHandle for
a handle that is not valid, ValueUnavailable for a write, Pending or TimedOut ticket. -/
def Obligations.TvalAnswersReply : Prop :=
  ∀ (s : State) (h : Handle), Running s →
    (∀ x, TicketAt s h x →
      (∀ w1 w2 : Word, x.kind = .read → (x.status = .completedOk ∨ x.status = .crcError) →
        x.reply = (eightBytes w1 w2).map some →
        exec (.tval h) s = .next (answered s 0#32 [w1.extractLsb' 0 8 ++ w2.extractLsb' 8 24])) ∧
      (x.kind = .write ∨ x.status = .pending ∨ x.status = .timedOut →
        exec (.tval h) s = .next (faultedWith s 0x08#8 0x00#8 0x31#8))) ∧
    (InvalidHandle s h → exec (.tval h) s = .next (faultedWith s 0x04#8 0x00#8 0x31#8))

/-- TREL (spec 43 R120, R124): the slot of a terminal ticket is freed, and nothing else changes; BadHandle for a handle that is not
valid, ReleasePending for a Pending ticket. -/
def Obligations.TrelFreesTheSlot : Prop :=
  ∀ (s : State) (h : Handle), Running s →
    (∀ x, TicketAt s h x →
      (x.status ≠ .pending → exec (.trel h) s = .next (answered (withSlot s (h.toNat - 1) none) 0#32 [])) ∧
      (x.status = .pending → exec (.trel h) s = .next (faultedWith s 0x05#8 0x00#8 0x32#8))) ∧
    (InvalidHandle s h → exec (.trel h) s = .next (faultedWith s 0x04#8 0x00#8 0x32#8))

/-! ## Channels (spec 44) -/

/-- CHNEW (spec 44 R133): the channel as the rule writes it, once; BadUnit a second time or out of range. -/
def Obligations.ChnewCreatesTheChannel : Prop :=
  ∀ (s : State) (c : BitVec 8), Running s →
    (∀ x, c.toNat < s.cfg.numChannels → s.ch[c.toNat]? = some x → x.init = false →
      exec (.chnew c) s = .next (answered (withChan s c.toNat (createdChannel s.cfg.initCapacity)) 0#32 [])) ∧
    (∀ x, c.toNat < s.cfg.numChannels → s.ch[c.toNat]? = some x → x.init = true →
      exec (.chnew c) s = .next (faultedWith s 0x03#8 c 0x40#8)) ∧
    (s.cfg.numChannels ≤ c.toNat → exec (.chnew c) s = .next (faultedWith s 0x03#8 c 0x40#8))

/-- CHRD, CHWR on a channel whose queue is empty (spec 43 R115, 44 R125, R126, R134, R135): the least free slot gets the ticket,
the ticket is queued, its transfer starts in this step, and nothing else changes. -/
def Obligations.SubmitOnEmptyQueueStarts : Prop :=
  ∀ (s : State) (c : BitVec 8) (x : Channel) (i : Nat) (dev : Byte) (reg : BitVec 7) (v hw : Word), Running s →
    QueueAt s c.toNat x [] → LeastFree s i → hw.extractLsb' 16 16 = 0#16 → x.per.armed = false → Fits s x.q 1 →
    ∃ q', Appended x.q q' [] [BitVec.ofNat 16 (i + 1)] ∧
      exec (.chrd c dev reg hw) s = .next (answered
        (withOut
          (withChan
            (withSlot s i (some (readTicket s.cfg.bitPacking c.toNat dev reg (hw.extractLsb' 0 16))))
            c.toNat { x with q := q', per := startedPer })
          [.pstart c.toNat (buildRead s.cfg.bitPacking dev reg) 4 (.reply (BitVec.ofNat 16 (i + 1))) 8
            s.cfg.timeoutBitTimes])
        0#32 [BitVec.ofNat 32 (i + 1)]) ∧
      exec (.chwr c dev reg v hw) s = .next (answered
        (withOut
          (withChan
            (withSlot s i (some (writeTicket s.cfg.bitPacking c.toNat dev reg v (hw.extractLsb' 0 16))))
            c.toNat { x with q := q', per := startedPer })
          [.pstart c.toNat (buildWrite s.cfg.bitPacking dev reg v) 8 (.frame (BitVec.ofNat 16 (i + 1))) 8
            s.cfg.timeoutBitTimes])
        0#32 [BitVec.ofNat 32 (i + 1)])

/-- CHRD, CHWR on a channel with a queued ticket (spec 44 R125, R134, R135): the new ticket waits behind the others, no transfer
starts, and nothing else changes. -/
def Obligations.SubmitOnBusyChannelQueues : Prop :=
  ∀ (s : State) (c : BitVec 8) (x : Channel) (l : List Handle) (i : Nat) (dev : Byte) (reg : BitVec 7) (v hw : Word), Running s →
    QueueAt s c.toNat x l → l ≠ [] → LeastFree s i → hw.extractLsb' 16 16 = 0#16 → Fits s x.q 1 →
    ∃ q', Appended x.q q' l [BitVec.ofNat 16 (i + 1)] ∧
      exec (.chrd c dev reg hw) s = .next (answered
        (withChan
          (withSlot s i (some (readTicket s.cfg.bitPacking c.toNat dev reg (hw.extractLsb' 0 16))))
          c.toNat { x with q := q' })
        0#32 [BitVec.ofNat 32 (i + 1)]) ∧
      exec (.chwr c dev reg v hw) s = .next (answered
        (withChan
          (withSlot s i (some (writeTicket s.cfg.bitPacking c.toNat dev reg v (hw.extractLsb' 0 16))))
          c.toNat { x with q := q' })
        0#32 [BitVec.ofNat 32 (i + 1)])

/-- CHRD, CHWR faults, in the rule's order (spec 44 R134, R135): no such channel or one not created, a reserved bit of the
handler id word, no free slot, a queue that cannot grow. -/
def Obligations.SubmitFaults : Prop :=
  ∀ (s : State) (c : BitVec 8) (dev : Byte) (reg : BitVec 7) (v hw : Word), Running s →
    (s.cfg.numChannels ≤ c.toNat ∨ (c.toNat < s.ch.length ∧ (s.chan c.toNat).init = false) →
      exec (.chrd c dev reg hw) s = .next (faultedWith s 0x03#8 c 0x41#8) ∧
      exec (.chwr c dev reg v hw) s = .next (faultedWith s 0x03#8 c 0x42#8)) ∧
    (∀ x l, QueueAt s c.toNat x l →
      (hw.extractLsb' 16 16 ≠ 0#16 →
        exec (.chrd c dev reg hw) s = .next (faultedWith s 0x02#8 c 0x41#8) ∧
        exec (.chwr c dev reg v hw) s = .next (faultedWith s 0x02#8 c 0x42#8)) ∧
      (hw.extractLsb' 16 16 = 0#16 → ((∀ o ∈ s.tkt, o ≠ none) ∨ (¬Fits s x.q 1)) →
        exec (.chrd c dev reg hw) s = .next (faultedWith s 0x01#8 c 0x41#8) ∧
        exec (.chwr c dev reg v hw) s = .next (faultedWith s 0x01#8 c 0x42#8)))

/-- HRET (spec 44 R130, R136, 60 R155): BadUnit out of range, HandlerProtocol where no handler of the channel is active; else the
handler phase ends, and a channel with a queued ticket and no transfer gets its idle counter activated (DEFERRED) or its transfer
started (IMMEDIATE), any other channel is left as it is. -/
def Obligations.HretEndsTheHandler : Prop :=
  ∀ (s : State) (c : BitVec 8), Running s →
    (s.cfg.numChannels ≤ c.toNat → exec (.hret c) s = .next (faultedWith s 0x03#8 c 0x43#8)) ∧
    (c.toNat < s.cfg.numChannels → c.toNat < s.ch.length → (∀ c7 h, s.hphase = .active c7 h → c7.toNat ≠ c.toNat) →
      exec (.hret c) s = .next (faultedWith s 0x09#8 c 0x43#8)) ∧
    (∀ c7 h x l, s.hphase = .active c7 h → c7.toNat = c.toNat → QueueAt s c.toNat x l →
      (l = [] ∨ x.per.armed = true → exec (.hret c) s = .next (answered { s with hphase := .none } 0#32 [])) ∧
      (l ≠ [] → x.per.armed = false → s.cfg.nextStart = .deferred → exec (.hret c) s =
        .next (answered (withChan { s with hphase := .none } c.toNat { x with idle := 0x00#8 }) 0#32 [])) ∧
      (∀ g m y o, l = g :: m → x.per.armed = false → s.cfg.nextStart = .immediate → TicketAt s g y → Starts s c.toNat g y o →
        exec (.hret c) s = .next (answered
          (withOut (withChan { s with hphase := .none } c.toNat { x with per := startedPer }) [o]) 0#32 [])))

/-- CHSTAT (spec 44 R137): the three words; nothing else changes; BadUnit out of range. It answers for a channel not yet
created too. -/
def Obligations.ChstatAnswers : Prop :=
  ∀ (s : State) (c : BitVec 8), Running s →
    (∀ x l, c.toNat < s.cfg.numChannels → s.ch[c.toNat]? = some x → x.q.Holds l →
      (∀ c7 h, s.hphase = .active c7 h → c7.toNat = c.toNat → exec (.chstat c) s = .next (answered s 0#32
        [BitVec.ofBool x.init ++ BitVec.ofBool x.per.armed ++ BitVec.ofBool x.per.ieRx ++ BitVec.ofBool x.per.ieTo ++
          BitVec.ofBool x.per.stRx ++ BitVec.ofBool x.per.stTo ++ BitVec.ofBool x.tickp ++ 1#1 ++ 0#16 ++ x.idle,
         BitVec.ofNat 16 l.length ++ BitVec.ofNat 16 x.q.cell.length, l.headD 0#16 ++ h])) ∧
      ((∀ c7 h, s.hphase = .active c7 h → c7.toNat ≠ c.toNat) → exec (.chstat c) s = .next (answered s 0#32
        [BitVec.ofBool x.init ++ BitVec.ofBool x.per.armed ++ BitVec.ofBool x.per.ieRx ++ BitVec.ofBool x.per.ieTo ++
          BitVec.ofBool x.per.stRx ++ BitVec.ofBool x.per.stTo ++ BitVec.ofBool x.tickp ++ 0#1 ++ 0#16 ++ x.idle,
         BitVec.ofNat 16 l.length ++ BitVec.ofNat 16 x.q.cell.length, l.headD 0#16 ++ 0#16]))) ∧
    (s.cfg.numChannels ≤ c.toNat → exec (.chstat c) s = .next (faultedWith s 0x03#8 c 0x44#8))

/-- The element HPHASE (spec 10 R31) and what CHSTAT shows of it: None is the word 0; Active(c, h) has 1 in bit 0, c in bits 7..1,
0 in bits 15..8, h in bits 31..16. CHSTAT of a channel puts bit 0 in bit 24 of W0 and bits 31..16 in the low half of W2 where bits
7..1 are that channel, and 0 in both elsewhere (how R31 and 44 R137 fit together: log entry 22). -/
def Obligations.ChstatShowsHphase : Prop :=
  HPhase.none.word = 0#32 ∧
  (∀ (c7 : BitVec 7) (h : Handle), (HPhase.active c7 h).word.extractLsb' 0 1 = 1#1 ∧ (HPhase.active c7 h).word.extractLsb' 1 7 = c7 ∧
    (HPhase.active c7 h).word.extractLsb' 8 8 = 0#8 ∧ (HPhase.active c7 h).word.extractLsb' 16 16 = h) ∧
  ∀ (s : State) (c : BitVec 8) (x : Channel) (l : List Handle), Running s → c.toNat < s.cfg.numChannels →
    s.ch[c.toNat]? = some x → x.q.Holds l →
    ∃ w0 w1 w2 : Word, exec (.chstat c) s = .next (answered s 0#32 [w0, w1, w2]) ∧
      ((s.hphase.word.extractLsb' 1 7).toNat = c.toNat →
        w0.extractLsb' 24 1 = s.hphase.word.extractLsb' 0 1 ∧ w2.extractLsb' 0 16 = s.hphase.word.extractLsb' 16 16) ∧
      ((s.hphase.word.extractLsb' 1 7).toNat ≠ c.toNat → w0.extractLsb' 24 1 = 0#1 ∧ w2.extractLsb' 0 16 = 0#16)

/-- How CHSTAT shows a ticket status (spec 10 R30), by the inference of 10 R35 point 2: in a state that meets the invariants the
head it answers, bits 31..16 of W2, is the handle of a Pending ticket of the channel, or 0 where no ticket of the channel is
Pending (no status bits are answered: log entry 21). -/
def Obligations.ChstatHeadIsPending : Prop :=
  ∀ (s : State) (c : BitVec 8), s.Inv → Running s → c.toNat < s.cfg.numChannels →
    ∃ w0 w1 w2 : Word, exec (.chstat c) s = .next (answered s 0#32 [w0, w1, w2]) ∧
      (w2.extractLsb' 16 16 ≠ 0#16 →
        ∃ x, TicketAt s (w2.extractLsb' 16 16) x ∧ x.status = .pending ∧ x.chan.toNat = c.toNat) ∧
      (w2.extractLsb' 16 16 = 0#16 → ∀ h x, TicketAt s h x → x.status = .pending → x.chan.toNat ≠ c.toNat)

/-! ## Events and takes (spec 60) -/

/-- EVCOMP (spec 60 R148): the 8 bytes go to the inbound buffer of the head ticket, its reply for a Read and its frame for a
Write, the status flags are set, and nothing else changes; no response. -/
def Obligations.EvcompDelivers : Prop :=
  ∀ (s : State) (c : BitVec 8) (f : BitVec 2) (w1 w2 : Word) (x : Channel) (h : Handle) (l : List Handle) (y : Ticket), Running s →
    c.toNat < s.cfg.numChannels → s.ch[c.toNat]? = some x → x.q.Holds (h :: l) → TicketAt s h y → f ≠ 0#2 →
    x.per.armed = true → x.per.stRx = false → x.per.stTo = false →
    (y.kind = .read → y.reply.length = 8 → exec (.evcomp c f w1 w2) s = .next
      (withChan (withSlot s (h.toNat - 1) (some { y with reply := (eightBytes w1 w2).map some }))
        c.toNat { x with per := finishedPer x.per f })) ∧
    (y.kind = .write → y.frame.length = 8 → exec (.evcomp c f w1 w2) s = .next
      (withChan (withSlot s (h.toNat - 1) (some { y with frame := (eightBytes w1 w2).map some }))
        c.toNat { x with per := finishedPer x.per f }))

/-- EVCOMP faults (spec 60 R148): no such channel; flags 0b00; a channel not armed or already finished. -/
def Obligations.EvcompFaults : Prop :=
  ∀ (s : State) (c : BitVec 8) (f : BitVec 2) (w1 w2 : Word), Running s →
    (s.cfg.numChannels ≤ c.toNat → exec (.evcomp c f w1 w2) s = .next (faultedWith s 0x03#8 c 0x80#8)) ∧
    (∀ x, c.toNat < s.cfg.numChannels → s.ch[c.toNat]? = some x →
      (f = 0#2 → exec (.evcomp c f w1 w2) s = .next (faultedWith s 0x02#8 c 0x80#8)) ∧
      (f ≠ 0#2 → (x.per.armed = false ∨ x.per.stRx = true ∨ x.per.stTo = true) →
        exec (.evcomp c f w1 w2) s = .next (faultedWith s 0x06#8 c 0x80#8)))

/-- EVTICK (spec 60 R149): the tick latch of the channel is set, whether or not one was pending, and nothing else changes;
BadUnit out of range. -/
def Obligations.EvtickSetsTheLatch : Prop :=
  ∀ (s : State) (c : BitVec 8), Running s →
    (∀ x, c.toNat < s.cfg.numChannels → s.ch[c.toNat]? = some x →
      exec (.evtick c) s = .next (withChan s c.toNat { x with tickp := true })) ∧
    (s.cfg.numChannels ≤ c.toNat → exec (.evtick c) s = .next (faultedWith s 0x03#8 c 0x81#8))

/-- The completion take (spec 44 R127 to R130, 60 R151, R154): the head is popped, the peripheral reset, the ticket classified
(a timeout wins, else the checksum), and then by the handler id: NONE leaves the ticket, DEFAULT_RELEASE frees it, and then, where
tickets are left, the idle counter is activated (DEFERRED) or the next transfer started in the same step (IMMEDIATE); a host
handler is entered, with the next transfer neither started nor scheduled. -/
def Obligations.CompletionTakeFinishesTheTransfer : Prop :=
  ∀ (s : State) (c : Nat) (x : Channel) (h : Handle) (l : List Handle) (y : Ticket) (bs : List Byte) (st : Status),
    Running s → s.hphase = .none → QueueAt s c x (h :: l) → TicketAt s h y →
    x.per.armed = true → x.per.ieRx = true → x.per.ieTo = true → (x.per.stRx = true ∨ x.per.stTo = true) →
    bs.length = 8 → ((y.kind = .read → y.reply = bs.map some) ∧ (y.kind = .write → y.frame = bs.map some)) →
    (x.per.stTo = true → st = .timedOut) →
    (x.per.stTo = false → crc8 bs 8 = bs.getD 7 0#8 → st = .completedOk) →
    (x.per.stTo = false → crc8 bs 8 ≠ bs.getD 7 0#8 → st = .crcError) →
    (∀ slot : Option Ticket,
      ((y.hid = 0x0000#16 ∧ slot = some { y with status := st }) ∨ (y.hid = 0xFFFF#16 ∧ slot = none)) →
      (l = [] ∨ s.cfg.nextStart = .deferred → takeCompletion c s = .next (withOut
        (withChan (withSlot s (h.toNat - 1) slot) c (finishedChannel x (decide (l ≠ []))))
        [.preset c])) ∧
      (∀ g m z o, l = g :: m → s.cfg.nextStart = .immediate → h ≠ g → TicketAt s g z → Starts s c g z o →
        takeCompletion c s = .next (withOut
          (withChan (withSlot s (h.toNat - 1) slot) c { finishedChannel x false with per := startedPer })
          [.preset c, o]))) ∧
    (y.hid ≠ 0x0000#16 → y.hid ≠ 0xFFFF#16 → takeCompletion c s = .next (withOut
      (withChan (withSlot { s with hphase := .active (BitVec.ofNat 7 c) h } (h.toNat - 1) (some { y with status := st }))
        c (finishedChannel x false))
      [.preset c, .notify (notifyWord c st) (h ++ y.hid)]))

/-- The tick take (spec 44 R131, 60 R152): the latch is cleared; on a channel not created or with an inactive counter that is all;
an active counter counts up to the threshold, and past it the head's transfer starts and the counter is deactivated, or the fault
is DoubleStart on an armed channel, InvariantBroken on an empty queue. -/
def Obligations.TickTakeCountsOrStarts : Prop :=
  ∀ (s : State) (c : Nat) (x : Channel), Running s → s.hphase = .none → s.ch[c]? = some x → x.tickp = true →
    (x.init = false ∨ x.idle = 0xFF#8 → takeTick c s = .next (withChan s c { x with tickp := false })) ∧
    (x.init = true → x.idle ≠ 0xFF#8 → x.idle.toNat + 1 ≤ s.cfg.debounceT →
      takeTick c s = .next (withChan s c { x with tickp := false, idle := x.idle + 1#8 })) ∧
    (x.init = true → x.idle ≠ 0xFF#8 → s.cfg.debounceT < x.idle.toNat + 1 →
      (∀ h l y o, x.per.armed = false → x.q.Holds (h :: l) → TicketAt s h y → Starts s c h y o →
        takeTick c s = .next
          (withOut (withChan s c { x with tickp := false, per := startedPer, idle := 0xFF#8 }) [o])) ∧
      (∀ h l, x.per.armed = true → x.q.Holds (h :: l) → takeTick c s = .next (faultedWith s 0x07#8 (BitVec.ofNat 8 c) 0x81#8)) ∧
      (x.q.Holds [] → takeTick c s = .next (faultedWith s 0x0A#8 (BitVec.ofNat 8 c) 0x81#8)))

/-- Spec 60 R150, R156: while a handler is active no completion and no tick of any channel is taken: a take that is tried then
changes nothing (log entry 17). -/
def Obligations.EventsHeldDuringHandler : Prop :=
  ∀ (s : State) (c : Nat), s.hphase ≠ .none → takeCompletion c s = .next s ∧ takeTick c s = .next s

/-- The inference of spec 44 R140 (the spec derives it from R125, R130, R131): with the counter just activated, ticks up to the
threshold only count, and the next one starts the head's transfer. -/
def Obligations.DebounceStartsAfterThreshold : Prop :=
  ∀ (s : State) (c : Nat) (x : Channel), s.ch[c]? = some x → x.idle = 0x00#8 → s.cfg.debounceT ≤ 253 →
    (∀ n ≤ s.cfg.debounceT, idleTicks c n s = .ok (withChan s c { x with idle := BitVec.ofNat 8 n })) ∧
    (∀ h l y o, x.per.armed = false → x.q.Holds (h :: l) → TicketAt s h y → Starts s c h y o →
      idleTicks c (s.cfg.debounceT + 1) s =
        .ok (withOut (withChan s c { x with per := startedPer, idle := 0xFF#8 }) [o]))

/-! ## The whole machine -/

/-- Spec 10 R34: every element after power-on reset, for every value of the parameters. -/
def Obligations.ResetValues : Prop :=
  ∀ g : Config,
    (State.resetOf g).fault = ⟨0x00#8, 0x00#8, 0x00#8⟩ ∧ (State.resetOf g).hphase = .none ∧
    (State.resetOf g).fifo = List.replicate g.numFifos ⟨0, 0, List.replicate g.initCapacity none⟩ ∧
    (State.resetOf g).tkt = List.replicate g.maxTickets none ∧
    (State.resetOf g).ch = List.replicate g.numChannels ⟨false, ⟨0, 0, []⟩, 0xFF#8, resetPer, false⟩

/-- The inference of spec 10 R35 (the spec derives it from all its rules): with legal parameters the state after reset meets the
invariants. -/
def Obligations.ResetMeetsInvariants : Prop := ∀ g : Config, g.Valid → (State.resetOf g).Inv

/-- The inference of spec 10 R35, points 1 to 6 (the spec derives it from all its rules): every step, of any agent, from any state
that meets the invariants leads to one that meets them. -/
def Obligations.StepKeepsInvariants : Prop := ∀ s t : State, s.Inv → Sys2Proof.Machine.step s = .next t → t.Inv

/-- Spec 00 R11, 10 R35: from a state that meets the invariants no step leaves a space: every step answers a next state. -/
def Obligations.StepNeverStops : Prop := ∀ s : State, s.Inv → ∃ t, Sys2Proof.Machine.step s = .next t

/-- The inference of spec 10 R35 (the spec derives it from all its rules): every state a legal machine reaches, under every input
and every schedule, meets the invariants. -/
def Obligations.ReachableStatesMeetInvariants : Prop := ∀ (g : Config) (s : State), g.Valid → Reachable g s → s.Inv ∧ s.cfg = g

/-- The inference of spec 44 R138 and 60 R144, which calls these faults unreachable: from a state that meets the invariants,
DoubleStart and InvariantBroken are never raised, and a take raises no fault at all. -/
def Obligations.UnreachableFaultsAreNotRaised : Prop :=
  ∀ s t : State, s.Inv → Running s → step s = .next t →
    t.fault.code ≠ 0x07#8 ∧ t.fault.code ≠ 0x0A#8 ∧
    ∀ c r, (s.sched = .takeComp c :: r ∨ s.sched = .takeTick c :: r) → Running t

/-- Spec 43 R116: no step changes a terminal ticket but to free its slot, and a Pending one becomes terminal or goes only in its
channel's completion take. -/
def Obligations.TicketStatusChangesOnce : Prop :=
  ∀ (s t : State) (h : Handle) (x : Ticket), s.Inv → step s = .next t → TicketAt s h x →
    (x.status ≠ .pending → t.tkt[h.toNat - 1]? = some none ∨ t.tkt[h.toNat - 1]? = some (some x)) ∧
    (x.status = .pending → (∃ y, t.tkt[h.toNat - 1]? = some (some y) ∧ y.status = .pending ∧ y.chan = x.chan ∧ y.hid = x.hid) ∨
      ∃ r, s.sched = .takeComp x.chan.toNat :: r)

/-- Spec 10 R29, 60 R154, R155: only a completion take enters the handler phase and only HRET for its channel leaves it. -/
def Obligations.HandlerPhaseChanges : Prop :=
  ∀ s t : State, step s = .next t →
    t.hphase = s.hphase ∨
    (s.hphase = .none ∧ ∃ c r c7 h, s.sched = .takeComp c :: r ∧ t.hphase = .active c7 h) ∨
    (t.hphase = .none ∧ ∃ c7 h c r ws, s.hphase = .active c7 h ∧ c7.toNat = c.toNat ∧ s.sched = .host :: r ∧
      decode s.cmd = .instr (.hret c) ws)

/-- The inference of spec 44 R139 (the spec derives it from R125, R127, R131): a channel's queue changes only by a handle appended
by the host's command or by its head leaving at its own completion take. -/
def Obligations.ChannelQueueDiscipline : Prop :=
  ∀ (s t : State) (c : Nat) (x y : Channel) (l m : List Handle), s.Inv → step s = .next t → s.ch[c]? = some x → t.ch[c]? = some y →
    x.q.Holds l → y.q.Holds m →
    m = l ∨ (∃ h r, m = l ++ [h] ∧ s.sched = .host :: r) ∨ (∃ h r, l = h :: m ∧ s.sched = .takeComp c :: r)

/-- Spec 60 R161: the instructions of a channel leave every other channel and every standalone FIFO as they were, in every
state; so do its takes. -/
def Obligations.ChannelStepsTouchOneChannel : Prop :=
  (∀ (i : Instr) (s t : State), isChannelInstr i = true → exec i s = .next t →
    t.fifo = s.fifo ∧ ∀ j, j ≠ i.unitField.toNat → t.ch[j]? = s.ch[j]?) ∧
  (∀ (c : Nat) (s t : State), (takeCompletion c s = .next t ∨ takeTick c s = .next t) →
    t.fifo = s.fifo ∧ ∀ j, j ≠ c → t.ch[j]? = s.ch[j]?)

/-- Spec 10 R15 and log entry 4: no step changes a parameter, and what has been put out stays, in its order. The output list is
the model's own way to hold the outputs. -/
def Obligations.StepKeepsConfigAndOutputs : Prop :=
  ∀ s t : State, step s = .next t → t.cfg = s.cfg ∧ ∃ os, t.out = s.out ++ os
end

