-- ==== Sys2Proof/Laws/Encoding.lean ====
section
/-! SUPPORT. The fields of a header word, of IMM and of the HPHASE word read back what was put in. -/

namespace Sys2Proof

@[simp] theorem hdrOpc_header (o : Opcode) (u : BitVec 8) (imm : BitVec 16) : hdrOpc (header o u imm) = o.code := by
  apply BitVec.eq_of_getLsbD_eq
  intro i hi
  have h1 : ¬24 + i < 16 := by omega
  have h2 : ¬24 + i - 16 < 8 := by omega
  have h3 : 24 + i - 16 - 8 = i := by omega
  simp only [hdrOpc, header, BitVec.getLsbD_extractLsb', BitVec.getLsbD_append, h1, h2, h3, hi, decide_true, Bool.true_and, if_false]

@[simp] theorem hdrUnit_header (o : Opcode) (u : BitVec 8) (imm : BitVec 16) : hdrUnit (header o u imm) = u := by
  apply BitVec.eq_of_getLsbD_eq
  intro i hi
  have h1 : ¬16 + i < 16 := by omega
  have h2 : 16 + i - 16 = i := by omega
  simp only [hdrUnit, header, BitVec.getLsbD_extractLsb', BitVec.getLsbD_append, h1, h2, hi, decide_true, Bool.true_and, if_false, if_true]

@[simp] theorem hdrImm_header (o : Opcode) (u : BitVec 8) (imm : BitVec 16) : hdrImm (header o u imm) = imm := by
  apply BitVec.eq_of_getLsbD_eq
  intro i hi
  have h1 : 0 + i = i := by omega
  simp only [hdrImm, header, BitVec.getLsbD_extractLsb', BitVec.getLsbD_append, h1, hi, decide_true, Bool.true_and, if_true]

@[simp] theorem immDev_devRegImm (dev : Byte) (reg : BitVec 7) : immDev (devRegImm dev reg) = dev := by
  apply BitVec.eq_of_getLsbD_eq
  intro i hi
  have h1 : ¬8 + i < 7 := by omega
  have h2 : ¬8 + i - 7 < 1 := by omega
  have h3 : 8 + i - 7 - 1 = i := by omega
  simp only [immDev, devRegImm, BitVec.getLsbD_extractLsb', BitVec.getLsbD_append, h1, h2, h3, hi, decide_true, Bool.true_and, if_false]

@[simp] theorem immReg_devRegImm (dev : Byte) (reg : BitVec 7) : immReg (devRegImm dev reg) = reg := by
  apply BitVec.eq_of_getLsbD_eq
  intro i hi
  have h1 : 0 + i = i := by omega
  simp only [immReg, devRegImm, BitVec.getLsbD_extractLsb', BitVec.getLsbD_append, h1, hi, decide_true, Bool.true_and, if_true]

@[simp] theorem count_removeImm (r : Bool) (n : BitVec 15) : (removeImm r n).extractLsb' 0 15 = n := by
  apply BitVec.eq_of_getLsbD_eq
  intro i hi
  have h1 : 0 + i = i := by omega
  simp only [removeImm, BitVec.getLsbD_extractLsb', BitVec.getLsbD_append, h1, hi, decide_true, Bool.true_and, if_true]

@[simp] theorem immRemove_removeImm (r : Bool) (n : BitVec 15) : immRemove (removeImm r n) = r := by
  cases r <;> simp only [immRemove, removeImm, BitVec.getLsbD_append] <;> rfl

/-- Every row's opcode leads back to the row. -/
@[simp] theorem Opcode.ofCode_code (o : Opcode) : Opcode.ofCode o.code = some o := by
  cases o <;> decide

/-! ### The HPHASE word -/

open Sys2Proof.Machine

@[simp] theorem hphaseActive_word_none : hphaseActive HPhase.none.word = false := rfl

@[simp] theorem hphaseActive_word_active (c : BitVec 7) (h : Handle) : hphaseActive (HPhase.active c h).word = true := by
  simp only [hphaseActive, HPhase.word, BitVec.getLsbD_append]; rfl

@[simp] theorem hphaseChan_word_active (c : BitVec 7) (h : Handle) : hphaseChan (HPhase.active c h).word = c := by
  apply BitVec.eq_of_getLsbD_eq
  intro i hi
  have h1 : ¬1 + i < 1 := by omega
  have h2 : 1 + i - 1 = i := by omega
  simp only [hphaseChan, HPhase.word, BitVec.getLsbD_extractLsb', BitVec.getLsbD_append, h1, h2, hi, decide_true, Bool.true_and, if_false, if_true]

@[simp] theorem hphaseHandle_word_active (c : BitVec 7) (h : Handle) : hphaseHandle (HPhase.active c h).word = h := by
  apply BitVec.eq_of_getLsbD_eq
  intro i hi
  have h1 : ¬16 + i < 1 := by omega
  have h2 : ¬16 + i - 1 < 7 := by omega
  have h3 : ¬16 + i - 1 - 7 < 8 := by omega
  have h4 : 16 + i - 1 - 7 - 8 = i := by omega
  simp only [hphaseHandle, HPhase.word, BitVec.getLsbD_extractLsb', BitVec.getLsbD_append, h1, h2, h3, h4, hi, decide_true, Bool.true_and, if_false]

/-- The HPHASE word shows CHSTAT the handler active for the channel, and no other. -/
@[simp] theorem chstatHandler_word (p : HPhase) (c : Nat) : chstatHandler p.word c = handlerOf p c := by
  cases p with
  | none => simp [chstatHandler, handlerOf]
  | active c' h => simp [chstatHandler, handlerOf]

end Sys2Proof
end

