-- ==== Sys2Proof/Laws/State.lean ====
section
/-! SUPPORT. What each update of the state leaves in each field: one lemma per field per update. -/

namespace Sys2Proof.Machine

variable (s : State)

/-! ### setFifo -/

@[simp] theorem State.setFifo_cfg (k : Nat) (q : Queue 32) : (s.setFifo k q).cfg = s.cfg := rfl
@[simp] theorem State.setFifo_fault (k : Nat) (q : Queue 32) : (s.setFifo k q).fault = s.fault := rfl
@[simp] theorem State.setFifo_hphase (k : Nat) (q : Queue 32) : (s.setFifo k q).hphase = s.hphase := rfl
@[simp] theorem State.setFifo_fifo (k : Nat) (q : Queue 32) : (s.setFifo k q).fifo = s.fifo.set k q := rfl
@[simp] theorem State.setFifo_tkt (k : Nat) (q : Queue 32) : (s.setFifo k q).tkt = s.tkt := rfl
@[simp] theorem State.setFifo_ch (k : Nat) (q : Queue 32) : (s.setFifo k q).ch = s.ch := rfl
@[simp] theorem State.setFifo_cmd (k : Nat) (q : Queue 32) : (s.setFifo k q).cmd = s.cmd := rfl
@[simp] theorem State.setFifo_evt (k : Nat) (q : Queue 32) : (s.setFifo k q).evt = s.evt := rfl
@[simp] theorem State.setFifo_sched (k : Nat) (q : Queue 32) : (s.setFifo k q).sched = s.sched := rfl
@[simp] theorem State.setFifo_out (k : Nat) (q : Queue 32) : (s.setFifo k q).out = s.out := rfl
@[simp] theorem State.setFifo_faulted (k : Nat) (q : Queue 32) : (s.setFifo k q).faulted = s.faulted := rfl
@[simp] theorem State.setFifo_ticket? (k : Nat) (q : Queue 32) (g : Handle) : (s.setFifo k q).ticket? g = s.ticket? g := rfl

/-! ### setCh -/

@[simp] theorem State.setCh_cfg (c : Nat) (x : Channel) : (s.setCh c x).cfg = s.cfg := rfl
@[simp] theorem State.setCh_fault (c : Nat) (x : Channel) : (s.setCh c x).fault = s.fault := rfl
@[simp] theorem State.setCh_hphase (c : Nat) (x : Channel) : (s.setCh c x).hphase = s.hphase := rfl
@[simp] theorem State.setCh_fifo (c : Nat) (x : Channel) : (s.setCh c x).fifo = s.fifo := rfl
@[simp] theorem State.setCh_tkt (c : Nat) (x : Channel) : (s.setCh c x).tkt = s.tkt := rfl
@[simp] theorem State.setCh_ch (c : Nat) (x : Channel) : (s.setCh c x).ch = s.ch.set c x := rfl
@[simp] theorem State.setCh_cmd (c : Nat) (x : Channel) : (s.setCh c x).cmd = s.cmd := rfl
@[simp] theorem State.setCh_evt (c : Nat) (x : Channel) : (s.setCh c x).evt = s.evt := rfl
@[simp] theorem State.setCh_sched (c : Nat) (x : Channel) : (s.setCh c x).sched = s.sched := rfl
@[simp] theorem State.setCh_out (c : Nat) (x : Channel) : (s.setCh c x).out = s.out := rfl
@[simp] theorem State.setCh_faulted (c : Nat) (x : Channel) : (s.setCh c x).faulted = s.faulted := rfl
@[simp] theorem State.setCh_ticket? (c : Nat) (x : Channel) (g : Handle) : (s.setCh c x).ticket? g = s.ticket? g := rfl

/-! ### setSlot -/

@[simp] theorem State.setSlot_cfg (h : Handle) (o : Option Ticket) : (s.setSlot h o).cfg = s.cfg := rfl
@[simp] theorem State.setSlot_fault (h : Handle) (o : Option Ticket) : (s.setSlot h o).fault = s.fault := rfl
@[simp] theorem State.setSlot_hphase (h : Handle) (o : Option Ticket) : (s.setSlot h o).hphase = s.hphase := rfl
@[simp] theorem State.setSlot_fifo (h : Handle) (o : Option Ticket) : (s.setSlot h o).fifo = s.fifo := rfl
@[simp] theorem State.setSlot_tkt (h : Handle) (o : Option Ticket) : (s.setSlot h o).tkt = s.tkt.set (h.toNat - 1) o := rfl
@[simp] theorem State.setSlot_ch (h : Handle) (o : Option Ticket) : (s.setSlot h o).ch = s.ch := rfl
@[simp] theorem State.setSlot_cmd (h : Handle) (o : Option Ticket) : (s.setSlot h o).cmd = s.cmd := rfl
@[simp] theorem State.setSlot_evt (h : Handle) (o : Option Ticket) : (s.setSlot h o).evt = s.evt := rfl
@[simp] theorem State.setSlot_sched (h : Handle) (o : Option Ticket) : (s.setSlot h o).sched = s.sched := rfl
@[simp] theorem State.setSlot_out (h : Handle) (o : Option Ticket) : (s.setSlot h o).out = s.out := rfl
@[simp] theorem State.setSlot_faulted (h : Handle) (o : Option Ticket) : (s.setSlot h o).faulted = s.faulted := rfl

/-! ### setTkt -/

@[simp] theorem State.setTkt_cfg (h : Handle) (x : Ticket) : (s.setTkt h x).cfg = s.cfg := rfl
@[simp] theorem State.setTkt_fault (h : Handle) (x : Ticket) : (s.setTkt h x).fault = s.fault := rfl
@[simp] theorem State.setTkt_hphase (h : Handle) (x : Ticket) : (s.setTkt h x).hphase = s.hphase := rfl
@[simp] theorem State.setTkt_fifo (h : Handle) (x : Ticket) : (s.setTkt h x).fifo = s.fifo := rfl
@[simp] theorem State.setTkt_tkt (h : Handle) (x : Ticket) : (s.setTkt h x).tkt = s.tkt.set (h.toNat - 1) (some x) := rfl
@[simp] theorem State.setTkt_ch (h : Handle) (x : Ticket) : (s.setTkt h x).ch = s.ch := rfl
@[simp] theorem State.setTkt_cmd (h : Handle) (x : Ticket) : (s.setTkt h x).cmd = s.cmd := rfl
@[simp] theorem State.setTkt_evt (h : Handle) (x : Ticket) : (s.setTkt h x).evt = s.evt := rfl
@[simp] theorem State.setTkt_sched (h : Handle) (x : Ticket) : (s.setTkt h x).sched = s.sched := rfl
@[simp] theorem State.setTkt_out (h : Handle) (x : Ticket) : (s.setTkt h x).out = s.out := rfl
@[simp] theorem State.setTkt_faulted (h : Handle) (x : Ticket) : (s.setTkt h x).faulted = s.faulted := rfl

/-! ### release -/

@[simp] theorem State.release_cfg (h : Handle) : (s.release h).cfg = s.cfg := rfl
@[simp] theorem State.release_fault (h : Handle) : (s.release h).fault = s.fault := rfl
@[simp] theorem State.release_hphase (h : Handle) : (s.release h).hphase = s.hphase := rfl
@[simp] theorem State.release_fifo (h : Handle) : (s.release h).fifo = s.fifo := rfl
@[simp] theorem State.release_tkt (h : Handle) : (s.release h).tkt = s.tkt.set (h.toNat - 1) none := rfl
@[simp] theorem State.release_ch (h : Handle) : (s.release h).ch = s.ch := rfl
@[simp] theorem State.release_cmd (h : Handle) : (s.release h).cmd = s.cmd := rfl
@[simp] theorem State.release_evt (h : Handle) : (s.release h).evt = s.evt := rfl
@[simp] theorem State.release_sched (h : Handle) : (s.release h).sched = s.sched := rfl
@[simp] theorem State.release_out (h : Handle) : (s.release h).out = s.out := rfl
@[simp] theorem State.release_faulted (h : Handle) : (s.release h).faulted = s.faulted := rfl

/-! ### emit -/

@[simp] theorem State.emit_cfg (o : Output) : (s.emit o).cfg = s.cfg := rfl
@[simp] theorem State.emit_fault (o : Output) : (s.emit o).fault = s.fault := rfl
@[simp] theorem State.emit_hphase (o : Output) : (s.emit o).hphase = s.hphase := rfl
@[simp] theorem State.emit_fifo (o : Output) : (s.emit o).fifo = s.fifo := rfl
@[simp] theorem State.emit_tkt (o : Output) : (s.emit o).tkt = s.tkt := rfl
@[simp] theorem State.emit_ch (o : Output) : (s.emit o).ch = s.ch := rfl
@[simp] theorem State.emit_cmd (o : Output) : (s.emit o).cmd = s.cmd := rfl
@[simp] theorem State.emit_evt (o : Output) : (s.emit o).evt = s.evt := rfl
@[simp] theorem State.emit_sched (o : Output) : (s.emit o).sched = s.sched := rfl
@[simp] theorem State.emit_out (o : Output) : (s.emit o).out = s.out ++ [o] := rfl
@[simp] theorem State.emit_faulted (o : Output) : (s.emit o).faulted = s.faulted := rfl
@[simp] theorem State.emit_ticket? (o : Output) (g : Handle) : (s.emit o).ticket? g = s.ticket? g := rfl

/-! ### setHphase -/

@[simp] theorem State.setHphase_cfg (p : HPhase) : (s.setHphase p).cfg = s.cfg := rfl
@[simp] theorem State.setHphase_fault (p : HPhase) : (s.setHphase p).fault = s.fault := rfl
@[simp] theorem State.setHphase_hphase (p : HPhase) : (s.setHphase p).hphase = p := rfl
@[simp] theorem State.setHphase_fifo (p : HPhase) : (s.setHphase p).fifo = s.fifo := rfl
@[simp] theorem State.setHphase_tkt (p : HPhase) : (s.setHphase p).tkt = s.tkt := rfl
@[simp] theorem State.setHphase_ch (p : HPhase) : (s.setHphase p).ch = s.ch := rfl
@[simp] theorem State.setHphase_cmd (p : HPhase) : (s.setHphase p).cmd = s.cmd := rfl
@[simp] theorem State.setHphase_evt (p : HPhase) : (s.setHphase p).evt = s.evt := rfl
@[simp] theorem State.setHphase_sched (p : HPhase) : (s.setHphase p).sched = s.sched := rfl
@[simp] theorem State.setHphase_out (p : HPhase) : (s.setHphase p).out = s.out := rfl
@[simp] theorem State.setHphase_faulted (p : HPhase) : (s.setHphase p).faulted = s.faulted := rfl
@[simp] theorem State.setHphase_ticket? (p : HPhase) (g : Handle) : (s.setHphase p).ticket? g = s.ticket? g := rfl

/-! ### respondOk -/

@[simp] theorem State.respondOk_cfg (ws : List Word) : (s.respondOk ws).cfg = s.cfg := rfl
@[simp] theorem State.respondOk_fault (ws : List Word) : (s.respondOk ws).fault = s.fault := rfl
@[simp] theorem State.respondOk_hphase (ws : List Word) : (s.respondOk ws).hphase = s.hphase := rfl
@[simp] theorem State.respondOk_fifo (ws : List Word) : (s.respondOk ws).fifo = s.fifo := rfl
@[simp] theorem State.respondOk_tkt (ws : List Word) : (s.respondOk ws).tkt = s.tkt := rfl
@[simp] theorem State.respondOk_ch (ws : List Word) : (s.respondOk ws).ch = s.ch := rfl
@[simp] theorem State.respondOk_cmd (ws : List Word) : (s.respondOk ws).cmd = s.cmd := rfl
@[simp] theorem State.respondOk_evt (ws : List Word) : (s.respondOk ws).evt = s.evt := rfl
@[simp] theorem State.respondOk_sched (ws : List Word) : (s.respondOk ws).sched = s.sched := rfl
@[simp] theorem State.respondOk_out (ws : List Word) : (s.respondOk ws).out = s.out ++ [.response (0x00000000#32 :: ws)] := rfl
@[simp] theorem State.respondOk_faulted (ws : List Word) : (s.respondOk ws).faulted = s.faulted := rfl
@[simp] theorem State.respondOk_ticket? (ws : List Word) (g : Handle) : (s.respondOk ws).ticket? g = s.ticket? g := rfl

/-! ### respondFail -/

@[simp] theorem State.respondFail_cfg : s.respondFail.cfg = s.cfg := rfl
@[simp] theorem State.respondFail_fault : s.respondFail.fault = s.fault := rfl
@[simp] theorem State.respondFail_hphase : s.respondFail.hphase = s.hphase := rfl
@[simp] theorem State.respondFail_fifo : s.respondFail.fifo = s.fifo := rfl
@[simp] theorem State.respondFail_tkt : s.respondFail.tkt = s.tkt := rfl
@[simp] theorem State.respondFail_ch : s.respondFail.ch = s.ch := rfl
@[simp] theorem State.respondFail_cmd : s.respondFail.cmd = s.cmd := rfl
@[simp] theorem State.respondFail_evt : s.respondFail.evt = s.evt := rfl
@[simp] theorem State.respondFail_sched : s.respondFail.sched = s.sched := rfl
@[simp] theorem State.respondFail_out : s.respondFail.out = s.out ++ [.response [0x00000001#32]] := rfl
@[simp] theorem State.respondFail_faulted : s.respondFail.faulted = s.faulted := rfl
@[simp] theorem State.respondFail_ticket? (g : Handle) : s.respondFail.ticket? g = s.ticket? g := rfl

/-! ### latch -/

@[simp] theorem State.latch_cfg (e : FaultCode) (u o : BitVec 8) : (s.latch e u o).cfg = s.cfg := rfl
@[simp] theorem State.latch_fault (e : FaultCode) (u o : BitVec 8) : (s.latch e u o).fault = { code := e.byte, unit := u, opc := o } := rfl
@[simp] theorem State.latch_hphase (e : FaultCode) (u o : BitVec 8) : (s.latch e u o).hphase = s.hphase := rfl
@[simp] theorem State.latch_fifo (e : FaultCode) (u o : BitVec 8) : (s.latch e u o).fifo = s.fifo := rfl
@[simp] theorem State.latch_tkt (e : FaultCode) (u o : BitVec 8) : (s.latch e u o).tkt = s.tkt := rfl
@[simp] theorem State.latch_ch (e : FaultCode) (u o : BitVec 8) : (s.latch e u o).ch = s.ch := rfl
@[simp] theorem State.latch_cmd (e : FaultCode) (u o : BitVec 8) : (s.latch e u o).cmd = s.cmd := rfl
@[simp] theorem State.latch_evt (e : FaultCode) (u o : BitVec 8) : (s.latch e u o).evt = s.evt := rfl
@[simp] theorem State.latch_sched (e : FaultCode) (u o : BitVec 8) : (s.latch e u o).sched = s.sched := rfl
@[simp] theorem State.latch_out (e : FaultCode) (u o : BitVec 8) : (s.latch e u o).out = s.out := rfl
@[simp] theorem State.latch_ticket? (e : FaultCode) (u o : BitVec 8) (g : Handle) : (s.latch e u o).ticket? g = s.ticket? g := rfl

/-- A latched code is not 0: the block is faulted. -/
@[simp] theorem State.latch_faulted (e : FaultCode) (u o : BitVec 8) : (s.latch e u o).faulted = true := by
  cases e <;> rfl

/-! ### Selected queues -/

@[simp] theorem State.popSelected_fifo (i : Nat) (q : Queue 32) (k : Nat) :
    s.popSelected (.fifo i q) k = s.setFifo i (q.pop k) := rfl
@[simp] theorem State.popSelected_chan (i : Nat) (q : Queue 16) (k : Nat) : s.popSelected (.chan i q) k = s := rfl
@[simp] theorem Selected.size_fifo (i : Nat) (q : Queue 32) : (Selected.fifo i q).size = q.size := rfl
@[simp] theorem Selected.size_chan (i : Nat) (q : Queue 16) : (Selected.chan i q).size = q.size := rfl
@[simp] theorem Selected.cap_fifo (i : Nat) (q : Queue 32) : (Selected.fifo i q).cap = q.cap := rfl
@[simp] theorem Selected.cap_chan (i : Nat) (q : Queue 16) : (Selected.chan i q).cap = q.cap := rfl

/-! ### Queues -/

@[simp] theorem Queue.pop_h {w : Nat} (q : Queue w) (k : Nat) : (q.pop k).h = q.h + k := rfl
@[simp] theorem Queue.pop_t {w : Nat} (q : Queue w) (k : Nat) : (q.pop k).t = q.t := rfl
@[simp] theorem Queue.pop_cell {w : Nat} (q : Queue w) (k : Nat) : (q.pop k).cell = q.cell := rfl
@[simp] theorem Queue.pop_cap {w : Nat} (q : Queue w) (k : Nat) : (q.pop k).cap = q.cap := rfl
@[simp] theorem Queue.fresh_h (w n : Nat) : (Queue.fresh w n).h = 0 := rfl
@[simp] theorem Queue.fresh_t (w n : Nat) : (Queue.fresh w n).t = 0 := rfl
@[simp] theorem Queue.fresh_cap (w n : Nat) : (Queue.fresh w n).cap = n := by simp [Queue.fresh, Queue.cap]
@[simp] theorem Queue.fresh_size (w n : Nat) : (Queue.fresh w n).size = 0 := rfl

/-! ### Reset -/

@[simp] theorem State.resetOf_cfg (g : Config) : (State.resetOf g).cfg = g := rfl
@[simp] theorem State.resetOf_fault (g : Config) : (State.resetOf g).fault = ⟨0#8, 0#8, 0#8⟩ := rfl
@[simp] theorem State.resetOf_hphase (g : Config) : (State.resetOf g).hphase = .none := rfl
@[simp] theorem State.resetOf_fifo (g : Config) :
    (State.resetOf g).fifo = List.replicate g.numFifos (Queue.fresh 32 g.initCapacity) := rfl
@[simp] theorem State.resetOf_tkt (g : Config) : (State.resetOf g).tkt = List.replicate g.maxTickets none := rfl
@[simp] theorem State.resetOf_ch (g : Config) : (State.resetOf g).ch = List.replicate g.numChannels Channel.reset := rfl
@[simp] theorem State.resetOf_cmd (g : Config) : (State.resetOf g).cmd = [] := rfl
@[simp] theorem State.resetOf_evt (g : Config) : (State.resetOf g).evt = [] := rfl
@[simp] theorem State.resetOf_sched (g : Config) : (State.resetOf g).sched = [] := rfl
@[simp] theorem State.resetOf_out (g : Config) : (State.resetOf g).out = [] := rfl

end Sys2Proof.Machine
end

