-- ==== Sys2Proof/Laws/Memory.lean ====
section
/-! SUPPORT. What the memory primitives and the queue procedures do: one lemma per operation that says everything it can do. -/

namespace Sys2Proof.Machine

/-! ## Procedures -/

/-- A procedure that goes on answers exactly where its first part answers and what follows answers. -/
theorem bind_eq_ok {α β : Type} {x : Op α} {f : α → Op β} {b : β} :
    (x >>= f) = .ok b ↔ ∃ a, x = .ok a ∧ f a = .ok b := by
  cases x <;> simp [bind, Except.bind]

@[simp] theorem ok_bind {α β : Type} (a : α) (f : α → Op β) : ((.ok a : Op α) >>= f) = f a := rfl
@[simp] theorem error_bind {α β : Type} (e : Halt) (f : α → Op β) : ((.error e : Op α) >>= f) = .error e := rfl
@[simp] theorem raise_bind {α β : Type} (c : FaultCode) (f : α → Op β) : ((raise c : Op α) >>= f) = raise c := rfl
@[simp] theorem outside_bind {α β : Type} (f : α → Op β) : ((outside : Op α) >>= f) = outside := rfl
@[simp] theorem raise_ne_ok {α : Type} (c : FaultCode) (a : α) : (raise c : Op α) ≠ .ok a := by simp [raise]
@[simp] theorem outside_ne_ok {α : Type} (a : α) : (outside : Op α) ≠ .ok a := by simp [outside]

/-! ## Memory primitives -/

/-- The values of a run of cells are `vs` exactly where every cell holds its element of `vs`. -/
theorem cellValues_eq_ok {α : Type} {cells : List (Option α)} {vs : List α} :
    cellValues cells = .ok vs ↔ cells = vs.map some := by
  induction cells generalizing vs with
  | nil => cases vs <;> simp [cellValues]
  | cons x xs ih =>
    cases x with
    | none => cases vs <;> simp [cellValues, outside]
    | some v =>
      simp only [cellValues, bind_eq_ok, ih]
      cases vs <;> simp [and_comm]

/-- `MemRead` answers `vs` exactly where the run lies inside the space and its cells hold `vs`. -/
theorem memRead_eq_ok {α : Type} {cells : List (Option α)} {off n : Nat} {vs : List α} :
    memRead cells off n = .ok vs ↔ off + n ≤ cells.length ∧ (cells.drop off).take n = vs.map some := by
  unfold memRead
  split
  · simp [cellValues_eq_ok, *]
  · simp [*]

/-- `MemWrite` answers exactly where the run lies inside the space, and changes nothing outside the run. -/
theorem memWrite_eq_ok {α : Type} {cells cells' : List (Option α)} {off : Nat} {vs : List α} :
    memWrite cells off vs = .ok cells' ↔
      off + vs.length ≤ cells.length ∧ cells' = cells.take off ++ vs.map some ++ cells.drop (off + vs.length) := by
  unfold memWrite
  split
  · simp [*, eq_comm]
  · simp [*]

/-- A write keeps the size of its space. -/
theorem memWrite_length {α : Type} {cells cells' : List (Option α)} {off : Nat} {vs : List α}
    (h : memWrite cells off vs = .ok cells') : cells'.length = cells.length := by
  obtain ⟨hl, rfl⟩ := memWrite_eq_ok.mp h
  simp; omega

/-- Outside the run, a write leaves every cell as it was. -/
theorem memWrite_frame {α : Type} {cells cells' : List (Option α)} {off : Nat} {vs : List α}
    (h : memWrite cells off vs = .ok cells') {i : Nat} (hi : i < off ∨ off + vs.length ≤ i) : cells'[i]? = cells[i]? := by
  obtain ⟨hl, rfl⟩ := memWrite_eq_ok.mp h
  rcases hi with hi | hi
  · rw [List.append_assoc, List.getElem?_append_left (by simp; omega)]
    simp [hi]
  · rw [List.getElem?_append_right (by simp; omega)]
    simp only [List.length_append, List.length_take, List.length_map, List.getElem?_drop]
    congr 1
    omega

/-- A read of the run just written gives what was written. -/
theorem memRead_memWrite {α : Type} {cells cells' : List (Option α)} {off : Nat} {vs : List α}
    (h : memWrite cells off vs = .ok cells') : memRead cells' off vs.length = .ok vs := by
  have hl := memWrite_length h
  obtain ⟨hin, rfl⟩ := memWrite_eq_ok.mp h
  refine memRead_eq_ok.mpr ⟨by omega, ?_⟩
  have hoff : (cells.take off).length = off := by simp; omega
  rw [List.append_assoc, List.drop_append_of_le_length (by omega), List.drop_of_length_le (by omega), List.nil_append,
    List.take_append_of_le_length (by simp), List.take_of_length_le (by simp)]

/-! ## Queues -/

variable {w : Nat}

/-- The list a queue holds is as long as its size. -/
theorem Queue.Holds.length {q : Queue w} {l : List (BitVec w)} (h : q.Holds l) : l.length = q.size := by
  have := congrArg List.length h.2.2
  simp only [List.length_take, List.length_drop, List.length_map] at this
  have h1 := h.1; have h2 := h.2.1
  unfold Queue.size; omega

/-- What a queue holds is its live list. -/
theorem Queue.Holds.live {q : Queue w} {l : List (BitVec w)} (h : q.Holds l) : q.live = .ok l := by
  refine memRead_eq_ok.mpr ⟨?_, h.2.2⟩
  have h1 := h.1; have h2 := h.2.1
  unfold Queue.size; omega

theorem Queue.Holds.liveList {q : Queue w} {l : List (BitVec w)} (h : q.Holds l) : q.liveList = l := by
  simp [Queue.liveList, h.live]

/-- A queue whose boundaries are in order and whose live list is `l` holds `l`. -/
theorem Queue.holds_of_live {q : Queue w} {l : List (BitVec w)} (hht : q.h ≤ q.t) (htc : q.t ≤ q.cap) (h : q.live = .ok l) :
    q.Holds l :=
  ⟨hht, htc, (memRead_eq_ok.mp h).2⟩

/-- A queue holds at most one list. -/
theorem Queue.Holds.unique {q : Queue w} {l l' : List (BitVec w)} (h : q.Holds l) (h' : q.Holds l') : l = l' := by
  have := h.live.symm.trans h'.live
  simpa using this

/-- A queue in its form holds a list, and its capacity is in the limit. -/
theorem Queue.wf_iff {limit : Nat} {q : Queue w} : q.WF limit ↔ q.cap ≤ limit ∧ ∃ l, q.Holds l := by
  constructor
  · rintro ⟨h1, h2, h3, h4⟩
    refine ⟨h3, ((q.cell.drop q.h).take (q.t - q.h)).filterMap id, h1, h2, ?_⟩
    generalize (q.cell.drop q.h).take (q.t - q.h) = r at h4 ⊢
    induction r with
    | nil => rfl
    | cons x xs ih =>
      cases x with
      | none => simp at h4
      | some v => simpa using ih (by simpa using h4)
  · rintro ⟨hc, l, h1, h2, h3⟩
    exact ⟨h1, h2, hc, by simp [h3]⟩

/-- The head of a queue that holds a list is the list's first element. -/
theorem Queue.Holds.head {q : Queue w} {x : BitVec w} {l : List (BitVec w)} (h : q.Holds (x :: l)) : q.head = .ok x := by
  simp [Queue.head, h.live]

/-- The head is answered exactly where the live list is not empty. -/
theorem Queue.head_eq_ok {q : Queue w} {x : BitVec w} : q.head = .ok x ↔ ∃ l, q.live = .ok (x :: l) := by
  simp only [Queue.head, bind_eq_ok]
  constructor
  · rintro ⟨l, hl, h⟩
    cases l with
    | nil => simp at h
    | cons y ys => simp at h; subst h; exact ⟨ys, hl⟩
  · rintro ⟨l, hl⟩
    exact ⟨_, hl, rfl⟩

/-- Removing the first elements leaves the rest. -/
theorem Queue.Holds.pop {q : Queue w} {l : List (BitVec w)} {k : Nat} (h : q.Holds l) (hk : k ≤ l.length) :
    (q.pop k).Holds (l.drop k) := by
  have hlen := h.length
  obtain ⟨h1, h2, h3⟩ := h
  unfold Queue.size at hlen
  refine ⟨?_, h2, ?_⟩
  · simp only [Queue.pop_h, Queue.pop_t]; omega
  · have := congrArg (List.drop k) h3
    simp only [List.drop_take, List.drop_drop] at this
    simp only [Queue.pop_cell, Queue.pop_h, Queue.pop_t, List.map_drop, ← this, Nat.sub_sub]

/-- An empty queue holds the empty list. -/
theorem Queue.fresh_holds (n : Nat) : (Queue.fresh w n).Holds [] := by
  simp [Queue.Holds, Queue.fresh]

/-- A fresh queue within the limit is in its form. -/
theorem Queue.fresh_wf {limit n : Nat} (h : n ≤ limit) : (Queue.fresh w n).WF limit :=
  Queue.wf_iff.mpr ⟨by simpa using h, [], Queue.fresh_holds n⟩

/-- Writing a list at the start of a space that has room for it. -/
theorem holds_at_start {cells cells' : List (Option (BitVec w))} {l : List (BitVec w)}
    (h : memWrite cells 0 l = .ok cells') : (⟨0, l.length, cells'⟩ : Queue w).Holds l := by
  have hr := memRead_eq_ok.mp (memRead_memWrite h)
  exact ⟨Nat.zero_le _, by simpa using hr.1, by simpa using hr.2⟩

/-- `compact` on a queue that holds `l`: it answers, holds `l` still, from offset 0, in the same capacity. -/
theorem Queue.Holds.compact {q : Queue w} {l : List (BitVec w)} (h : q.Holds l) :
    ∃ q', q.compact = .ok q' ∧ q'.Holds l ∧ q'.h = 0 ∧ q'.t = l.length ∧ q'.cap = q.cap ∧ WrittenOnly q q' 0 l.length := by
  have hlen := h.length
  have hle : 0 + l.length ≤ q.cell.length := by
    have h1 := h.1; have h2 := h.2.1
    unfold Queue.size at hlen; omega
  have hw := memWrite_eq_ok.mpr ⟨hle, rfl⟩
  exact ⟨_, by simp only [Queue.compact, h.live, ok_bind, hw], holds_at_start hw, rfl, rfl, memWrite_length hw,
    fun j hj => memWrite_frame hw (by omega)⟩

/-- `grow` on a queue that holds `l`: the fault past the limit, else it answers, holds `l` still, from offset 0, with the
capacity enlarged. -/
theorem Queue.Holds.grow {q : Queue w} {l : List (BitVec w)} (g : Config) (k : Nat) (h : q.Holds l) :
    (g.memLimit < q.cap + k ∧ q.grow g k = raise .allocationFailure) ∨
    (q.cap + k ≤ g.memLimit ∧
      ∃ q', q.grow g k = .ok q' ∧ q'.Holds l ∧ q'.h = 0 ∧ q'.t = l.length ∧ q'.cap = q.cap + k ∧ RestFree q') := by
  by_cases hk : q.cap + k > g.memLimit
  · exact .inl ⟨hk, by simp [Queue.grow, hk]⟩
  · right
    refine ⟨by omega, ?_⟩
    have hlen := h.length
    have hle : 0 + l.length ≤ (List.replicate (q.cap + k) (none : Option (BitVec w))).length := by
      have h1 := h.1; have h2 := h.2.1
      simp only [List.length_replicate, Queue.cap]
      unfold Queue.size at hlen; omega
    have hw := memWrite_eq_ok.mpr ⟨hle, rfl⟩
    refine ⟨_, by simp only [Queue.grow, hk, if_false, h.live, ok_bind, hw], holds_at_start hw, rfl, rfl, ?_, ?_⟩
    · simpa [Queue.cap] using memWrite_length hw
    · intro j hj hj'
      rw [memWrite_frame hw (.inr (by simpa using hj))]
      rw [memWrite_length hw, List.length_replicate] at hj'
      simp [hj']

/-- Appending to a queue that has room at its tail. -/
theorem Queue.Holds.append {q : Queue w} {l m : List (BitVec w)} (h : q.Holds l) (hroom : q.t + m.length ≤ q.cap) :
    ∃ q', q.append m = .ok q' ∧ q'.Holds (l ++ m) ∧ q'.h = q.h ∧ q'.t = q.t + m.length ∧ q'.cap = q.cap ∧
      WrittenOnly q q' q.t q'.t := by
  obtain ⟨h1, h2, h3⟩ := h
  have hw := memWrite_eq_ok.mpr ⟨hroom, rfl⟩
  refine ⟨{ h := q.h, t := q.t + m.length, cell := _ }, by simp only [Queue.append, hw, ok_bind], ⟨?_, ?_, ?_⟩, rfl, rfl,
    memWrite_length hw, fun j hj => memWrite_frame hw hj⟩
  · simp only; omega
  · simp only; rw [memWrite_length hw]; exact hroom
  · have ht : (q.cell.take q.t).length = q.t := by simp; omega
    simp only [List.map_append, ← h3]
    rw [List.append_assoc, List.drop_append_of_le_length (by omega), ← List.append_assoc]
    have hd : ((q.cell.take q.t).drop q.h).length = q.t - q.h := by simp; omega
    rw [List.take_append_of_le_length (by simp; omega)]
    rw [List.take_of_length_le (by simp; omega)]
    congr 1
    rw [List.drop_take]

/-- `place` of a list that is not empty on a queue that holds `l` (spec 41 R86): a growth past the limit is the allocation
fault; else the list is appended, and the flag says whether the queue grew. -/
theorem Queue.Holds.place {q : Queue w} {l m : List (BitVec w)} (g : Config) (h : q.Holds l) (hm : m.length ≠ 0) :
    (q.room m.length = .growth ∧ g.memLimit < q.capAfter m.length ∧ q.place g m = raise .allocationFailure) ∨
    ((q.room m.length = .growth → q.capAfter m.length ≤ g.memLimit) ∧
      ∃ q', q.place g m = .ok (q', decide (q.room m.length = .growth)) ∧ q'.Holds (l ++ m) ∧
        q'.h = q.startAfter m.length ∧ q'.t = q.startAfter m.length + (l ++ m).length ∧ q'.cap = q.capAfter m.length ∧
        (q.room m.length = .tail → WrittenOnly q q' q.t q'.t) ∧
        (q.room m.length = .compaction → WrittenOnly q q' 0 q'.t) ∧
        (q.room m.length = .growth → RestFree q')) := by
  have hlen := h.length
  have hb1 := h.1
  have hb2 : q.t ≤ q.cap := h.2.1
  have hsz : q.size = q.t - q.h := rfl
  unfold Queue.capAfter Queue.startAfter Queue.room Queue.place Queue.makeRoom
  simp only [hm, if_false]
  by_cases h1 : m.length ≤ q.cap - q.t
  · obtain ⟨q', e, hh, e1, e2, e3, e4⟩ := h.append (m := m) (by omega)
    right
    simp only [h1, if_true, ok_bind, e]
    refine ⟨by simp, q', by simp, hh, e1, ?_, e3, fun _ => e4, by simp, by simp⟩
    rw [e2, List.length_append]; omega
  · by_cases h2 : m.length ≤ q.cap - q.size ∧ 5 * (q.size + m.length) < 4 * q.cap
    · obtain ⟨p, ep, hp, p1, p2, p3, p4⟩ := h.compact
      obtain ⟨q', e, hh, e1, e2, e3, e4⟩ := hp.append (m := m) (by omega)
      right
      simp only [h1, h2, if_false, if_true, and_self, ep, ok_bind, e]
      refine ⟨by simp, q', by simp, hh, by omega, ?_, by omega, by simp, fun _ j hj => ?_, by simp⟩
      · rw [e2, List.length_append]; omega
      · rw [e4 j (by omega), p4 j (by omega)]
    · simp only [h1, h2, if_false]
      rcases h.grow g (max m.length (q.cap / 5)) with ⟨hk, e⟩ | ⟨hk, p, ep, hp, p1, p2, p3, p4⟩
      · left
        exact ⟨trivial, hk, by simp [e]⟩
      · obtain ⟨q', e, hh, e1, e2, e3, e4⟩ := hp.append (m := m) (by omega)
        right
        simp only [ep, ok_bind, e]
        refine ⟨fun _ => hk, q', by simp, hh, by omega, ?_, by omega, by simp, by simp, fun _ j hj hj' => ?_⟩
        · rw [e2, List.length_append]; omega
        · rw [e4 j (by omega), p4 j (by omega) (by unfold Queue.cap at e3; omega)]

/-- `place` of the empty list changes nothing (spec 41 R86, R92). -/
theorem Queue.place_nil (g : Config) (q : Queue w) : q.place g [] = .ok (q, false) := rfl

/-- `normalize` on a queue that holds `l` (spec 41 R98): it holds `l` still. -/
theorem Queue.Holds.normalize {q : Queue w} {l : List (BitVec w)} (g : Config) (h : q.Holds l) :
    (q.h = 0 ∧ q.normalize g = .ok (q, false)) ∨
    (q.h ≠ 0 ∧ 5 * q.size < 4 * q.cap ∧
      ∃ q', q.normalize g = .ok (q', false) ∧ q'.Holds l ∧ q'.h = 0 ∧ q'.t = l.length ∧ q'.cap = q.cap ∧
        WrittenOnly q q' 0 l.length) ∨
    (q.h ≠ 0 ∧ 4 * q.cap ≤ 5 * q.size ∧ q.cap + q.cap / 5 ≤ g.memLimit ∧
      ∃ q', q.normalize g = .ok (q', true) ∧ q'.Holds l ∧ q'.h = 0 ∧ q'.t = l.length ∧ q'.cap = q.cap + q.cap / 5 ∧
        RestFree q') ∨
    (q.h ≠ 0 ∧ 4 * q.cap ≤ 5 * q.size ∧ g.memLimit < q.cap + q.cap / 5 ∧
      q.normalize g = raise .allocationFailure) := by
  unfold Queue.normalize
  by_cases h0 : q.h = 0
  · exact .inl ⟨h0, by simp [h0]⟩
  · by_cases h1 : 5 * q.size < 4 * q.cap
    · obtain ⟨p, ep, hp⟩ := h.compact
      exact .inr (.inl ⟨h0, h1, p, by simp [h0, h1, ep], hp⟩)
    · rcases h.grow g (q.cap / 5) with ⟨hk, e⟩ | ⟨hk, p, ep, hp⟩
      · exact .inr (.inr (.inr ⟨h0, by omega, hk, by simp [h0, h1, e]⟩))
      · exact .inr (.inr (.inl ⟨h0, by omega, hk, p, by simp [h0, h1, ep], hp⟩))

/-! ## The form of a queue is kept by every queue operation -/

theorem Queue.WF.pop {limit : Nat} {q : Queue w} (h : q.WF limit) {k : Nat} (hk : k ≤ q.size) : (q.pop k).WF limit := by
  obtain ⟨hc, l, hl⟩ := Queue.wf_iff.mp h
  exact Queue.wf_iff.mpr ⟨hc, _, hl.pop (by rw [hl.length]; exact hk)⟩

theorem Queue.WF.place {g : Config} {q q' : Queue w} {m : List (BitVec w)} {r : Bool} (h : q.WF g.memLimit)
    (hp : q.place g m = .ok (q', r)) : q'.WF g.memLimit := by
  obtain ⟨hc, l, hl⟩ := Queue.wf_iff.mp h
  by_cases hm : m.length = 0
  · have : m = [] := List.length_eq_zero_iff.mp hm
    subst this
    simp only [Queue.place_nil, Except.ok.injEq, Prod.mk.injEq] at hp
    exact hp.1 ▸ h
  · rcases hl.place g hm with ⟨-, -, e⟩ | ⟨hgr, p, e, hh, -, -, e3, -⟩
    · simp [e] at hp
    · simp only [e, Except.ok.injEq, Prod.mk.injEq] at hp
      obtain ⟨rfl, -⟩ := hp
      refine Queue.wf_iff.mpr ⟨?_, _, hh⟩
      rw [e3]
      by_cases hr : q.room m.length = .growth
      · exact hgr hr
      · unfold Queue.capAfter
        cases hroom : q.room m.length <;> simp_all

theorem Queue.WF.normalize {g : Config} {q q' : Queue w} {r : Bool} (h : q.WF g.memLimit)
    (hp : q.normalize g = .ok (q', r)) : q'.WF g.memLimit := by
  obtain ⟨hc, l, hl⟩ := Queue.wf_iff.mp h
  rcases hl.normalize g with ⟨-, e⟩ | ⟨-, -, p, e, hh, -, -, e3, -⟩ | ⟨-, -, hk, p, e, hh, -, -, e3, -⟩ | ⟨-, -, -, e⟩
  · simp only [e, Except.ok.injEq, Prod.mk.injEq] at hp
    exact hp.1 ▸ h
  · simp only [e, Except.ok.injEq, Prod.mk.injEq] at hp
    exact hp.1 ▸ Queue.wf_iff.mpr ⟨by omega, _, hh⟩
  · simp only [e, Except.ok.injEq, Prod.mk.injEq] at hp
    exact hp.1 ▸ Queue.wf_iff.mpr ⟨by omega, _, hh⟩
  · simp [e] at hp

/-- Reset leaves every space in its form. -/
theorem resetOf_memory_wf {g : Config} (hg : g.Valid) : Memory.wf (State.resetOf g) := by
  refine ⟨?_, ?_, ?_⟩
  · intro q hq
    obtain ⟨-, rfl⟩ := List.mem_replicate.mp hq
    exact Queue.fresh_wf hg.2.2.2.2.2.1
  · intro x hx
    obtain ⟨-, rfl⟩ := List.mem_replicate.mp hx
    exact Queue.fresh_wf (Nat.zero_le _)
  · intro o ho x hx
    obtain ⟨-, rfl⟩ := List.mem_replicate.mp ho
    simp at hx

end Sys2Proof.Machine
end

