-- ==== Sys2Proof/Laws/PerInstr.lean ====
section
/-! SUPPORT. One lemma per instruction: the header alone tells the length of the command (spec 30 R81). -/

namespace Sys2Proof.Laws.HeaderTellsLength

/-- The words of an instruction are a header, whose opcode is the instruction's, and as many operand words as its row's format
reads off the header. -/
def Statement (i : Instr) : Prop :=
  i.Encodable → ∃ hdr ops, encode i = hdr :: ops ∧ hdrOpc hdr = i.opcode.code ∧ hdrUnit hdr = i.unitField ∧
    ops.length = i.opcode.row.format.operandWords (hdrImm hdr)

theorem fpush (u : BitVec 8) (e : Word) : Statement (.fpush u e) := by
  intro _
  exact ⟨_, _, rfl, hdrOpc_header _ _ _, hdrUnit_header _ _ _, rfl⟩

theorem fpushn (u : BitVec 8) (es : List Word) : Statement (.fpushn u es) := by
  intro h
  refine ⟨_, _, rfl, hdrOpc_header _ _ _, hdrUnit_header _ _ _, ?_⟩
  have h' : es.length ≤ 65535 := h
  simp [Opcode.row, Instr.opcode, Format.operandWords]
  omega

theorem fpop (u : BitVec 8) (n : BitVec 16) : Statement (.fpop u n) := by
  intro _
  exact ⟨_, _, rfl, hdrOpc_header _ _ _, hdrUnit_header _ _ _, rfl⟩

theorem fpopu (u : BitVec 8) (e : Word) : Statement (.fpopu u e) := by
  intro _
  exact ⟨_, _, rfl, hdrOpc_header _ _ _, hdrUnit_header _ _ _, rfl⟩

theorem fpull (u : BitVec 8) (r : Bool) (n : BitVec 15) : Statement (.fpull u r n) := by
  intro _
  exact ⟨_, _, rfl, hdrOpc_header _ _ _, hdrUnit_header _ _ _, rfl⟩

theorem fpullu (u : BitVec 8) (r : Bool) (e : Word) : Statement (.fpullu u r e) := by
  intro _
  exact ⟨_, _, rfl, hdrOpc_header _ _ _, hdrUnit_header _ _ _, rfl⟩

theorem ffind (u : BitVec 8) (e : Word) : Statement (.ffind u e) := by
  intro _
  exact ⟨_, _, rfl, hdrOpc_header _ _ _, hdrUnit_header _ _ _, rfl⟩

theorem fnorm (u : BitVec 8) : Statement (.fnorm u) := by
  intro _
  exact ⟨_, _, rfl, hdrOpc_header _ _ _, hdrUnit_header _ _ _, rfl⟩

theorem fsize (u : BitVec 8) : Statement (.fsize u) := by
  intro _
  exact ⟨_, _, rfl, hdrOpc_header _ _ _, hdrUnit_header _ _ _, rfl⟩

theorem fcap (u : BitVec 8) : Statement (.fcap u) := by
  intro _
  exact ⟨_, _, rfl, hdrOpc_header _ _ _, hdrUnit_header _ _ _, rfl⟩

theorem fempty (u : BitVec 8) : Statement (.fempty u) := by
  intro _
  exact ⟨_, _, rfl, hdrOpc_header _ _ _, hdrUnit_header _ _ _, rfl⟩

theorem crc8 (n : BitVec 16) (ws : List Word) : Statement (.crc8 n ws) := by
  intro h
  exact ⟨_, _, rfl, hdrOpc_header _ _ _, hdrUnit_header _ _ _, by simpa [Opcode.row, Instr.opcode, Format.operandWords] using h⟩

theorem mkrd (dev : Byte) (reg : BitVec 7) : Statement (.mkrd dev reg) := by
  intro _
  exact ⟨_, _, rfl, hdrOpc_header _ _ _, hdrUnit_header _ _ _, rfl⟩

theorem mkwr (dev : Byte) (reg : BitVec 7) (v : Word) : Statement (.mkwr dev reg v) := by
  intro _
  exact ⟨_, _, rfl, hdrOpc_header _ _ _, hdrUnit_header _ _ _, rfl⟩

theorem parse (w1 w2 : Word) : Statement (.parse w1 w2) := by
  intro _
  exact ⟨_, _, rfl, hdrOpc_header _ _ _, hdrUnit_header _ _ _, rfl⟩

theorem tstat (h : Handle) : Statement (.tstat h) := by
  intro _
  exact ⟨_, _, rfl, hdrOpc_header _ _ _, hdrUnit_header _ _ _, rfl⟩

theorem tval (h : Handle) : Statement (.tval h) := by
  intro _
  exact ⟨_, _, rfl, hdrOpc_header _ _ _, hdrUnit_header _ _ _, rfl⟩

theorem trel (h : Handle) : Statement (.trel h) := by
  intro _
  exact ⟨_, _, rfl, hdrOpc_header _ _ _, hdrUnit_header _ _ _, rfl⟩

theorem chnew (c : BitVec 8) : Statement (.chnew c) := by
  intro _
  exact ⟨_, _, rfl, hdrOpc_header _ _ _, hdrUnit_header _ _ _, rfl⟩

theorem chrd (c : BitVec 8) (dev : Byte) (reg : BitVec 7) (w1 : Word) : Statement (.chrd c dev reg w1) := by
  intro _
  exact ⟨_, _, rfl, hdrOpc_header _ _ _, hdrUnit_header _ _ _, rfl⟩

theorem chwr (c : BitVec 8) (dev : Byte) (reg : BitVec 7) (v w2 : Word) : Statement (.chwr c dev reg v w2) := by
  intro _
  exact ⟨_, _, rfl, hdrOpc_header _ _ _, hdrUnit_header _ _ _, rfl⟩

theorem hret (c : BitVec 8) : Statement (.hret c) := by
  intro _
  exact ⟨_, _, rfl, hdrOpc_header _ _ _, hdrUnit_header _ _ _, rfl⟩

theorem chstat (c : BitVec 8) : Statement (.chstat c) := by
  intro _
  exact ⟨_, _, rfl, hdrOpc_header _ _ _, hdrUnit_header _ _ _, rfl⟩

theorem evcomp (c : BitVec 8) (flags : BitVec 2) (w1 w2 : Word) : Statement (.evcomp c flags w1 w2) := by
  intro _
  exact ⟨_, _, rfl, hdrOpc_header _ _ _, hdrUnit_header _ _ _, rfl⟩

theorem evtick (c : BitVec 8) : Statement (.evtick c) := by
  intro _
  exact ⟨_, _, rfl, hdrOpc_header _ _ _, hdrUnit_header _ _ _, rfl⟩

end Sys2Proof.Laws.HeaderTellsLength
end

