-- ==== Sys2Proof/Laws/Steps.lean ====
section
/-! SUPPORT. What a step, an access to a table, an operand form and each procedure of the sequencer can do: one lemma each. -/

namespace Sys2Proof.Machine

/-! ## Steps and faults -/

theorem runStep_eq_next {opc u : BitVec 8} {s t : State} {body : Op State} :
    runStep opc u s body = .next t ↔
      (s.faulted = true ∧ s = t) ∨
      (s.faulted = false ∧ (body = .ok t ∨ ∃ e, body = raise e ∧ s.latch e u opc = t)) := by
  unfold runStep raise
  cases hf : s.faulted
  · cases body with
    | ok b => simp
    | error e => cases e <;> simp
  · simp

@[simp] theorem runStep_of_faulted {opc u : BitVec 8} {s : State} {body : Op State} (h : s.faulted = true) :
    runStep opc u s body = .next s := by simp [runStep, h]

theorem runStep_ok {opc u : BitVec 8} {s t : State} (h : s.faulted = false) : runStep opc u s (.ok t) = .next t := by
  simp [runStep, h]

theorem runStep_raise {opc u : BitVec 8} {s : State} {e : FaultCode} (h : s.faulted = false) :
    runStep opc u s (raise e) = .next (s.latch e u opc) := by simp [runStep, raise, h]

/-- A step is never refused. -/
theorem runStep_ne_refused {opc u : BitVec 8} {s : State} {body : Op State} {r : Refusal} :
    runStep opc u s body ≠ .refused r := by
  unfold runStep
  split
  · simp
  · split <;> simp

/-- A step stops only where its rule would leave a space. -/
theorem runStep_eq_fault {opc u : BitVec 8} {s : State} {body : Op State} {r : Fault} :
    runStep opc u s body = .fault r ↔ s.faulted = false ∧ body = outside := by
  unfold runStep outside
  cases hf : s.faulted
  · cases body with
    | ok b => simp
    | error e => cases e <;> simp
  · simp

/-! ## Tables -/

theorem getFifo_eq_ok {s : State} {k : Nat} {q : Queue 32} : s.getFifo k = .ok q ↔ s.fifo[k]? = some q := by
  unfold State.getFifo; split <;> simp_all

theorem getCh_eq_ok {s : State} {c : Nat} {x : Channel} : s.getCh c = .ok x ↔ s.ch[c]? = some x := by
  unfold State.getCh; split <;> simp_all

theorem channelUnit_eq_ok {s : State} {c : Nat} {x : Channel} :
    s.channelUnit c = .ok x ↔ c < s.cfg.numChannels ∧ s.ch[c]? = some x := by
  unfold State.channelUnit
  split
  · simp only [raise_ne_ok, false_iff, not_and]; omega
  · rw [getCh_eq_ok]; constructor
    · exact fun h => ⟨by omega, h⟩
    · exact fun h => h.2

theorem channelUnit_badUnit {s : State} {c : Nat} (h : s.cfg.numChannels ≤ c) : s.channelUnit c = raise .badUnit := by
  simp [State.channelUnit, h]

theorem getTkt_eq_ok {s : State} {h : Handle} {x : Ticket} : s.getTkt h = .ok x ↔ s.ticket? h = some x := by
  unfold State.getTkt; split <;> simp_all

theorem ticketOf_eq_ok {s : State} {h : Handle} {x : Ticket} :
    s.ticketOf h = .ok x ↔ s.validHandle h = true ∧ s.ticket? h = some x := by
  unfold State.ticketOf
  split
  · simp [getTkt_eq_ok, *]
  · simp [*]

theorem ticketOf_badHandle {s : State} {h : Handle} (hv : s.validHandle h = false) : s.ticketOf h = raise .badHandle := by
  simp [State.ticketOf, hv]

/-- The slot of a handle of the table, after it is written, holds what was written. -/
theorem ticket?_setSlot_same {s : State} {h : Handle} {o : Option Ticket} (h0 : h ≠ 0#16) (hl : h.toNat ≤ s.tkt.length) :
    (s.setSlot h o).ticket? h = o := by
  have hp : 0 < h.toNat := by
    rcases Nat.eq_zero_or_pos h.toNat with e | e
    · exact absurd (BitVec.eq_of_toNat_eq e) h0
    · exact e
  simp only [State.ticket?, h0, if_false, State.setSlot_tkt]
  rw [List.getElem?_set_self (by omega)]
  rfl

/-- Writing a slot leaves every other handle as it was. -/
theorem ticket?_setSlot_other {s : State} {h g : Handle} {o : Option Ticket} (h0 : h ≠ 0#16) (hg : g ≠ h) :
    (s.setSlot h o).ticket? g = s.ticket? g := by
  unfold State.ticket?
  split
  · rfl
  · rename_i hg0
    simp only [State.setSlot_tkt]
    rw [List.getElem?_set_ne]
    intro e
    have a : h.toNat ≠ 0 := fun e => h0 (BitVec.eq_of_toNat_eq e)
    have b : g.toNat ≠ 0 := fun e => hg0 (BitVec.eq_of_toNat_eq e)
    exact hg (BitVec.eq_of_toNat_eq (by omega))

/-- The least free slot. -/
theorem freeSlot_eq_some {ts : List (Option Ticket)} {i : Nat} :
    freeSlot ts = some i ↔ ts[i]? = some none ∧ ∀ j < i, ∃ x, ts[j]? = some (some x) := by
  induction ts generalizing i with
  | nil => simp [freeSlot]
  | cons t ts ih =>
    cases t with
    | none =>
      simp only [freeSlot, Option.some.injEq]
      constructor
      · rintro rfl; simp
      · rintro ⟨-, h⟩
        rcases Nat.eq_zero_or_pos i with rfl | hi
        · rfl
        · obtain ⟨x, hx⟩ := h 0 hi; simp at hx
    | some x =>
      simp only [freeSlot, Option.map_eq_some_iff, ih]
      constructor
      · rintro ⟨k, ⟨h1, h2⟩, rfl⟩
        refine ⟨by simpa using h1, ?_⟩
        rintro (_ | j) hj
        · exact ⟨x, rfl⟩
        · simpa using h2 j (by omega)
      · rintro ⟨h1, h2⟩
        cases i with
        | zero => simp at h1
        | succ k => exact ⟨k, ⟨by simpa using h1, fun j hj => by simpa using h2 (j + 1) (by omega)⟩, rfl⟩

/-- No slot is free exactly where every slot is live. -/
theorem freeSlot_eq_none {ts : List (Option Ticket)} : freeSlot ts = none ↔ ∀ o ∈ ts, o ≠ none := by
  induction ts with
  | nil => simp [freeSlot]
  | cons t ts ih => cases t <;> simp [freeSlot, ih]

/-! ## Operands -/

/-- The UNIT byte of standalone FIFO or channel `k`. -/
theorem unitIndex_ofNat {k : Nat} (h : k < 128) : unitIndex (BitVec.ofNat 8 k) = k := by
  simp [unitIndex]; omega

theorem unitIsChannel_ofNat {k : Nat} (h : k < 128) : unitIsChannel (BitVec.ofNat 8 k) = false := by
  rw [unitIsChannel, BitVec.getLsbD_ofNat, Nat.testBit_lt_two_pow (show k < 2 ^ 7 from h), Bool.and_false]

/-- The UNIT byte of the ticket queue of channel `c`. -/
theorem unitIndex_queue {c : Nat} (h : c < 128) : unitIndex (BitVec.ofNat 8 (128 + c)) = c := by
  simp [unitIndex]; omega

theorem unitIsChannel_queue {c : Nat} (h : c < 128) : unitIsChannel (BitVec.ofNat 8 (128 + c)) = true := by
  have e : (128 + c).testBit 7 = true := by
    simpa [Nat.testBit_lt_two_pow (show c < 2 ^ 7 from h)] using Nat.testBit_two_pow_add_eq c 7
  rw [unitIsChannel, BitVec.getLsbD_ofNat, e]
  rfl

theorem qsel_eq_ok {s : State} {u : BitVec 8} {m : Bool} {sel : Selected} :
    s.qsel u m = .ok sel ↔
      (unitIsChannel u = true ∧ m = false ∧ unitIndex u < s.cfg.numChannels ∧
        ∃ x, s.ch[unitIndex u]? = some x ∧ x.init = true ∧ .chan (unitIndex u) x.q = sel) ∨
      (unitIsChannel u = false ∧ unitIndex u < s.cfg.numFifos ∧
        ∃ q, s.fifo[unitIndex u]? = some q ∧ .fifo (unitIndex u) q = sel) := by
  unfold State.qsel
  cases hu : unitIsChannel u
  · by_cases hk : unitIndex u ≥ s.cfg.numFifos
    · simp [hk]
    · simp only [if_false, hk, bind_eq_ok, getFifo_eq_ok, Except.ok.injEq, Bool.false_eq_true, false_and, true_and, false_or]
      constructor
      · exact fun h => ⟨by omega, h⟩
      · exact fun h => h.2
  · by_cases hk : unitIndex u ≥ s.cfg.numChannels
    · simp [hk]
    · simp only [if_true, if_false, hk, bind_eq_ok, getCh_eq_ok, true_and, Bool.true_eq_false, false_and, or_false]
      constructor
      · rintro ⟨x, hx, h⟩
        cases hi : x.init <;> cases m <;> simp [hi] at h
        exact ⟨rfl, by omega, x, hx, hi, h⟩
      · rintro ⟨rfl, -, x, hx, hi, h⟩
        exact ⟨x, hx, by simp [hi, h]⟩

theorem qselMut_eq_ok {s : State} {u : BitVec 8} {r : Nat × Queue 32} :
    s.qselMut u = .ok r ↔
      unitIsChannel u = false ∧ unitIndex u < s.cfg.numFifos ∧ r.1 = unitIndex u ∧ s.fifo[unitIndex u]? = some r.2 := by
  unfold State.qselMut
  simp only [bind_eq_ok, qsel_eq_ok]
  constructor
  · rintro ⟨sel, (⟨-, h, -⟩ | ⟨h1, h2, q, hq, rfl⟩), h⟩
    · cases h
    · simp only [Except.ok.injEq] at h
      subst h
      exact ⟨h1, h2, rfl, hq⟩
  · rintro ⟨h1, h2, h3, h4⟩
    exact ⟨_, .inr ⟨h1, h2, r.2, h4, rfl⟩, by simp [← h3]⟩

theorem element_eq_ok {sel : Selected} {e e' : Word} :
    sel.element e = .ok e' ↔ e = e' ∧ ((∃ c q, sel = .chan c q) → e.extractLsb' 16 16 = 0#16) := by
  cases sel with
  | fifo k q => simp [Selected.element]
  | chan c q =>
    simp only [Selected.element]
    split <;> simp_all

theorem liveWords_fifo {k : Nat} {q : Queue 32} : (Selected.fifo k q).liveWords = q.live := rfl

theorem liveWords_chan_eq_ok {c : Nat} {q : Queue 16} {l : List Word} :
    (Selected.chan c q).liveWords = .ok l ↔ ∃ m, q.live = .ok m ∧ m.map (fun x => x.zeroExtend 32) = l := by
  simp [Selected.liveWords, bind_eq_ok]

theorem handlerId_eq_ok {w : Word} {i : BitVec 16} :
    handlerId w = .ok i ↔ w.extractLsb' 16 16 = 0#16 ∧ w.extractLsb' 0 16 = i := by
  unfold handlerId; split <;> simp_all

theorem crc8Operands_eq_ok {n : BitVec 16} {ws : List Word} {bs : List Byte} :
    crc8Operands n ws = .ok bs ↔ crc8OperandsLegal n ws ∧ (unpackWords ws).take n.toNat = bs := by
  unfold crc8Operands
  by_cases h : n.toNat = 0 ∨ n.toNat > 255
  · simp only [h, if_true, raise_ne_ok, false_iff, not_and]
    rintro ⟨h1, h2, -⟩; omega
  · simp only [h, if_false]
    split
    · rename_i ha
      simp only [raise_ne_ok, false_iff, not_and]
      rintro ⟨-, -, h3⟩
      simp only [List.any_eq_true, bne_iff_ne, ne_eq] at ha
      obtain ⟨b, hb, hb'⟩ := ha
      exact absurd (h3 b hb) hb'
    · rename_i ha
      simp only [List.any_eq_true, bne_iff_ne, ne_eq, not_exists, not_and, Decidable.not_not] at ha
      simp only [Except.ok.injEq]
      constructor
      · exact fun e => ⟨⟨by omega, by omega, ha⟩, e⟩
      · exact fun e => e.2

variable {w : Nat}

theorem findPos_le (l : List (BitVec w)) (e : BitVec w) : findPos l e ≤ l.length := by
  induction l with
  | nil => simp [findPos]
  | cons x xs ih => simp only [findPos]; split <;> simp; omega

/-- The position found is the size exactly where no element equals `e`. -/
theorem findPos_eq_length {l : List (BitVec w)} {e : BitVec w} : findPos l e = l.length ↔ e ∉ l := by
  induction l with
  | nil => simp [findPos]
  | cons x xs ih =>
    simp only [findPos]
    split
    · simp_all
    · rename_i h
      simp [ih, Ne.symm h]

/-- A list split at its first `e`. -/
theorem findPos_append {a b : List (BitVec w)} {e : BitVec w} (h : e ∉ a) : findPos (a ++ e :: b) e = a.length := by
  induction a with
  | nil => simp [findPos]
  | cons x xs ih =>
    simp only [List.mem_cons, not_or] at h
    simp [findPos, Ne.symm h.1, ih h.2]

/-! ## The sequencer -/

theorem pstartOf_eq_ok {g : Config} {c : Nat} {h : Handle} {x : Ticket} {o : Output} :
    pstartOf g c h x = .ok o ↔
      (x.kind = .read ∧ ∃ tx, memRead x.frame 0 4 = .ok tx ∧ .pstart c tx 4 (.reply h) 8 g.timeoutBitTimes = o) ∨
      (x.kind = .write ∧ ∃ tx, memRead x.frame 0 8 = .ok tx ∧ .pstart c tx 8 (.frame h) 8 g.timeoutBitTimes = o) := by
  unfold pstartOf
  cases x.kind <;> simp [bind_eq_ok]

/-- `start_transfer` that answers: the channel was not armed, its head is a live ticket whose bytes hold values; the peripheral
is started and PSTART put out, and nothing else changes (spec 44 R126). -/
theorem startTransfer_eq_ok {s s' : State} {c : Nat} :
    s.startTransfer c = .ok s' ↔
      ∃ x h t o, s.ch[c]? = some x ∧ x.per.armed = false ∧ x.q.head = .ok h ∧ s.ticket? h = some t ∧
        pstartOf s.cfg c h t = .ok o ∧ (s.setCh c { x with per := Periph.started }).emit o = s' := by
  unfold State.startTransfer
  simp only [bind_eq_ok, getCh_eq_ok]
  constructor
  · rintro ⟨x, hx, h⟩
    cases ha : x.per.armed
    · simp only [ha, Bool.false_eq_true, if_false, bind_eq_ok, getTkt_eq_ok, Except.ok.injEq] at h
      obtain ⟨h, hh, t, ht, o, ho, e⟩ := h
      exact ⟨x, h, t, o, hx, ha, hh, ht, ho, e⟩
    · simp [ha] at h
  · rintro ⟨x, h, t, o, hx, ha, hh, ht, ho, e⟩
    refine ⟨x, hx, ?_⟩
    simp only [ha, Bool.false_eq_true, if_false, bind_eq_ok, getTkt_eq_ok, Except.ok.injEq]
    exact ⟨h, hh, t, ht, o, ho, e⟩

/-- `enqueue` that answers (spec 44 R125). -/
theorem enqueue_eq_ok {s s' : State} {c : Nat} {h : Handle} :
    s.enqueue c h = .ok s' ↔
      ∃ x r, s.ch[c]? = some x ∧ x.q.place s.cfg [h] = .ok r ∧
        ((x.q.size = 0 ∧ (s.setCh c { x with q := r.1 }).startTransfer c = .ok s') ∨
          (x.q.size ≠ 0 ∧ s.setCh c { x with q := r.1 } = s')) := by
  unfold State.enqueue
  simp only [bind_eq_ok, getCh_eq_ok]
  constructor
  · rintro ⟨x, hx, r, hr, h⟩
    split at h
    · exact ⟨x, r, hx, hr, .inl ⟨‹_›, h⟩⟩
    · exact ⟨x, r, hx, hr, .inr ⟨‹_›, by simpa using h⟩⟩
  · rintro ⟨x, r, hx, hr, ⟨h0, h⟩ | ⟨h0, h⟩⟩
    · exact ⟨x, hx, r, hr, by simp [h0, h]⟩
    · exact ⟨x, hx, r, hr, by simp [h0, h]⟩

/-- `classify` (spec 44 R128). -/
theorem classify_eq_ok {x : Ticket} {b : Bool} {st : Status} :
    classify x b = .ok st ↔
      (b = true ∧ st = .timedOut) ∨
      (b = false ∧ ∃ buf, memRead x.inbound 0 8 = .ok buf ∧
        st = (if (parse buf).1 then .completedOk else .crcError)) := by
  unfold classify
  cases b
  · simp only [Bool.false_eq_true, if_false, bind_eq_ok, Except.ok.injEq, false_and, true_and, false_or]
    exact exists_congr fun _ => and_congr_right fun _ => eq_comm
  · simp only [if_true, Except.ok.injEq, true_and, Bool.true_eq_false, false_and, or_false]
    exact eq_comm

/-- `invoke_handler`: no handler, the default release, or the entry of a host handler (spec 44 R129). -/
theorem invokeHandler_cases (s : State) (c : Nat) (h : Handle) (st : Status) (hid : BitVec 16) :
    (hid = hidNone ∧ s.invokeHandler c h st hid = s) ∨
    (hid = hidDefaultRelease ∧ s.invokeHandler c h st hid = s.release h) ∨
    (hid ≠ hidNone ∧ hid ≠ hidDefaultRelease ∧ s.invokeHandler c h st hid =
      (s.emit (.notify (notifyN0 (BitVec.ofNat 7 c) st) (notifyN1 h hid))).setHphase (.active (BitVec.ofNat 7 c) h)) := by
  unfold State.invokeHandler
  split
  · exact .inl ⟨‹_›, rfl⟩
  · split
    · exact .inr (.inl ⟨‹_›, rfl⟩)
    · exact .inr (.inr ⟨‹_›, ‹_›, rfl⟩)

/-- `continuation` that answers (spec 44 R130). -/
theorem continuation_eq_ok {s s' : State} {c : Nat} :
    s.continuation c = .ok s' ↔
      ∃ x, s.ch[c]? = some x ∧
        ((1 ≤ x.q.size ∧ x.per.armed = false ∧
            ((s.cfg.nextStart = .deferred ∧ s.setCh c { x with idle := 0x00#8 } = s') ∨
              (s.cfg.nextStart = .immediate ∧ s.startTransfer c = .ok s'))) ∨
          (¬(1 ≤ x.q.size ∧ x.per.armed = false) ∧ s = s')) := by
  unfold State.continuation
  simp only [bind_eq_ok, getCh_eq_ok]
  refine exists_congr fun x => and_congr_right fun _ => ?_
  by_cases hc : 1 ≤ x.q.size ∧ x.per.armed = false
  · cases hn : s.cfg.nextStart <;> simp [hc]
  · simp only [hc, if_false, not_false_eq_true, true_and, Except.ok.injEq]
    constructor
    · exact .inr
    · rintro (⟨h1, h2, -⟩ | h)
      · exact absurd ⟨h1, h2⟩ hc
      · exact h

/-- `on_completion` that answers (spec 44 R127): the head popped, the peripheral reset, PRESET put out, the ticket classified
and its handler invoked; the continuation runs unless a handler is active. -/
theorem onCompletion_eq_ok {s s' : State} {c : Nat} :
    s.onCompletion c = .ok s' ↔
      ∃ x h t st s3, s.ch[c]? = some x ∧ x.per.armed = true ∧ x.q.size ≠ 0 ∧ x.q.head = .ok h ∧ s.ticket? h = some t ∧
        classify t x.per.stTo = .ok st ∧
        (((s.setCh c { x with q := x.q.pop 1, per := Periph.off }).emit (.preset c)).setTkt h
          { t with status := st }).invokeHandler c h st t.hid = s3 ∧
        ((s3.hphase = .none ∧ s3.continuation c = .ok s') ∨ (s3.hphase ≠ .none ∧ s3 = s')) := by
  unfold State.onCompletion
  simp only [bind_eq_ok, getCh_eq_ok]
  constructor
  · rintro ⟨x, hx, h⟩
    split at h
    · simp at h
    · rename_i hc
      simp only [not_or, Bool.not_eq_false] at hc
      simp only [bind_eq_ok, getTkt_eq_ok, State.emit_ticket?, State.setCh_ticket?] at h
      obtain ⟨h, hh, t, ht, st, hst, e⟩ := h
      refine ⟨x, h, t, st, _, hx, hc.1, hc.2, hh, ht, hst, rfl, ?_⟩
      split at e
      · exact .inl ⟨‹_›, e⟩
      · exact .inr ⟨‹_›, by simpa using e⟩
  · rintro ⟨x, h, t, st, _, hx, ha, hs, hh, ht, hst, rfl, e⟩
    refine ⟨x, hx, ?_⟩
    rw [if_neg (by simp [ha, hs])]
    simp only [bind_eq_ok, getTkt_eq_ok, State.emit_ticket?, State.setCh_ticket?]
    refine ⟨h, hh, t, ht, st, hst, ?_⟩
    rcases e with ⟨e1, e2⟩ | ⟨e1, e2⟩
    · rw [if_pos e1, e2]
    · rw [if_neg e1, e2]

/-- `idle_tick` that answers (spec 44 R131). -/
theorem idleTick_eq_ok {s s' : State} {c : Nat} :
    s.idleTick c = .ok s' ↔
      ∃ x, s.ch[c]? = some x ∧
        ((x.idle = notIdle ∧ s = s') ∨
          (x.idle ≠ notIdle ∧ s.cfg.debounceT < x.idle.toNat + 1 ∧ x.q.size ≠ 0 ∧
            ∃ s1 x1, s.startTransfer c = .ok s1 ∧ s1.ch[c]? = some x1 ∧ s1.setCh c { x1 with idle := notIdle } = s') ∨
          (x.idle ≠ notIdle ∧ x.idle.toNat + 1 ≤ s.cfg.debounceT ∧ s.setCh c { x with idle := x.idle + 1#8 } = s')) := by
  unfold State.idleTick
  simp only [bind_eq_ok, getCh_eq_ok]
  refine exists_congr fun x => and_congr_right fun _ => ?_
  by_cases h1 : x.idle = notIdle
  · simp [h1]
  · by_cases h2 : x.idle.toNat + 1 > s.cfg.debounceT
    · by_cases h3 : x.q.size = 0
      · simp [h1, h2, h3]; omega
      · rw [if_neg h1, if_pos h2, if_neg h3]
        simp only [bind_eq_ok, getCh_eq_ok, Except.ok.injEq]
        constructor
        · rintro ⟨s1, a, x1, b, e⟩; exact .inr (.inl ⟨h1, h2, h3, s1, x1, a, b, e⟩)
        · rintro (⟨h, -⟩ | ⟨-, -, -, s1, x1, a, b, e⟩ | ⟨-, h, -⟩)
          · exact absurd h h1
          · exact ⟨s1, a, x1, b, e⟩
          · omega
    · rw [if_neg h1, if_neg h2]
      simp only [Except.ok.injEq]
      constructor
      · exact fun e => .inr (.inr ⟨h1, by omega, e⟩)
      · rintro (⟨h, -⟩ | ⟨-, h, -⟩ | ⟨-, -, e⟩)
        · exact absurd h h1
        · omega
        · exact e

/-- `tkt_alloc` that answers (spec 43 R115). -/
theorem tktAlloc_eq_ok {s : State} {c : Nat} {k : Kind} {dev : Byte} {reg : BitVec 7} {v : Word} {hid : BitVec 16}
    {r : State × Handle} :
    s.tktAlloc c k dev reg v hid = .ok r ↔
      ∃ i, freeSlot s.tkt = some i ∧ r.2 = BitVec.ofNat 16 (i + 1) ∧
        r.1 = s.setTkt (BitVec.ofNat 16 (i + 1)) (newTicket s.cfg.bitPacking c k dev reg v hid) := by
  unfold State.tktAlloc
  cases freeSlot s.tkt with
  | none => simp
  | some i =>
    simp only [Except.ok.injEq, Option.some.injEq, exists_eq_left']
    constructor
    · rintro rfl; exact ⟨rfl, rfl⟩
    · rintro ⟨a, b⟩; exact Prod.ext b.symm a.symm

theorem createdChannel_eq_ok {s : State} {c : Nat} {x : Channel} :
    s.createdChannel c = .ok x ↔ c < s.cfg.numChannels ∧ s.ch[c]? = some x ∧ x.init = true := by
  unfold State.createdChannel
  simp only [bind_eq_ok, channelUnit_eq_ok]
  constructor
  · rintro ⟨y, ⟨h1, h2⟩, h⟩
    cases hi : y.init <;> simp [hi] at h
    subst h
    exact ⟨h1, h2, hi⟩
  · rintro ⟨h1, h2, h3⟩
    exact ⟨x, ⟨h1, h2⟩, by simp [h3]⟩

/-- CHRD and CHWR that answer (spec 44 R134, R135). -/
theorem submit_eq_ok {s s' : State} {c : Nat} {k : Kind} {dev : Byte} {reg : BitVec 7} {v hw : Word} :
    s.submit c k dev reg v hw = .ok s' ↔
      ∃ x hid a s1, c < s.cfg.numChannels ∧ s.ch[c]? = some x ∧ x.init = true ∧ handlerId hw = .ok hid ∧
        s.tktAlloc c k dev reg v hid = .ok a ∧ a.1.enqueue c a.2 = .ok s1 ∧ s1.respondOk [a.2.zeroExtend 32] = s' := by
  unfold State.submit
  simp only [bind_eq_ok, createdChannel_eq_ok, Except.ok.injEq]
  constructor
  · rintro ⟨x, ⟨h1, h2, h3⟩, hid, h4, a, h5, s1, h6, h7⟩
    exact ⟨x, hid, a, s1, h1, h2, h3, h4, h5, h6, h7⟩
  · rintro ⟨x, hid, a, s1, h1, h2, h3, h4, h5, h6, h7⟩
    exact ⟨x, ⟨h1, h2, h3⟩, hid, h4, a, h5, s1, h6, h7⟩

/-- A delivery writes the ticket's inbound buffer and nothing else of it (spec 60 R148). -/
theorem deliver_eq_ok {x y : Ticket} {d : List Byte} :
    x.deliver d = .ok y ↔
      (x.kind = .read ∧ ∃ b, memWrite x.reply 0 d = .ok b ∧ { x with reply := b } = y) ∨
      (x.kind = .write ∧ ∃ b, memWrite x.frame 0 d = .ok b ∧ { x with frame := b } = y) := by
  unfold Ticket.deliver
  cases h : x.kind <;> simp [bind_eq_ok]

/-- A finish that answers (spec 60 R148). -/
theorem periphFinish_eq_ok {s s' : State} {c : Nat} {f : BitVec 2} {d : List Byte} :
    s.periphFinish c f d = .ok s' ↔
      ∃ x h t t', c < s.cfg.numChannels ∧ s.ch[c]? = some x ∧ f ≠ 0#2 ∧ x.per.armed = true ∧ x.per.stRx = false ∧
        x.per.stTo = false ∧ x.q.head = .ok h ∧ s.ticket? h = some t ∧ t.deliver d = .ok t' ∧
        (s.setTkt h t').setCh c { x with per := { x.per with stRx := flagRx f, stTo := flagTo f } } = s' := by
  unfold State.periphFinish
  simp only [bind_eq_ok, channelUnit_eq_ok]
  constructor
  · rintro ⟨x, ⟨h1, h2⟩, h⟩
    by_cases hf : f = 0#2
    · simp [hf] at h
    · simp only [hf, if_false] at h
      split at h
      · simp at h
      · rename_i hc
        simp only [not_or, Bool.not_eq_false, Bool.not_eq_true] at hc
        simp only [bind_eq_ok, getTkt_eq_ok, Except.ok.injEq] at h
        obtain ⟨h, a, t, b, t', d, e⟩ := h
        exact ⟨x, h, t, t', h1, h2, hf, hc.1, hc.2.1, hc.2.2, a, b, d, e⟩
  · rintro ⟨x, h, t, t', h1, h2, hf, c1, c2, c3, a, b, d, e⟩
    refine ⟨x, ⟨h1, h2⟩, ?_⟩
    rw [if_neg hf, if_neg (by simp [c1, c2, c3])]
    simp only [bind_eq_ok, getTkt_eq_ok, Except.ok.injEq]
    exact ⟨h, a, t, b, t', d, e⟩

/-- The tick take that answers (spec 60 R152). -/
theorem takeTickBody_eq_ok {s s' : State} {c : Nat} :
    s.takeTickBody c = .ok s' ↔
      ∃ x, s.ch[c]? = some x ∧
        ((x.init = true ∧ (s.setCh c { x with tickp := false }).idleTick c = .ok s') ∨
          (x.init = false ∧ s.setCh c { x with tickp := false } = s')) := by
  unfold State.takeTickBody
  simp only [bind_eq_ok, getCh_eq_ok]
  refine exists_congr fun x => and_congr_right fun _ => ?_
  cases x.init <;> simp

/-- A completion is takeable exactly where no handler runs and the channel has one pending (spec 60 R150). -/
theorem compTakeable_iff {s : State} {c : Nat} :
    s.compTakeable c = true ↔ s.hphase = .none ∧ ∃ x, s.ch[c]? = some x ∧ x.completionPending = true := by
  unfold State.compTakeable
  cases h : s.ch[c]? <;> simp

/-- A tick is takeable exactly where no handler runs and the channel has one pending (spec 60 R150). -/
theorem tickTakeable_iff {s : State} {c : Nat} :
    s.tickTakeable c = true ↔ s.hphase = .none ∧ ∃ x, s.ch[c]? = some x ∧ x.tickp = true := by
  unfold State.tickTakeable
  cases h : s.ch[c]? <;> simp

end Sys2Proof.Machine
end

