-- ==== Sys2Proof/Tests/Slice0.lean ====
section
/-! SUPPORT. Small tests: ill-formed terms, words written out from the encoding tables, single steps with the results of spec 95,
and for every statement with hypotheses a witness that meets them. -/

namespace Sys2Proof.Tests

open Sys2Proof Sys2Proof.Machine Sys2Proof.Claims

-- One theorem after the other: a thread for each would pass the memory limit of the check.
set_option Elab.async false

/-! ## Helpers -/

/-- The next state of an instruction, the state itself where there is none. -/
def after (s : State) (i : Instr) : State :=
  match exec i s with
  | .next t => t
  | .fault _ => s
  | .refused _ => s

/-- The next state of a step. -/
def stepped (s : State) : State :=
  match step s with
  | .next t => t
  | .fault _ => s
  | .refused _ => s

/-- The outcome is this next state. -/
def goesTo (r : Result) (t : State) : Bool :=
  match r with
  | .next u => decide (u = t)
  | .fault _ => false
  | .refused _ => false

theorem next_of_goesTo {r : Result} {t : State} (h : goesTo r t = true) : r = .next t := by
  cases r <;> simp_all [goesTo]

/-- Instructions one after the other. -/
def run (s : State) (is : List Instr) : State := is.foldl after s

/-- The parameters of spec 95. -/
def s0 : State := State.reset

/-- Parameters with two of each, and a small limit. -/
def g2 : Config := { Config.specVectors with numChannels := 2, numFifos := 2, memLimit := 6 }

/-- The parameters under IMMEDIATE. -/
def gI : Config := { Config.specVectors with nextStart := .immediate }

/-- f0 with a capacity, an offset and a live list, under the parameters of spec 95. -/
def withLive (g : Config) (cap h : Nat) (l : List Word) : State :=
  { State.resetOf g with
    fifo := [⟨h, h + l.length, List.replicate h none ++ l.map some ++ List.replicate (cap - h - l.length) none⟩] }

/-- f0 of a state. -/
def f0 (s : State) : Queue 32 := s.fifo.getD 0 ⟨0, 0, []⟩

/-- Capacity, offsets and live list of f0. -/
def shape (s : State) : Nat × Nat × Nat × List Word := ((f0 s).cap, (f0 s).h, (f0 s).t, (f0 s).liveList)

/-- Who moves next. -/
def sched (s : State) (ms : List Move) : State := { s with sched := ms }

/-- Channel 0 created. -/
def sNew : State := run s0 [.chnew 0#8]

/-- Channel 0 with ticket 1, a read with a host handler, in flight, and ticket 2, a write, queued. -/
def sBusy : State := run s0 [.chnew 0#8, .chrd 0#8 0#8 0x6C#7 0x0101#32, .chwr 0#8 0#8 0x10#7 7#32 0xFFFF#32]

/-- Its good reply (spec 95, X4) has arrived. -/
def sDone : State := after sBusy (.evcomp 0#8 1#2 0x5000D812#32 0x34567861#32)

/-- The completion has been taken: the handler of ticket 1 is active. -/
def sHandler : State := stepped (sched sDone [.takeComp 0])

/-- The handler has returned: the idle counter is active. -/
def sIdle : State := after sHandler (.hret 0#8)

/-- A read without a handler in flight. -/
def sRead (hid : Word) : State := run s0 [.chnew 0#8, .chrd 0#8 0#8 0#7 hid]

/-- It has timed out. -/
def sTimedOut (hid : Word) : State := after (sRead hid) (.evcomp 0#8 2#2 0#32 0#32)

/-- Two reads under IMMEDIATE, the first finished with both flags (spec 95, section 5). -/
def sImm : State :=
  run (State.resetOf gI) [.chnew 0#8, .chrd 0#8 0#8 0#7 0#32, .chrd 0#8 0#8 6#7 0#32, .evcomp 0#8 3#2 0x50000000#32 0x0000053A#32]

/-! ## Ill-formed terms -/

theorem test_illformed_fpushn_count : ¬(Instr.fpushn 0#8 (List.replicate 65536 0#32)).WellFormed := by
  change ¬(List.replicate 65536 0#32).length ≤ 65535
  rw [List.length_replicate]; omega
theorem test_illformed_crc8_zero : ¬(Instr.crc8 0#16 []).WellFormed := by decide
theorem test_illformed_crc8_256 : ¬(Instr.crc8 256#16 (List.replicate 64 0#32)).WellFormed := by decide +kernel
theorem test_illformed_crc8_words : ¬(Instr.crc8 4#16 []).WellFormed := by decide
theorem test_illformed_crc8_padding : ¬(Instr.crc8 3#16 [0x50000001#32]).WellFormed := by decide
theorem test_illformed_chrd_handler : ¬(Instr.chrd 0#8 0#8 0#7 0x00010000#32).WellFormed := by decide
theorem test_illformed_chwr_handler : ¬(Instr.chwr 0#8 0#8 0#7 0#32 0x80000000#32).WellFormed := by decide
theorem test_illformed_evcomp_flags : ¬(Instr.evcomp 0#8 0#2 0#32 0#32).WellFormed := by decide
theorem test_unencodable_fpushn : ¬(Instr.fpushn 0#8 (List.replicate 65536 0#32)).Encodable := by
  change ¬(List.replicate 65536 0#32).length ≤ 65535
  rw [List.length_replicate]; omega
theorem test_unencodable_crc8 : ¬(Instr.crc8 5#16 [0#32]).Encodable := by decide
theorem test_wellformed_crc8 : (Instr.crc8 3#16 [0x50000000#32]).WellFormed := by decide

/-! ## Words written out from the tables of spec 30 (R67 to R75) -/

theorem test_decode_fpush : decode [0x10010000#32, 0xDEADBEEF#32, 9#32] = .instr (.fpush 1#8 0xDEADBEEF#32) [9#32] := by decide
theorem test_decode_fpushn : decode [0x11000002#32, 1#32, 2#32, 3#32] = .instr (.fpushn 0#8 [1#32, 2#32]) [3#32] := by decide
theorem test_decode_fpop : decode [0x1202FFFE#32] = .instr (.fpop 2#8 0xFFFE#16) [] := by decide
theorem test_decode_fpopu : decode [0x13000000#32, 0x0D#32] = .instr (.fpopu 0#8 0x0D#32) [] := by decide
theorem test_decode_fpull : decode [0x14818001#32] = .instr (.fpull 0x81#8 true 1#15) [] := by decide
theorem test_decode_fpull_keep : decode [0x14007FFF#32] = .instr (.fpull 0#8 false 0x7FFF#15) [] := by decide
theorem test_decode_fpullu : decode [0x15800000#32, 5#32] = .instr (.fpullu 0x80#8 false 5#32) [] := by decide
theorem test_decode_ffind : decode [0x16800000#32, 5#32] = .instr (.ffind 0x80#8 5#32) [] := by decide
theorem test_decode_fnorm : decode [0x17050000#32] = .instr (.fnorm 5#8) [] := by decide
theorem test_decode_fsize : decode [0x18800000#32] = .instr (.fsize 0x80#8) [] := by decide
theorem test_decode_fcap : decode [0x19000000#32] = .instr (.fcap 0#8) [] := by decide
theorem test_decode_fempty : decode [0x1AFF0000#32] = .instr (.fempty 0xFF#8) [] := by decide
theorem test_decode_crc8 : decode [0x20000005#32, 0x31323334#32, 0x35000000#32] =
    .instr (.crc8 5#16 [0x31323334#32, 0x35000000#32]) [] := by decide
theorem test_decode_mkrd : decode [0x2100A57F#32] = .instr (.mkrd 0xA5#8 0x7F#7) [] := by decide
theorem test_decode_mkwr : decode [0x22000110#32, 0xAABBCCDD#32] = .instr (.mkwr 1#8 0x10#7 0xAABBCCDD#32) [] := by decide
theorem test_decode_parse : decode [0x23000000#32, 1#32, 2#32] = .instr (.parse 1#32 2#32) [] := by decide
theorem test_decode_tstat : decode [0x3000FFFF#32] = .instr (.tstat 0xFFFF#16) [] := by decide
theorem test_decode_tval : decode [0x31000102#32] = .instr (.tval 0x0102#16) [] := by decide
theorem test_decode_trel : decode [0x32000001#32] = .instr (.trel 1#16) [] := by decide
theorem test_decode_chnew : decode [0x407F0000#32] = .instr (.chnew 0x7F#8) [] := by decide
theorem test_decode_chrd : decode [0x4102C36C#32, 0x0101#32] = .instr (.chrd 2#8 0xC3#8 0x6C#7 0x0101#32) [] := by decide
theorem test_decode_chwr : decode [0x42000010#32, 7#32, 0xFFFF#32] = .instr (.chwr 0#8 0#8 0x10#7 7#32 0xFFFF#32) [] := by decide
theorem test_decode_hret : decode [0x43010000#32] = .instr (.hret 1#8) [] := by decide
theorem test_decode_chstat : decode [0x44000000#32] = .instr (.chstat 0#8) [] := by decide
theorem test_decode_evcomp : decode [0x80010002#32, 3#32, 4#32] = .instr (.evcomp 1#8 2#2 3#32 4#32) [] := by decide
theorem test_decode_evtick : decode [0x81010000#32] = .instr (.evtick 1#8) [] := by decide
theorem test_decode_reserved_bit : decode [0x21000080#32] = .reject .reservedBits 0x21000080#32 := by decide
theorem test_decode_unit_of_codec : decode [0x21010000#32] = .reject .reservedBits 0x21010000#32 := by decide
theorem test_decode_unknown : decode [0#32] = .reject .unknownOpcode 0#32 := by decide
theorem test_decode_short : decode [0x42000000#32, 0#32] = .short := by decide
theorem test_table_word : decodeTableWord 64 0x0000000510020000 = some (.fpush 2#8 5#32) := by decide
theorem test_table_word_operands_zero : decodeTableWord 32 0x41010103 = some (.chrd 1#8 1#8 3#7 0#32) := by decide

/-! ## Single steps, with the results of spec 95 -/

/-- F3 -/
theorem test_fpush_grows : shape (after (withLive Config.specVectors 4 0 [1#32, 2#32, 3#32, 4#32]) (.fpush 0#8 5#32)) =
    (5, 0, 5, [1#32, 2#32, 3#32, 4#32, 5#32]) := by decide
/-- F10 -/
theorem test_fpush_past_limit : (after (withLive g2 6 0 [1#32, 2#32, 3#32, 4#32, 5#32, 6#32]) (.fpush 0#8 7#32)).haltWord =
    some 0xEE100001#32 := by decide
/-- F6 -/
theorem test_fpushn_compacts : shape (after (withLive Config.specVectors 4 3 [9#32]) (.fpushn 0#8 [1#32, 2#32])) =
    (4, 0, 3, [9#32, 1#32, 2#32]) := by decide
/-- F8 -/
theorem test_fpushn_grows : shape (after (withLive Config.specVectors 5 2 [1#32, 2#32, 3#32]) (.fpushn 0#8 [4#32, 5#32])) =
    (7, 0, 5, [1#32, 2#32, 3#32, 4#32, 5#32]) := by decide
/-- F13 -/
theorem test_fpop : shape (after (withLive Config.specVectors 4 0 [1#32, 2#32, 3#32]) (.fpop 0#8 3#16)) = (4, 3, 3, []) := by decide
/-- F14 -/
theorem test_fpop_underflow : (after (withLive Config.specVectors 4 0 [1#32, 2#32, 3#32]) (.fpop 0#8 4#16)).out =
    [.response [1#32]] := by decide
/-- F15 -/
theorem test_fpopu : shape (after (withLive Config.specVectors 4 0 [5#32, 0#32, 6#32, 0#32]) (.fpopu 0#8 0#32)) =
    (4, 2, 4, [6#32, 0#32]) := by decide
/-- F20 -/
theorem test_fpull : (after (withLive Config.specVectors 4 0 [1#32, 2#32, 3#32]) (.fpull 0#8 true 3#15)).out =
    [.response [0#32, 1#32, 2#32, 3#32]] := by decide
/-- F21 -/
theorem test_fpull_keep : shape (after (withLive Config.specVectors 4 0 [1#32, 2#32, 3#32]) (.fpull 0#8 false 2#15)) =
    (4, 0, 3, [1#32, 2#32, 3#32]) := by decide
/-- F23 -/
theorem test_fpullu : (after (withLive Config.specVectors 4 0 [0x0A#32, 0x0D#32, 0x0B#32]) (.fpullu 0#8 true 0x0D#32)).out =
    [.response [0#32, 2#32, 0x0A#32, 0x0D#32]] := by decide
/-- F23 -/
theorem test_fpullu_removes : shape (after (withLive Config.specVectors 4 0 [0x0A#32, 0x0D#32, 0x0B#32]) (.fpullu 0#8 true 0x0D#32)) =
    (4, 2, 3, [0x0B#32]) := by decide
/-- F27 -/
theorem test_ffind_absent : (after (withLive Config.specVectors 4 0 [4#32, 5#32, 4#32]) (.ffind 0#8 9#32)).out =
    [.response [0#32, 3#32]] := by decide
/-- F30 -/
theorem test_fnorm_compacts : shape (after (withLive Config.specVectors 10 5 [1#32, 2#32, 3#32, 4#32]) (.fnorm 0#8)) =
    (10, 0, 4, [1#32, 2#32, 3#32, 4#32]) := by decide
/-- F31 -/
theorem test_fnorm_grows : shape (after (withLive Config.specVectors 5 1 [1#32, 2#32, 3#32, 4#32]) (.fnorm 0#8)) =
    (6, 0, 4, [1#32, 2#32, 3#32, 4#32]) := by decide
/-- F33 -/
theorem test_fsize : (after (withLive Config.specVectors 4 1 [1#32, 2#32]) (.fsize 0#8)).out = [.response [0#32, 2#32]] := by decide
/-- F33 -/
theorem test_fcap : (after (withLive Config.specVectors 4 1 [1#32, 2#32]) (.fcap 0#8)).out = [.response [0#32, 4#32]] := by decide
/-- F34 -/
theorem test_fempty : (after (withLive Config.specVectors 4 3 []) (.fempty 0#8)).out = [.response [0#32, 1#32]] := by decide
/-- F36 -/
theorem test_channel_queue_read_only : (after sNew (.fpush 0x80#8 1#32)).haltWord = some 0xEE108003#32 := by decide
/-- K12c -/
theorem test_crc8 : (after s0 (.crc8 8#16 [0x500021AA#32, 0xBBCCDD00#32])).out = [.response [0#32, 0xA9#32]] := by decide +kernel
/-- K16 -/
theorem test_crc8_padding : (after s0 (.crc8 3#16 [0x50000001#32])).haltWord = some 0xEE200002#32 := by decide +kernel
/-- M3 -/
theorem test_mkrd : (after s0 (.mkrd 0xFF#8 0x7F#7)).out = [.response [0#32, 0x50FFFE2A#32]] := by decide +kernel
/-- D4L -/
theorem test_mkrd_lsb_first : (after (State.resetOf { Config.specVectors with bitPacking := .lsbFirst }) (.mkrd 3#8 0x7F#7)).out =
    [.response [0#32, 0x05037F51#32]] := by decide +kernel
/-- M4 -/
theorem test_mkwr : (after s0 (.mkwr 0#8 0x10#7 0xAABBCCDD#32)).out = [.response [0#32, 0x500021AA#32, 0xBBCCDDA9#32]] := by decide +kernel
/-- X1 -/
theorem test_parse : (after s0 (.parse 0x500021AA#32 0xBBCCDDA9#32)).out = [.response [0#32, 1#32, 0xAABBCCDD#32]] := by decide +kernel
/-- X2 -/
theorem test_parse_bad : (after s0 (.parse 0x500021AA#32 0xBBCCDDAA#32)).out = [.response [0#32, 0#32, 0xAABBCCDD#32]] := by decide +kernel
/-- T2 -/
theorem test_tstat : (after (sRead 0#32) (.tstat 1#16)).out.getLast? = some (.response [0#32, 0#32]) := by decide +kernel
/-- T9 -/
theorem test_tstat_zero : (after sNew (.tstat 0#16)).haltWord = some 0xEE300004#32 := by decide
/-- X4 -/
theorem test_tval : (after sHandler (.tval 1#16)).out.getLast? = some (.response [0#32, 0x12345678#32]) := by decide +kernel
/-- T3 -/
theorem test_tval_pending : (after (sRead 0#32) (.tval 1#16)).haltWord = some 0xEE310008#32 := by decide +kernel
/-- T4 -/
theorem test_trel_pending : (after (sRead 0#32) (.trel 1#16)).haltWord = some 0xEE320005#32 := by decide +kernel
/-- T5 -/
theorem test_trel : (after sHandler (.trel 1#16)).tkt[0]? = some none := by decide +kernel
/-- S1 -/
theorem test_chnew : (after sNew (.chstat 0#8)).out.getLast? = some (.response [0#32, 0x800000FF#32, 4#32, 0#32]) := by decide
/-- S4 -/
theorem test_chnew_twice : (after sNew (.chnew 0#8)).haltWord = some 0xEE400003#32 := by decide
/-- R134's example -/
theorem test_chrd : (after sNew (.chrd 0#8 0#8 0x6C#7 0#32)).out.drop 1 =
    [.pstart 0 [0x50#8, 0#8, 0xD8#8, 0xC6#8] 4 (.reply 1#16) 8 1, .response [0#32, 1#32]] := by decide +kernel
/-- S3 -/
theorem test_chrd_not_created : (after s0 (.chrd 0#8 0#8 0#7 0#32)).haltWord = some 0xEE410003#32 := by decide
/-- T6 -/
theorem test_chwr : (after sNew (.chwr 0#8 0#8 0#7 0#32 0#32)).out.drop 1 =
    [.pstart 0 [0x50#8, 0#8, 1#8, 0#8, 0#8, 0#8, 0#8, 0xC4#8] 8 (.frame 1#16) 8 1, .response [0#32, 1#32]] := by decide +kernel
/-- R135's example: the channel is busy -/
theorem test_chwr_queues : (sBusy.chan 0).q.liveList = [1#16, 2#16] := by decide +kernel
/-- R136's example -/
theorem test_hret : (sIdle.hphase, (sIdle.chan 0).idle) = (HPhase.none, 0#8) := by decide +kernel
/-- S5 -/
theorem test_hret_outside : (after sNew (.hret 0#8)).haltWord = some 0xEE430009#32 := by decide
/-- S2 -/
theorem test_chstat_reset : (after s0 (.chstat 0#8)).out = [.response [0#32, 0xFF#32, 0#32, 0#32]] := by decide
/-- spec 95, section 5, line 5 -/
theorem test_chstat_immediate : (after (stepped (sched sImm [.takeComp 0])) (.chstat 0#8)).out.getLast? =
    some (.response [0#32, 0xF00000FF#32, 0x00010004#32, 0x00020000#32]) := by decide +kernel
/-- S7 -/
theorem test_evcomp_spurious : (after sNew (.evcomp 0#8 1#2 0#32 0#32)).haltWord = some 0xEE800006#32 := by decide
/-- S6: PRESET and NOTIFY of the timeout -/
theorem test_evcomp_timeout : (stepped (sched (sTimedOut 0x0101#32) [.takeComp 0])).out.drop 3 =
    [.preset 0, .notify 0xC0000003#32 0x00010101#32] := by decide +kernel
/-- R149 -/
theorem test_evtick : ((after sNew (.evtick 0#8)).chan 0).tickp = true := by decide
/-- S14 -/
theorem test_evtick_no_effect : stepped (sched (after sNew (.evtick 0#8)) [.takeTick 0]) = sNew := by decide +kernel
/-- S12 -/
theorem test_word_zero : (stepped (sched { s0 with cmd := [0#32] } [.host])).haltWord = some 0xEE000002#32 := by decide
/-- S13 -/
theorem test_event_on_command_port : (stepped (sched { s0 with cmd := [0x80000001#32] } [.host])).haltWord =
    some 0xEE800002#32 := by decide
/-- 10 R31: active in bit 0, the channel in bits 7..1, the handle in bits 31..16 -/
theorem test_hphase_word : (HPhase.active 0x7F#7 0xABCD#16).word = 0xABCD00FF#32 := by decide
/-- M1, through the fetch of one table word -/
theorem test_fetch_word : (stepped (s0.withFetchWord 32 0x21000000)).out = [.response [0#32, 0x50000087#32]] := by decide +kernel
/-- R149, through the fetch of one table word -/
theorem test_fetch_event : ((stepped (s0.withFetchWord 32 0x81000000)).chan 0).tickp = true := by decide

/-! ## Witnesses: the hypotheses of the statements are met, each clause at its boundary -/

/-- A host command waits, the host to move. -/
def atHost (ws : List Word) : State := { s0 with cmd := ws, sched := [.host] }

/-- An event waits, the event inputs to move. -/
def atEvent (ws : List Word) : State := { s0 with evt := ws, sched := [.event] }

/-- A read with a bad reply (spec 95, X6), classified. -/
def sBad : State := stepped (sched (after (sRead 0#32) (.evcomp 0#8 1#2 0x50000C00#32 0x000040F4#32)) [.takeComp 0])

/-- A read without a handler, timed out and classified. -/
def sOut : State := stepped (sched (sTimedOut 0#32) [.takeComp 0])

/-- A write in flight. -/
def sWrite : State := run s0 [.chnew 0#8, .chwr 0#8 0#8 0#7 0#32 0#32]

/-- The handler of a read on a channel whose queue its completion emptied. -/
def sAlone : State := stepped (sched (sTimedOut 0x0101#32) [.takeComp 0])

/-- The same, the handler having submitted a ticket. -/
def sAgain : State := after sAlone (.chrd 0#8 0#8 0#7 0#32)

/-- A handler under IMMEDIATE, a read queued behind it. -/
def sHandlerI : State :=
  stepped (sched (run (State.resetOf gI) [.chnew 0#8, .chrd 0#8 0#8 0#7 0x0101#32, .chrd 0#8 0#8 6#7 0#32,
    .evcomp 0#8 2#2 0#32 0#32]) [.takeComp 0])

/-- A second channel beside a handler of the first. -/
def sBeside : State := { sAlone with cfg := g2, ch := sAlone.ch ++ [Channel.reset] }

/-- A Pending read of channel 0, register 6, as spec 95 D6 builds it. -/
def read6 : Ticket := readTicket .msbFirst 0 0#8 6#7 0#16

/-- Its PSTART as ticket 2. -/
def pstart6 : Output := .pstart 0 [0x50#8, 0x00#8, 0x0C#8, 0x17#8] 4 (.reply 2#16) 8 1

theorem witness_DecodeReadsBackEncode :
    (Instr.fpushn 0#8 []).Encodable ∧ (Instr.crc8 5#16 [0#32, 0#32]).Encodable ∧ (Instr.crc8 0#16 []).Encodable := by decide
theorem witness_DecodeReadsBackEncode_longest : (Instr.fpushn 0#8 (List.replicate 65535 0#32)).Encodable := by
  change (List.replicate 65535 0#32).length ≤ 65535
  rw [List.length_replicate]
theorem witness_EncodeReadsBackDecode : decode [0x12000003#32, 5#32] = .instr (.fpop 0#8 3#16) [5#32] := by decide
theorem witness_HeaderMatchesOneRow :
    (0x10FF0000#32 : Word) &&& Opcode.fpush.row.headerMask = Opcode.fpush.row.headerMatch := by decide
theorem witness_StepRunsDecodedInstruction :
    (Running (atHost [0x18000000#32]) ∧ (atHost [0x18000000#32]).sched = .host :: [] ∧
      decode (atHost [0x18000000#32]).cmd = .instr (.fsize 0#8) [] ∧ (Instr.fsize 0#8).isEvent = false) ∧
    (Running (atEvent [0x81000000#32]) ∧ (atEvent [0x81000000#32]).sched = .event :: [] ∧
      decode (atEvent [0x81000000#32]).evt = .instr (.evtick 0#8) [] ∧ (Instr.evtick 0#8).isEvent = true) ∧
    (Running (sched s0 [.takeComp 0]) ∧ (sched s0 [.takeComp 0]).sched = .takeComp 0 :: [] ∧
      (sched s0 [.takeTick 0]).sched = .takeTick 0 :: []) := by decide
theorem witness_IncompleteCommandWaits :
    Running (atHost [0x42000000#32, 0#32]) ∧ (atHost [0x42000000#32, 0#32]).sched = .host :: [] ∧
    hdrOpc 0x42000000#32 = Opcode.chwr.code ∧ Opcode.chwr.code.getLsbD 7 = false ∧
    [0#32].length + 1 < Opcode.chwr.lengthInWords 0x42000000#32 := by decide
theorem witness_UnlistedOpcodeFaults :
    (∀ b ∈ [0x00, 0x0F, 0x1B, 0x1F, 0x24, 0x2F, 0x33, 0x3F, 0x45, 0xFF],
      let hdr : Word := BitVec.ofNat 32 (b * 2 ^ 24)
      Running (atHost [hdr]) ∧ (hdr.toNat / 2 ^ 24 ≤ 0x0F ∨ (0x1B ≤ hdr.toNat / 2 ^ 24 ∧ hdr.toNat / 2 ^ 24 ≤ 0x1F) ∨
        (0x24 ≤ hdr.toNat / 2 ^ 24 ∧ hdr.toNat / 2 ^ 24 ≤ 0x2F) ∨ (0x33 ≤ hdr.toNat / 2 ^ 24 ∧ hdr.toNat / 2 ^ 24 ≤ 0x3F) ∨
        0x45 ≤ hdr.toNat / 2 ^ 24)) ∧
    ∀ b ∈ [0x82, 0xFF], let hdr : Word := BitVec.ofNat 32 (b * 2 ^ 24); Running (atEvent [hdr]) ∧ 0x82 ≤ hdr.toNat / 2 ^ 24 := by
  decide +kernel
theorem witness_ReservedHeaderBitFaults :
    (Running (atHost [0x17000001#32]) ∧ hdrOpc 0x17000001#32 = Opcode.fnorm.code ∧
      Opcode.fnorm.lengthInWords 0x17000001#32 ≤ ([] : List Word).length + 1 ∧
      (0x17000001#32 : Word) &&& Opcode.fnorm.row.headerMask ≠ Opcode.fnorm.row.headerMatch ∧ Opcode.fnorm.code.getLsbD 7 = false) ∧
    (Running (atHost [0x20010004#32, 0#32]) ∧ hdrOpc 0x20010004#32 = Opcode.crc8.code ∧
      Opcode.crc8.lengthInWords 0x20010004#32 ≤ [0#32].length + 1 ∧
      (0x20010004#32 : Word) &&& Opcode.crc8.row.headerMask ≠ Opcode.crc8.row.headerMatch ∧ Opcode.crc8.code.getLsbD 7 = false) ∧
    (Running (atEvent [0x80000004#32, 0#32, 0#32]) ∧ hdrOpc 0x80000004#32 = Opcode.evcomp.code ∧
      Opcode.evcomp.lengthInWords 0x80000004#32 ≤ [0#32, 0#32].length + 1 ∧
      (0x80000004#32 : Word) &&& Opcode.evcomp.row.headerMask ≠ Opcode.evcomp.row.headerMatch ∧
      Opcode.evcomp.code.getLsbD 7 = true) := by decide
theorem witness_EventOpcodeOnCommandPortFaults :
    ∀ n ∈ [0x80000001, 0x81000000, 0xFF000000], Running (atHost [BitVec.ofNat 32 n]) ∧
      (BitVec.ofNat 32 n).getLsbD 31 = true := by decide +kernel
theorem witness_FaultedBlockHalts : (after s0 (.trel 0#16)).fault.code ≠ 0x00#8 := by decide
theorem witness_FaultsArePrecise :
    Running (atHost [0x32000001#32]) ∧ step (atHost [0x32000001#32]) = .next (stepped (atHost [0x32000001#32])) ∧
    ¬Running (stepped (atHost [0x32000001#32])) := ⟨by decide, next_of_goesTo (by decide), by decide⟩
theorem witness_FaultRecordsItsInstruction :
    Running s0 ∧ exec (.fpush 1#8 0#32) s0 = .next (after s0 (.fpush 1#8 0#32)) ∧ ¬Running (after s0 (.fpush 1#8 0#32)) :=
  ⟨by decide, next_of_goesTo (by decide), by decide⟩

theorem witness_PushAppends :
    (FifoAt (withLive g2 4 0 [1#32]) 0 (f0 (withLive g2 4 0 [1#32])) [1#32] ∧ Running (withLive g2 4 0 [1#32]) ∧
      Fits (withLive g2 4 0 [1#32]) (f0 (withLive g2 4 0 [1#32])) 3 ∧ (f0 (withLive g2 4 0 [1#32])).room 3 = .tail) ∧
    (FifoAt (withLive g2 4 3 [9#32]) 0 (f0 (withLive g2 4 3 [9#32])) [9#32] ∧ Running (withLive g2 4 3 [9#32]) ∧
      Fits (withLive g2 4 3 [9#32]) (f0 (withLive g2 4 3 [9#32])) 2 ∧ (f0 (withLive g2 4 3 [9#32])).room 2 = .compaction) ∧
    (FifoAt (withLive g2 4 0 [1#32, 2#32, 3#32, 4#32]) 0 (f0 (withLive g2 4 0 [1#32, 2#32, 3#32, 4#32])) [1#32, 2#32, 3#32, 4#32] ∧
      Fits (withLive g2 4 0 [1#32, 2#32, 3#32, 4#32]) (f0 (withLive g2 4 0 [1#32, 2#32, 3#32, 4#32])) 2 ∧
      (f0 (withLive g2 4 0 [1#32, 2#32, 3#32, 4#32])).room 2 = .growth ∧
      (f0 (withLive g2 4 0 [1#32, 2#32, 3#32, 4#32])).capAfter 2 = g2.memLimit) := by decide
theorem witness_PushPastLimitFaults :
    FifoAt (withLive g2 6 0 [1#32, 2#32, 3#32, 4#32, 5#32, 6#32]) 0 (f0 (withLive g2 6 0 [1#32, 2#32, 3#32, 4#32, 5#32, 6#32]))
      [1#32, 2#32, 3#32, 4#32, 5#32, 6#32] ∧ Running (withLive g2 6 0 [1#32, 2#32, 3#32, 4#32, 5#32, 6#32]) ∧
    ¬Fits (withLive g2 6 0 [1#32, 2#32, 3#32, 4#32, 5#32, 6#32]) (f0 (withLive g2 6 0 [1#32, 2#32, 3#32, 4#32, 5#32, 6#32])) 1 := by
  decide
theorem witness_PushPastCapacityReallocates :
    let q : Queue 32 := f0 (withLive g2 5 2 [1#32, 2#32, 3#32])
    q.Holds [1#32, 2#32, 3#32] ∧ q.cap < q.size + [4#32, 5#32, 6#32].length ∧
    q.capAfter [4#32, 5#32, 6#32].length ≤ Config.specVectors.memLimit ∧ g2.memLimit < q.capAfter [4#32, 5#32, 6#32].length := by decide
theorem witness_QueueOperationsKeepOrder :
    let q : Queue 32 := f0 (withLive g2 5 2 [1#32, 2#32])
    let ok : {α : Type} → Op α → Bool := fun o => match o with | .ok _ => true | .error _ => false
    q.Holds [1#32, 2#32] ∧ ok q.compact = true ∧ ok (q.grow g2 1) = true ∧ ok (q.place Config.specVectors [3#32]) = true ∧
    ok (q.place Config.specVectors [3#32, 4#32]) = true ∧ (q.room 1, q.room 2) = (.tail, .growth) := by decide
theorem witness_FpopRemovesPrefix :
    FifoAt (withLive g2 4 1 [5#32, 6#32]) 0 (f0 (withLive g2 4 1 [5#32, 6#32])) [5#32, 6#32] ∧ Running (withLive g2 4 1 [5#32, 6#32]) ∧
    (2#16).toNat ≤ [5#32, 6#32].length ∧ [5#32, 6#32].length < (3#16).toNat := by decide
theorem witness_FpopuRemovesThroughTerminator :
    FifoAt (withLive g2 4 1 [5#32, 6#32]) 0 (f0 (withLive g2 4 1 [5#32, 6#32])) [5#32, 6#32] ∧ Running (withLive g2 4 1 [5#32, 6#32]) ∧
    [5#32, 6#32] = [] ++ 5#32 :: [6#32] ∧ [5#32, 6#32] = [5#32] ++ 6#32 :: [] ∧ 6#32 ∉ [5#32] ∧ 7#32 ∉ [5#32, 6#32] := by decide
theorem witness_FpullCopiesPrefix :
    Running sBusy ∧ FifoAt (withLive g2 4 1 [5#32, 6#32]) 0 (f0 (withLive g2 4 1 [5#32, 6#32])) [5#32, 6#32] ∧
    QueueAt sBusy 0 (sBusy.chan 0) [1#16, 2#16] ∧ (2#15).toNat ≤ [1#16, 2#16].length ∧ [1#16, 2#16].length < (3#15).toNat := by
  decide +kernel
theorem witness_FpulluCopiesThroughTerminator :
    Running sBusy ∧ FifoAt (withLive g2 4 1 [5#32, 6#32]) 0 (f0 (withLive g2 4 1 [5#32, 6#32])) [5#32, 6#32] ∧
    QueueAt sBusy 0 (sBusy.chan 0) [1#16, 2#16] ∧ [1#16, 2#16] = [1#16] ++ 2#16 :: [] ∧ 2#16 ∉ [1#16] ∧ 3#16 ∉ [1#16, 2#16] := by
  decide +kernel
theorem witness_FfindAnswersLeastPosition :
    Running sBusy ∧ FifoAt (withLive g2 4 0 [4#32, 5#32, 4#32]) 0 (f0 (withLive g2 4 0 [4#32, 5#32, 4#32])) [4#32, 5#32, 4#32] ∧
    [4#32, 5#32, 4#32] = [] ++ 4#32 :: [5#32, 4#32] ∧ 9#32 ∉ [4#32, 5#32, 4#32] ∧ QueueAt sBusy 0 (sBusy.chan 0) [1#16, 2#16] ∧
    [1#16, 2#16] = [1#16] ++ 2#16 :: [] ∧ 3#16 ∉ [1#16, 2#16] := by decide +kernel
theorem witness_FnormCompactsOrGrows :
    (FifoAt (withLive g2 4 0 [1#32]) 0 (f0 (withLive g2 4 0 [1#32])) [1#32] ∧ (f0 (withLive g2 4 0 [1#32])).h = 0) ∧
    (FifoAt (withLive g2 6 1 [1#32, 2#32, 3#32, 4#32]) 0 (f0 (withLive g2 6 1 [1#32, 2#32, 3#32, 4#32])) [1#32, 2#32, 3#32, 4#32] ∧
      5 * 4 < 4 * (f0 (withLive g2 6 1 [1#32, 2#32, 3#32, 4#32])).cap) ∧
    (FifoAt (withLive g2 5 1 [1#32, 2#32, 3#32, 4#32]) 0 (f0 (withLive g2 5 1 [1#32, 2#32, 3#32, 4#32])) [1#32, 2#32, 3#32, 4#32] ∧
      4 * (f0 (withLive g2 5 1 [1#32, 2#32, 3#32, 4#32])).cap ≤ 5 * 4 ∧ 5 + 5 / 5 ≤ g2.memLimit) ∧
    (FifoAt (withLive g2 6 1 [1#32, 2#32, 3#32, 4#32, 5#32]) 0 (f0 (withLive g2 6 1 [1#32, 2#32, 3#32, 4#32, 5#32]))
        [1#32, 2#32, 3#32, 4#32, 5#32] ∧ 4 * (f0 (withLive g2 6 1 [1#32, 2#32, 3#32, 4#32, 5#32])).cap ≤ 5 * 5 ∧
      g2.memLimit < 6 + 6 / 5) := by decide
theorem witness_SizeCapEmptyAnswer :
    Running sNew ∧ FifoAt sNew 0 (f0 sNew) [] ∧ QueueAt sNew 0 (sNew.chan 0) [] ∧ QueueAt sBusy 0 (sBusy.chan 0) [1#16, 2#16] := by
  decide +kernel
theorem witness_FifoUnitAndElementFaults :
    Running sNew ∧ sNew.TablesSized ∧ s0.TablesSized ∧ isFifoCommand (.fpush 1#8 0#32) = true ∧
    (∀ u ∈ ([1#8, 127#8] : List (BitVec 8)), (Instr.fpush u 0#32).unitField.toNat < 128 ∧ sNew.cfg.numFifos ≤ (Instr.fpush u 0#32).unitField.toNat) ∧
    (∀ u ∈ [129#8, 255#8], 128 ≤ (Instr.fsize u).unitField.toNat ∧ sNew.cfg.numChannels ≤ (Instr.fsize u).unitField.toNat - 128) ∧
    (s0.chan ((Instr.fsize 128#8).unitField.toNat - 128)).init = false ∧ mutates (.fpull 128#8 true 0#15) = true ∧
    (sNew.chan ((Instr.ffind 128#8 0x00010000#32).unitField.toNat - 128)).init = true ∧
    (Instr.ffind 128#8 0x00010000#32).unitField.toNat - 128 < sNew.cfg.numChannels ∧
    (0x00010000#32 : Word).extractLsb' 16 16 ≠ 0#16 := by decide
theorem witness_FifoCommandsFrame :
    isFifoCommand (.fempty 0#8) = true ∧ isFifoCommand (.fpush 0#8 1#32) = true ∧ Running s0 ∧
    exec (.fpush 0#8 1#32) s0 = .next (after s0 (.fpush 0#8 1#32)) ∧ Running (after s0 (.fpush 0#8 1#32)) :=
  ⟨by decide, by decide, by decide, next_of_goesTo (by decide), by decide⟩
theorem witness_CapacityNeverShrinks :
    step (sched sNew [.takeTick 0]) = .next (stepped (sched sNew [.takeTick 0])) ∧
    sNew.fifo[0]? = some (f0 sNew) ∧ sNew.ch[0]? = some (sNew.chan 0) ∧ (sNew.chan 0).init = true :=
  ⟨next_of_goesTo (by decide), by decide⟩
theorem witness_Crc8Answers :
    Running s0 ∧ crc8OperandsLegal 1#16 [0xFF000000#32] ∧ crc8OperandsLegal 255#16 (List.replicate 64 0#32) ∧
    ¬crc8OperandsLegal 0#16 [] ∧ ¬crc8OperandsLegal 256#16 (List.replicate 64 0#32) ∧ ¬crc8OperandsLegal 3#16 [1#32] := by
  decide +kernel
theorem witness_DatagramsBuilt :
    Running s0 ∧ s0.cfg.bitPacking = .msbFirst ∧ (State.resetOf { Config.specVectors with bitPacking := .lsbFirst }).cfg.bitPacking =
      .lsbFirst := by decide
theorem witness_ParseAnswers : Running s0 := by decide
theorem witness_FramesParseBackAndErrorsShow :
    (eightBytes 0x500021AA#32 0xBBCCDDA9#32).length = 8 ∧ (parse (eightBytes 0x500021AA#32 0xBBCCDDA9#32)).1 = true ∧
    0xAA#8 ≠ (eightBytes 0x500021AA#32 0xBBCCDDA9#32).getD 7 0#8 := by decide +kernel
theorem witness_TstatAnswersStatus :
    (∃ x, TicketAt (sRead 0#32) 1#16 x ∧ x.status = .pending) ∧ (∃ x, TicketAt sHandler 1#16 x ∧ x.status = .completedOk) ∧
    (∃ x, TicketAt sBad 1#16 x ∧ x.status = .crcError) ∧ (∃ x, TicketAt sOut 1#16 x ∧ x.status = .timedOut) ∧
    Running (sRead 0#32) ∧ Running sHandler ∧ Running sBad ∧ Running sOut := by
  refine ⟨⟨((sRead 0#32).ticket? 1#16).getD read6, ?_⟩, ⟨(sHandler.ticket? 1#16).getD read6, ?_⟩,
    ⟨(sBad.ticket? 1#16).getD read6, ?_⟩, ⟨(sOut.ticket? 1#16).getD read6, ?_⟩, ?_⟩ <;> decide +kernel
/-- The handles that are not valid in a table of 8 free slots, at the boundaries. -/
theorem witness_TstatAnswersStatus_invalid :
    Running sNew ∧ InvalidHandle sNew 0#16 ∧ InvalidHandle sNew 1#16 ∧ InvalidHandle sNew 8#16 ∧ InvalidHandle sNew 9#16 ∧
    InvalidHandle sNew 0xFFFF#16 ∧ sNew.cfg.maxTickets = 8 := by decide
theorem witness_TvalAnswersReply :
    (∃ x, TicketAt sHandler 1#16 x ∧ x.kind = .read ∧ x.status = .completedOk ∧
      x.reply = (eightBytes 0x5000D812#32 0x34567861#32).map some) ∧
    (∃ x, TicketAt sBad 1#16 x ∧ x.kind = .read ∧ x.status = .crcError ∧
      x.reply = (eightBytes 0x50000C00#32 0x000040F4#32).map some) ∧ Running sHandler ∧ Running sBad := by
  refine ⟨⟨(sHandler.ticket? 1#16).getD read6, ?_⟩, ⟨(sBad.ticket? 1#16).getD read6, ?_⟩, ?_⟩ <;> decide +kernel
theorem witness_TvalAnswersReply_faults :
    (∃ x, TicketAt sWrite 1#16 x ∧ x.kind = .write) ∧ (∃ x, TicketAt (sRead 0#32) 1#16 x ∧ x.status = .pending) ∧
    (∃ x, TicketAt sOut 1#16 x ∧ x.status = .timedOut) ∧ Running sWrite ∧ Running (sRead 0#32) ∧ Running sOut ∧
    InvalidHandle sWrite 2#16 ∧ InvalidHandle sWrite 9#16 := by
  refine ⟨⟨(sWrite.ticket? 1#16).getD read6, ?_⟩, ⟨((sRead 0#32).ticket? 1#16).getD read6, ?_⟩,
    ⟨(sOut.ticket? 1#16).getD read6, ?_⟩, ?_⟩ <;> decide +kernel
theorem witness_TrelFreesTheSlot :
    (∃ x, TicketAt sHandler 1#16 x ∧ x.status ≠ .pending) ∧ (∃ x, TicketAt sHandler 2#16 x ∧ x.status = .pending) ∧
    Running sHandler ∧ InvalidHandle sHandler 3#16 ∧ InvalidHandle sHandler 0#16 := by
  refine ⟨⟨(sHandler.ticket? 1#16).getD read6, ?_⟩, ⟨(sHandler.ticket? 2#16).getD read6, ?_⟩, ?_⟩ <;> decide +kernel
theorem witness_ChnewCreatesTheChannel :
    Running s0 ∧ (0#8).toNat < s0.cfg.numChannels ∧ s0.ch[(0#8).toNat]? = some (s0.chan 0) ∧ (s0.chan 0).init = false ∧
    Running sNew ∧ sNew.ch[(0#8).toNat]? = some (sNew.chan 0) ∧ (sNew.chan 0).init = true ∧ s0.cfg.numChannels ≤ (1#8).toNat := by decide
theorem witness_SubmitOnEmptyQueueStarts :
    Running sNew ∧ QueueAt sNew (0#8).toNat (sNew.chan 0) [] ∧ LeastFree sNew 0 ∧ (0x0000FFFF#32 : Word).extractLsb' 16 16 = 0#16 ∧
    (sNew.chan 0).per.armed = false ∧ Fits sNew (sNew.chan 0).q 1 := by decide
theorem witness_SubmitOnBusyChannelQueues :
    Running sBusy ∧ QueueAt sBusy (0#8).toNat (sBusy.chan 0) [1#16, 2#16] ∧ [1#16, 2#16] ≠ [] ∧ LeastFree sBusy 2 ∧
    (0x0000FFFF#32 : Word).extractLsb' 16 16 = 0#16 ∧ Fits sBusy (sBusy.chan 0).q 1 := by decide +kernel
theorem witness_SubmitFaults :
    Running sNew ∧ sNew.cfg.numChannels ≤ (1#8).toNat ∧ (0#8).toNat < s0.ch.length ∧ (s0.chan (0#8).toNat).init = false ∧
    QueueAt sNew (0#8).toNat (sNew.chan 0) [] ∧ (0x00010000#32 : Word).extractLsb' 16 16 ≠ 0#16 := by decide
/-- No free slot: one ticket in a table of one. -/
def sFull : State := run (State.resetOf { Config.specVectors with maxTickets := 1 }) [.chnew 0#8, .chrd 0#8 0#8 0#7 0#32]
/-- No room: one ticket on a queue of capacity 1 at the limit. -/
def sTight : State :=
  run (State.resetOf { Config.specVectors with initCapacity := 1, memLimit := 1 }) [.chnew 0#8, .chrd 0#8 0#8 0#7 0#32]
theorem witness_SubmitFaults_allocation :
    (Running sFull ∧ QueueAt sFull (0#8).toNat (sFull.chan 0) [1#16] ∧ ∀ o ∈ sFull.tkt, o ≠ none) ∧
    (Running sTight ∧ QueueAt sTight (0#8).toNat (sTight.chan 0) [1#16] ∧ ¬Fits sTight (sTight.chan 0).q 1) := by decide +kernel
theorem witness_HretEndsTheHandler :
    (Running sAlone ∧ sAlone.hphase = .active 0#7 1#16 ∧ (0#7).toNat = (0#8).toNat ∧ QueueAt sAlone (0#8).toNat (sAlone.chan 0) []) ∧
    (Running sAgain ∧ sAgain.hphase = .active 0#7 1#16 ∧ QueueAt sAgain (0#8).toNat (sAgain.chan 0) [2#16] ∧
      (sAgain.chan 0).per.armed = true) ∧
    (Running sHandler ∧ sHandler.hphase = .active 0#7 1#16 ∧ QueueAt sHandler (0#8).toNat (sHandler.chan 0) [2#16] ∧
      (sHandler.chan 0).per.armed = false ∧ sHandler.cfg.nextStart = .deferred) := by decide +kernel
theorem witness_Starts : Starts sHandlerI 0 2#16 read6 pstart6 :=
  .inl ⟨by decide, 0x50#8, 0x00#8, 0x0C#8, 0x17#8, List.replicate 4 none, by decide +kernel, by decide +kernel⟩
theorem witness_HretEndsTheHandler_immediate :
    Running sHandlerI ∧ sHandlerI.hphase = .active 0#7 1#16 ∧ QueueAt sHandlerI (0#8).toNat (sHandlerI.chan 0) [2#16] ∧
    (sHandlerI.chan 0).per.armed = false ∧ sHandlerI.cfg.nextStart = .immediate ∧ TicketAt sHandlerI 2#16 read6 := by decide +kernel
theorem witness_HretEndsTheHandler_faults :
    Running sNew ∧ sNew.cfg.numChannels ≤ (1#8).toNat ∧ (0#8).toNat < sNew.cfg.numChannels ∧ (0#8).toNat < sNew.ch.length ∧
    sNew.hphase = .none := by decide
theorem witness_ChstatAnswers :
    (Running sHandler ∧ (0#8).toNat < sHandler.cfg.numChannels ∧ sHandler.ch[(0#8).toNat]? = some (sHandler.chan 0) ∧
      (sHandler.chan 0).q.Holds [2#16] ∧ sHandler.hphase = .active 0#7 1#16) ∧
    (Running s0 ∧ s0.ch[(0#8).toNat]? = some (s0.chan 0) ∧ (s0.chan 0).q.Holds [] ∧ s0.hphase = .none) ∧
    s0.cfg.numChannels ≤ (1#8).toNat := by decide +kernel
theorem witness_ChstatShowsHphase :
    (Running sHandler ∧ (0#8).toNat < sHandler.cfg.numChannels ∧ sHandler.ch[(0#8).toNat]? = some (sHandler.chan 0) ∧
      (sHandler.chan 0).q.Holds [2#16] ∧ sHandler.hphase.word = 0x00010001#32) ∧
    (Running sBeside ∧ (1#8).toNat < sBeside.cfg.numChannels ∧ sBeside.ch[(1#8).toNat]? = some (sBeside.chan 1) ∧
      (sBeside.chan 1).q.Holds [] ∧ (sBeside.hphase.word.extractLsb' 1 7).toNat ≠ (1#8).toNat) := by decide +kernel
theorem witness_ChstatHeadIsPending :
    (sHandler.Inv ∧ Running sHandler ∧ (0#8).toNat < sHandler.cfg.numChannels ∧
      (chstatW2 2#16 1#16).extractLsb' 16 16 ≠ 0#16 ∧ (sHandler.chan 0).q.liveList = [2#16]) ∧
    (State.reset.Inv ∧ Running State.reset ∧ (State.reset.chan 0).q.liveList = []) :=
  ⟨⟨by constructor <;> decide +kernel, by decide +kernel⟩, ⟨by constructor <;> decide +kernel, by decide⟩⟩
theorem witness_EvcompDelivers :
    (∃ y, TicketAt (sRead 0#32) 1#16 y ∧ y.kind = .read ∧ y.reply.length = 8) ∧
    (∃ y, TicketAt sWrite 1#16 y ∧ y.kind = .write ∧ y.frame.length = 8) ∧
    (∀ s ∈ [sRead 0#32, sWrite], Running s ∧ (0#8).toNat < s.cfg.numChannels ∧ s.ch[(0#8).toNat]? = some (s.chan 0) ∧
      (s.chan 0).q.Holds (1#16 :: []) ∧ (s.chan 0).per = startedPer) ∧ 3#2 ≠ 0#2 := by
  refine ⟨⟨((sRead 0#32).ticket? 1#16).getD read6, ?_⟩, ⟨(sWrite.ticket? 1#16).getD read6, ?_⟩, ?_⟩ <;> decide +kernel
theorem witness_EvcompFaults :
    Running sNew ∧ sNew.cfg.numChannels ≤ (1#8).toNat ∧ (0#8).toNat < sNew.cfg.numChannels ∧
    sNew.ch[(0#8).toNat]? = some (sNew.chan 0) ∧ (sNew.chan 0).per.armed = false ∧
    Running sDone ∧ sDone.ch[(0#8).toNat]? = some (sDone.chan 0) ∧ (sDone.chan 0).per.stRx = true := by decide +kernel
theorem witness_EvtickSetsTheLatch :
    Running sNew ∧ (0#8).toNat < sNew.cfg.numChannels ∧ sNew.ch[(0#8).toNat]? = some (sNew.chan 0) ∧
    sNew.cfg.numChannels ≤ (1#8).toNat := by decide

/-- The hypotheses of the statement on the completion take. -/
abbrev CompletionHyps (s : State) (x : Channel) (h : Handle) (l : List Handle) (y : Ticket) (bs : List Byte) (st : Status) : Prop :=
  Running s ∧ s.hphase = .none ∧ QueueAt s 0 x (h :: l) ∧ TicketAt s h y ∧
    x.per.armed = true ∧ x.per.ieRx = true ∧ x.per.ieTo = true ∧ (x.per.stRx = true ∨ x.per.stTo = true) ∧
    bs.length = 8 ∧ ((y.kind = .read → y.reply = bs.map some) ∧ (y.kind = .write → y.frame = bs.map some)) ∧
    (x.per.stTo = true → st = .timedOut) ∧
    (x.per.stTo = false → crc8 bs 8 = bs.getD 7 0#8 → st = .completedOk) ∧
    (x.per.stTo = false → crc8 bs 8 ≠ bs.getD 7 0#8 → st = .crcError)
/-- A read timed out, alone on its channel; a write with a bad echo; a good read with a handler, a ticket queued behind it. -/
def sComp1 : State := sched (sTimedOut 0#32) [.takeComp 0]
def sComp2 : State :=
  sched (run s0 [.chnew 0#8, .chwr 0#8 0#8 0#7 0#32 0xFFFF#32, .chrd 0#8 0#8 6#7 0#32, .evcomp 0#8 1#2 0x50000100#32 0x000000C5#32])
    [.takeComp 0]
def sComp3 : State := sched sDone [.takeComp 0]
theorem witness_CompletionTakeFinishesTheTransfer :
    (∃ y, CompletionHyps sComp1 (sComp1.chan 0) 1#16 [] y (eightBytes 0#32 0#32) .timedOut ∧ y.hid = 0x0000#16) ∧
    (∃ y, CompletionHyps sComp2 (sComp2.chan 0) 1#16 [2#16] y (eightBytes 0x50000100#32 0x000000C5#32) .crcError ∧
      y.hid = 0xFFFF#16 ∧ sComp2.cfg.nextStart = .deferred) ∧
    (∃ y, CompletionHyps sComp3 (sComp3.chan 0) 1#16 [2#16] y (eightBytes 0x5000D812#32 0x34567861#32) .completedOk ∧
      y.hid ≠ 0x0000#16 ∧ y.hid ≠ 0xFFFF#16) := by
  refine ⟨⟨(sComp1.ticket? 1#16).getD read6, ?_⟩, ⟨(sComp2.ticket? 1#16).getD read6, ?_⟩, ⟨(sComp3.ticket? 1#16).getD read6, ?_⟩⟩ <;>
    decide +kernel
theorem witness_CompletionTakeFinishesTheTransfer_immediate :
    (∃ y, CompletionHyps sImm (sImm.chan 0) 1#16 [2#16] y (eightBytes 0x50000000#32 0x0000053A#32) .timedOut ∧ y.hid = 0x0000#16) ∧
    sImm.cfg.nextStart = .immediate ∧ 1#16 ≠ 2#16 ∧ TicketAt sImm 2#16 read6 ∧ Starts sImm 0 2#16 read6 pstart6 := by
  refine ⟨⟨(sImm.ticket? 1#16).getD read6, ?_⟩, ?_, ?_, ?_,
    .inl ⟨by decide, 0x50#8, 0x00#8, 0x0C#8, 0x17#8, List.replicate 4 none, by decide +kernel, by decide +kernel⟩⟩ <;> decide +kernel
/-- `n` ticks taken in `sIdle`, and one more arrived. -/
def sTick : Nat → State
  | 0 => sched (after sIdle (.evtick 0#8)) [.takeTick 0]
  | n + 1 => sched (after (stepped (sTick n)) (.evtick 0#8)) [.takeTick 0]
/-- A ticket of `sIdle`'s queue is a write: its PSTART. -/
def pstart2 : Output := .pstart 0 [0x50#8, 0x00#8, 0x21#8, 0x00#8, 0x00#8, 0x00#8, 0x07#8, 0xE5#8] 8 (.frame 2#16) 8 1
/-- Ticket 2 of `sIdle`. -/
def write7 : Ticket := writeTicket .msbFirst 0 0#8 0x10#7 7#32 0xFFFF#16
theorem witness_TickTakeCountsOrStarts :
    (∀ s ∈ [sched (after s0 (.evtick 0#8)) [.takeTick 0], sched (after sNew (.evtick 0#8)) [.takeTick 0], sTick 0, sTick 1, sTick 2],
      Running s ∧ s.hphase = .none ∧ s.ch[0]? = some (s.chan 0) ∧ (s.chan 0).tickp = true) ∧
    ((after s0 (.evtick 0#8)).chan 0).init = false ∧ ((after sNew (.evtick 0#8)).chan 0).idle = 0xFF#8 ∧
    ((sTick 0).chan 0).idle = 0#8 ∧ ((sTick 1).chan 0).idle.toNat + 1 = (sTick 1).cfg.debounceT ∧
    (sTick 2).cfg.debounceT < ((sTick 2).chan 0).idle.toNat + 1 ∧ ((sTick 2).chan 0).init = true ∧
    ((sTick 2).chan 0).per.armed = false ∧ ((sTick 2).chan 0).q.Holds (2#16 :: []) ∧ TicketAt (sTick 2) 2#16 write7 := by decide +kernel
/-- The clauses that no reachable state meets: an idle counter past the threshold on an empty queue, and on an armed channel. -/
theorem witness_TickTakeCountsOrStarts_faults :
    let s := withChan (sTick 2) 0 { sNew.chan 0 with tickp := true, idle := 2#8 }
    let t := withChan (sTick 2) 0 { (sTick 2).chan 0 with per := startedPer }
    (Running s ∧ s.hphase = .none ∧ s.ch[0]? = some (s.chan 0) ∧ (s.chan 0).tickp = true ∧ (s.chan 0).init = true ∧
      (s.chan 0).idle ≠ 0xFF#8 ∧ s.cfg.debounceT < (s.chan 0).idle.toNat + 1 ∧ (s.chan 0).q.Holds []) ∧
    (Running t ∧ t.hphase = .none ∧ t.ch[0]? = some (t.chan 0) ∧ (t.chan 0).tickp = true ∧ (t.chan 0).init = true ∧
      (t.chan 0).idle ≠ 0xFF#8 ∧ t.cfg.debounceT < (t.chan 0).idle.toNat + 1 ∧ (t.chan 0).per.armed = true ∧
      (t.chan 0).q.Holds (2#16 :: [])) := by decide +kernel
theorem witness_TickTakeCountsOrStarts_starts : Starts (sTick 2) 0 2#16 write7 pstart2 :=
  .inr ⟨by decide, [0x50#8, 0x00#8, 0x21#8, 0x00#8, 0x00#8, 0x00#8, 0x07#8, 0xE5#8], by decide, by decide +kernel, by decide +kernel⟩
theorem witness_EventsHeldDuringHandler :
    sHandler.hphase ≠ .none ∧ Running sHandler := by decide +kernel
theorem witness_DebounceStartsAfterThreshold :
    sIdle.ch[0]? = some (sIdle.chan 0) ∧ (sIdle.chan 0).idle = 0x00#8 ∧ sIdle.cfg.debounceT ≤ 253 ∧ (sIdle.chan 0).per.armed = false ∧
    (sIdle.chan 0).q.Holds (2#16 :: []) ∧ TicketAt sIdle 2#16 write7 := by decide +kernel
theorem witness_DebounceStartsAfterThreshold_starts : Starts sIdle 0 2#16 write7 pstart2 :=
  .inr ⟨by decide, [0x50#8, 0x00#8, 0x21#8, 0x00#8, 0x00#8, 0x00#8, 0x07#8, 0xE5#8], by decide, by decide +kernel, by decide +kernel⟩
theorem witness_ResetMeetsInvariants :
    Config.specVectors.Valid ∧ ({ Config.specVectors with numChannels := 128, numFifos := 128, maxTickets := 65535, initCapacity := 65535, memLimit := 65535, debounceT := 253 } : Config).Valid ∧
    ({ Config.specVectors with numFifos := 0, maxTickets := 1, initCapacity := 0, memLimit := 0, debounceT := 0 } : Config).Valid := by
  decide
theorem reset_inv : State.reset.Inv := by constructor <;> decide +kernel
/-- A state that meets the invariants with a transfer finished and a ticket queued. -/
theorem done_inv : sComp3.Inv := by constructor <;> decide +kernel
/-- A state that meets the invariants with a handler active and a terminal ticket. -/
theorem handler_inv : sHandler.Inv := by constructor <;> decide +kernel
/-- A state that meets the invariants with an active idle counter. -/
theorem idle_inv : (sTick 2).Inv := by constructor <;> decide +kernel
theorem done_step : step sComp3 = .next sHandler := next_of_goesTo (by decide +kernel)
theorem witness_StepKeepsInvariants : sComp3.Inv ∧ step sComp3 = .next sHandler := ⟨done_inv, done_step⟩
theorem witness_StepNeverStops : (sTick 2).Inv := idle_inv
theorem witness_ReachableStatesMeetInvariants :
    Config.specVectors.Valid ∧ Reachable Config.specVectors (stepped (atHost [0x40000000#32])) :=
  ⟨by decide, .step _ _ (.input _ [0x40000000#32] [] [.host] .reset) (next_of_goesTo (by decide))⟩
theorem witness_UnreachableFaultsAreNotRaised :
    sComp3.Inv ∧ Running sComp3 ∧ step sComp3 = .next sHandler ∧ sComp3.sched = .takeComp 0 :: [] :=
  ⟨done_inv, by decide +kernel, done_step, by decide +kernel⟩
theorem witness_TicketStatusChangesOnce :
    (∃ x, sComp3.Inv ∧ step sComp3 = .next sHandler ∧ TicketAt sComp3 1#16 x ∧ x.status = .pending) ∧
    (∃ x, sHandler.Inv ∧ step sHandler = .next sHandler ∧ TicketAt sHandler 1#16 x ∧ x.status ≠ .pending) := by
  refine ⟨⟨(sComp3.ticket? 1#16).getD read6, done_inv, done_step, ?_⟩,
    ⟨(sHandler.ticket? 1#16).getD read6, handler_inv, next_of_goesTo ?_, ?_⟩⟩ <;> decide +kernel
theorem witness_HandlerPhaseChanges : step sComp3 = .next sHandler ∧ sComp3.hphase = .none ∧ sHandler.hphase = .active 0#7 1#16 :=
  ⟨done_step, by decide +kernel⟩
theorem witness_ChannelQueueDiscipline :
    sComp3.Inv ∧ step sComp3 = .next sHandler ∧ sComp3.ch[0]? = some (sComp3.chan 0) ∧ sHandler.ch[0]? = some (sHandler.chan 0) ∧
    (sComp3.chan 0).q.Holds [1#16, 2#16] ∧ (sHandler.chan 0).q.Holds [2#16] :=
  ⟨done_inv, done_step, by decide +kernel⟩
theorem witness_ChannelStepsTouchOneChannel :
    isChannelInstr (.chnew 0#8) = true ∧ isChannelInstr (.evtick 0#8) = true ∧ exec (.chnew 0#8) s0 = .next sNew ∧
    takeTick 0 (sched (sTick 0) []) = .next (stepped (sTick 0)) :=
  ⟨by decide, by decide, next_of_goesTo (by decide), next_of_goesTo (by decide +kernel)⟩
theorem witness_StepKeepsConfigAndOutputs : step sComp3 = .next sHandler := done_step

end Sys2Proof.Tests
end

section
/-! SUPPORT. Capacities only grow (spec 10 R19), and the values after reset (spec 10 R34). -/

namespace Sys2Proof.Machine

/-! ## Tables whose entries are kept up to a relation -/

/-- Every entry of table `a` still stands in table `b`, in relation `R` to what stands there now. -/
def EntriesKept {α : Type} (R : α → α → Prop) (a b : List α) : Prop :=
  ∀ (i : Nat) (x : α), a[i]? = some x → ∃ y, b[i]? = some y ∧ R x y

theorem EntriesKept.refl {α : Type} {R : α → α → Prop} (hR : ∀ x, R x x) (a : List α) : EntriesKept R a a :=
  fun _ x hx => ⟨x, hx, hR x⟩

theorem EntriesKept.trans {α : Type} {R : α → α → Prop} (hR : ∀ x y z, R x y → R y z → R x z) {a b c : List α}
    (hab : EntriesKept R a b) (hbc : EntriesKept R b c) : EntriesKept R a c := by
  intro i x hx
  obtain ⟨y, hy, hxy⟩ := hab i x hx
  obtain ⟨z, hz, hyz⟩ := hbc i y hy
  exact ⟨z, hz, hR x y z hxy hyz⟩

/-- A write to one entry keeps the table where it keeps that entry. -/
theorem EntriesKept.set {α : Type} {R : α → α → Prop} (hR : ∀ x, R x x) {a : List α} {i : Nat} {x y : α}
    (hx : a[i]? = some x) (hxy : R x y) : EntriesKept R a (a.set i y) := by
  intro j z hz
  obtain ⟨hi, -⟩ := List.getElem?_eq_some_iff.mp hx
  by_cases hij : i = j
  · subst hij
    obtain rfl : x = z := Option.some.inj (hx.symm.trans hz)
    exact ⟨y, List.getElem?_set_self hi, hxy⟩
  · exact ⟨z, by rw [List.getElem?_set_ne hij, hz], hR z⟩

/-! ## The capacity each queue operation leaves (spec 41 section 1) -/

section
variable {w : Nat} {g : Config} {q q' : Queue w}

theorem Queue.append_cap {l : List (BitVec w)} (h : q.append l = .ok q') : q'.cap = q.cap := by
  simp only [Queue.append, bind_eq_ok, Except.ok.injEq] at h
  obtain ⟨cell, hw, rfl⟩ := h
  exact memWrite_length hw

theorem Queue.compact_cap (h : q.compact = .ok q') : q'.cap = q.cap := by
  simp only [Queue.compact, bind_eq_ok, Except.ok.injEq] at h
  obtain ⟨l, -, cell, hw, rfl⟩ := h
  exact memWrite_length hw

theorem Queue.grow_cap {k : Nat} (h : q.grow g k = .ok q') : q'.cap = q.cap + k := by
  unfold Queue.grow at h
  split at h
  · simp at h
  · simp only [bind_eq_ok, Except.ok.injEq] at h
    obtain ⟨l, -, cell, hw, rfl⟩ := h
    simpa [Queue.cap] using memWrite_length hw

theorem Queue.makeRoom_cap_le {n : Nat} {r : Queue w × Bool} (h : q.makeRoom g n = .ok r) : q.cap ≤ r.1.cap := by
  unfold Queue.makeRoom at h
  split at h
  case isTrue =>
    simp only [Except.ok.injEq] at h
    subst h
    exact le_rfl
  case isFalse =>
    split at h <;> simp only [bind_eq_ok, Except.ok.injEq] at h <;> obtain ⟨p, hp, rfl⟩ := h
    case isTrue => exact (Queue.compact_cap hp).ge
    case isFalse => rw [Queue.grow_cap hp]; exact Nat.le_add_right _ _

theorem Queue.place_cap_le {l : List (BitVec w)} {r : Queue w × Bool} (h : q.place g l = .ok r) : q.cap ≤ r.1.cap := by
  unfold Queue.place at h
  split at h
  case isTrue =>
    simp only [Except.ok.injEq] at h
    subst h
    exact le_rfl
  case isFalse =>
    simp only [bind_eq_ok, Except.ok.injEq] at h
    obtain ⟨p, hp, p', hp', rfl⟩ := h
    exact (Queue.makeRoom_cap_le hp).trans (Queue.append_cap hp').ge

theorem Queue.normalize_cap_le {r : Queue w × Bool} (h : q.normalize g = .ok r) : q.cap ≤ r.1.cap := by
  unfold Queue.normalize at h
  split at h
  case isTrue =>
    simp only [Except.ok.injEq] at h
    subst h
    exact le_rfl
  case isFalse =>
    split at h <;> simp only [bind_eq_ok, Except.ok.injEq] at h <;> obtain ⟨p, hp, rfl⟩ := h
    case isTrue => exact (Queue.compact_cap hp).ge
    case isFalse => rw [Queue.grow_cap hp]; exact Nat.le_add_right _ _

end

/-! ## States whose queues have grown -/

/-- The capacity of `q` is at most that of `q'`. -/
def Queue.CapLe {w : Nat} (q q' : Queue w) : Prop := q.cap ≤ q'.cap

theorem Queue.CapLe.refl {w : Nat} (q : Queue w) : q.CapLe q := Nat.le_refl q.cap

theorem Queue.CapLe.trans {w : Nat} (q q' q'' : Queue w) (h : q.CapLe q') (h' : q'.CapLe q'') : q.CapLe q'' := Nat.le_trans h h'

/-- A created channel stays created, its queue's capacity at least what it was: the life of a channel's queue begins with CHNEW
(spec 44 R133). -/
def Channel.CapLe (x y : Channel) : Prop := x.init = true → y.init = true ∧ x.q.cap ≤ y.q.cap

theorem Channel.CapLe.refl (x : Channel) : x.CapLe x := fun hi => ⟨hi, le_rfl⟩

theorem Channel.CapLe.trans (x y z : Channel) (hxy : x.CapLe y) (hyz : y.CapLe z) : x.CapLe z := by
  intro hi
  obtain ⟨hi', hle⟩ := hxy hi
  exact ⟨(hyz hi').1, hle.trans (hyz hi').2⟩

/-- An update that keeps `init` and the capacity keeps the channel's queue. -/
theorem Channel.CapLe.of_eq {x y : Channel} (hi : y.init = x.init) (hq : y.q.cap = x.q.cap) : x.CapLe y :=
  fun h => ⟨hi.trans h, hq.ge⟩

/-- No FIFO and no created channel of `s` has a smaller capacity in `t` (spec 10 R19). It speaks of the two tables only, so the
field lemmas of every other update of the state rewrite it. -/
abbrev State.CapLe (s t : State) : Prop := EntriesKept Queue.CapLe s.fifo t.fifo ∧ EntriesKept Channel.CapLe s.ch t.ch

theorem State.CapLe.refl (s : State) : s.CapLe s :=
  ⟨EntriesKept.refl Queue.CapLe.refl _, EntriesKept.refl Channel.CapLe.refl _⟩

theorem State.CapLe.trans {s t u : State} (hst : s.CapLe t) (htu : t.CapLe u) : s.CapLe u :=
  ⟨hst.1.trans Queue.CapLe.trans htu.1, hst.2.trans Channel.CapLe.trans htu.2⟩

theorem State.capLe_of_tables_eq {s t : State} (hf : t.fifo = s.fifo) (hc : t.ch = s.ch) : s.CapLe t := by
  rw [State.CapLe, hf, hc]
  exact State.CapLe.refl s

theorem State.capLe_setFifo {s : State} {k : Nat} {q q' : Queue 32} (hq : s.fifo[k]? = some q) (hle : q.cap ≤ q'.cap) :
    s.CapLe (s.setFifo k q') :=
  ⟨EntriesKept.set Queue.CapLe.refl hq hle, EntriesKept.refl Channel.CapLe.refl _⟩

theorem State.capLe_setCh {s : State} {c : Nat} {x y : Channel} (hx : s.ch[c]? = some x) (hle : x.CapLe y) :
    s.CapLe (s.setCh c y) :=
  ⟨EntriesKept.refl Queue.CapLe.refl _, EntriesKept.set Channel.CapLe.refl hx hle⟩

/-- A fault latched, or a block already faulted, leaves every queue; so a step keeps what its rule keeps. -/
theorem runStep_capLe {opc u : BitVec 8} {s t : State} {body : Op State} (h : runStep opc u s body = .next t)
    (hbody : ∀ t', body = .ok t' → s.CapLe t') : s.CapLe t := by
  rcases runStep_eq_next.mp h with ⟨-, rfl⟩ | ⟨-, hok | ⟨e, -, rfl⟩⟩
  · exact State.CapLe.refl s
  · exact hbody t hok
  · exact State.CapLe.refl s

/-- A command whose rule is its answer alone. -/
theorem command_respondOk_capLe {o : Opcode} {u : BitVec 8} {s t : State} {ws : List Word}
    (h : command o u s (.ok (s.respondOk ws)) = .next t) : s.CapLe t := by
  refine runStep_capLe (opc := o.code) (u := u) h fun t' hb => ?_
  obtain rfl : s.respondOk ws = t' := Except.ok.inj hb
  exact State.CapLe.refl s

/-! ## FIFO commands (spec 41) -/

section
variable {s t : State} {u : BitVec 8}

/-- A write to the FIFO that a mutating UNIT selects, by a queue of no smaller capacity. -/
theorem setFifo_qselMut_capLe {sel : Nat × Queue 32} {q' : Queue 32} (h : s.qselMut u = .ok sel) (hle : sel.2.cap ≤ q'.cap) :
    s.CapLe (s.setFifo sel.1 q') := by
  obtain ⟨-, -, hk, hq⟩ := qselMut_eq_ok.mp h
  rw [hk]
  exact State.capLe_setFifo hq hle

theorem pushList_capLe {es : List Word} (h : s.pushList u es = .ok t) : s.CapLe t := by
  simp only [State.pushList, bind_eq_ok, Except.ok.injEq] at h
  obtain ⟨sel, hsel, r, hr, rfl⟩ := h
  exact setFifo_qselMut_capLe hsel (Queue.place_cap_le hr)

/-- Removing from the queue that UNIT selects moves its head and nothing else. -/
theorem popSelected_capLe {m : Bool} {sel : Selected} (h : s.qsel u m = .ok sel) (k : Nat) : s.CapLe (s.popSelected sel k) := by
  rcases qsel_eq_ok.mp h with ⟨-, -, -, x, -, -, rfl⟩ | ⟨-, -, q, hq, rfl⟩
  · exact State.CapLe.refl s
  · exact State.capLe_setFifo hq (Queue.pop_cap q k).ge

theorem pullCount_capLe {r : Bool} {n : Nat} (h : s.pullCount u r n = .ok t) : s.CapLe t := by
  simp only [State.pullCount, bind_eq_ok] at h
  obtain ⟨sel, hsel, h⟩ := h
  split at h
  case isTrue =>
    simp only [Except.ok.injEq] at h
    subst h
    exact State.CapLe.refl s
  case isFalse =>
    simp only [bind_eq_ok, Except.ok.injEq] at h
    obtain ⟨l, -, rfl⟩ := h
    cases r
    · exact State.CapLe.refl s
    · exact popSelected_capLe hsel n

theorem pullUntil_capLe {r : Bool} {e : Word} (h : s.pullUntil u r e = .ok t) : s.CapLe t := by
  simp only [State.pullUntil, bind_eq_ok] at h
  obtain ⟨sel, hsel, e', -, l, -, h⟩ := h
  split at h <;> simp only [Except.ok.injEq] at h <;> subst h
  case isTrue => exact State.CapLe.refl s
  case isFalse =>
    cases r
    · exact State.CapLe.refl s
    · exact popSelected_capLe hsel _

theorem execFpop_capLe {n : BitVec 16} (h : execFpop u n s = .next t) : s.CapLe t := by
  refine runStep_capLe h fun t' hb => ?_
  simp only [bind_eq_ok] at hb
  obtain ⟨sel, hsel, hb⟩ := hb
  split at hb <;> simp only [Except.ok.injEq] at hb <;> subst hb
  case isTrue => exact State.CapLe.refl s
  case isFalse => exact setFifo_qselMut_capLe hsel (Queue.pop_cap sel.2 _).ge

theorem execFpopu_capLe {e : Word} (h : execFpopu u e s = .next t) : s.CapLe t := by
  refine runStep_capLe h fun t' hb => ?_
  simp only [bind_eq_ok] at hb
  obtain ⟨sel, hsel, l, -, hb⟩ := hb
  split at hb <;> simp only [Except.ok.injEq] at hb <;> subst hb
  case isTrue => exact State.CapLe.refl s
  case isFalse => exact setFifo_qselMut_capLe hsel (Queue.pop_cap sel.2 _).ge

theorem execFnorm_capLe (h : execFnorm u s = .next t) : s.CapLe t := by
  refine runStep_capLe h fun t' hb => ?_
  simp only [bind_eq_ok, Except.ok.injEq] at hb
  obtain ⟨sel, hsel, r, hr, rfl⟩ := hb
  exact setFifo_qselMut_capLe hsel (Queue.normalize_cap_le hr)

theorem execFfind_capLe {e : Word} (h : execFfind u e s = .next t) : s.CapLe t := by
  refine runStep_capLe h fun t' hb => ?_
  simp only [bind_eq_ok, Except.ok.injEq] at hb
  obtain ⟨sel, -, e', -, l, -, rfl⟩ := hb
  exact State.CapLe.refl s

end

/-! ## Ticket commands (spec 43) -/

theorem execTval_capLe {hd : Handle} {s t : State} (h : execTval hd s = .next t) : s.CapLe t := by
  refine runStep_capLe h fun t' hb => ?_
  simp only [bind_eq_ok] at hb
  obtain ⟨x, -, hb⟩ := hb
  split at hb
  case isTrue => exact absurd hb (raise_ne_ok _ _)
  case isFalse =>
    simp only [bind_eq_ok, Except.ok.injEq] at hb
    obtain ⟨bs, -, rfl⟩ := hb
    exact State.CapLe.refl s

theorem execTrel_capLe {hd : Handle} {s t : State} (h : execTrel hd s = .next t) : s.CapLe t := by
  refine runStep_capLe h fun t' hb => ?_
  simp only [bind_eq_ok] at hb
  obtain ⟨x, -, hb⟩ := hb
  split at hb
  case isTrue => exact absurd hb (raise_ne_ok _ _)
  case isFalse =>
    simp only [Except.ok.injEq] at hb
    subst hb
    exact State.CapLe.refl s

/-! ## The sequencer (spec 44) -/

section
variable {s t : State} {c : Nat}

theorem startTransfer_capLe (h : s.startTransfer c = .ok t) : s.CapLe t := by
  obtain ⟨x, hd, tk, o, hx, -, -, -, -, rfl⟩ := startTransfer_eq_ok.mp h
  exact State.capLe_setCh hx (.of_eq rfl rfl)

theorem enqueue_capLe {hd : Handle} (h : s.enqueue c hd = .ok t) : s.CapLe t := by
  obtain ⟨x, r, hx, hr, h⟩ := enqueue_eq_ok.mp h
  have hplaced : s.CapLe (s.setCh c { x with q := r.1 }) :=
    State.capLe_setCh hx fun hi => ⟨hi, Queue.place_cap_le hr⟩
  rcases h with ⟨-, hstart⟩ | ⟨-, rfl⟩
  · exact hplaced.trans (startTransfer_capLe hstart)
  · exact hplaced

theorem submit_capLe {k : Kind} {dev : Byte} {reg : BitVec 7} {v hw : Word} (h : s.submit c k dev reg v hw = .ok t) :
    s.CapLe t := by
  obtain ⟨x, hid, a, s1, -, -, -, -, halloc, henq, rfl⟩ := submit_eq_ok.mp h
  obtain ⟨i, -, -, ha⟩ := tktAlloc_eq_ok.mp halloc
  have hkept : s.CapLe a.1 := by
    rw [ha]
    exact State.CapLe.refl s
  exact hkept.trans (enqueue_capLe (t := s1) henq)

theorem continuation_capLe (h : s.continuation c = .ok t) : s.CapLe t := by
  obtain ⟨x, hx, ⟨-, -, ⟨-, rfl⟩ | ⟨-, hstart⟩⟩ | ⟨-, rfl⟩⟩ := continuation_eq_ok.mp h
  · exact State.capLe_setCh hx (.of_eq rfl rfl)
  · exact startTransfer_capLe hstart
  · exact State.CapLe.refl s

theorem invokeHandler_capLe (s : State) (c : Nat) (hd : Handle) (st : Status) (hid : BitVec 16) :
    s.CapLe (s.invokeHandler c hd st hid) := by
  rcases invokeHandler_cases s c hd st hid with ⟨-, e⟩ | ⟨-, e⟩ | ⟨-, -, e⟩ <;> rw [e] <;> exact State.CapLe.refl s

theorem onCompletion_capLe (h : s.onCompletion c = .ok t) : s.CapLe t := by
  obtain ⟨x, hd, tk, st, s3, hx, -, -, -, -, -, rfl, h⟩ := onCompletion_eq_ok.mp h
  have hpopped : s.CapLe (((s.setCh c { x with q := x.q.pop 1, per := Periph.off }).emit (.preset c)).setTkt hd
      { tk with status := st }) := State.capLe_setCh hx (.of_eq rfl rfl)
  have hinvoked := hpopped.trans (invokeHandler_capLe _ c hd st tk.hid)
  rcases h with ⟨-, hcont⟩ | ⟨-, rfl⟩
  · exact hinvoked.trans (continuation_capLe hcont)
  · exact hinvoked

theorem idleTick_capLe (h : s.idleTick c = .ok t) : s.CapLe t := by
  obtain ⟨x, hx, ⟨-, rfl⟩ | ⟨-, -, -, s1, x1, hstart, hx1, rfl⟩ | ⟨-, -, rfl⟩⟩ := idleTick_eq_ok.mp h
  · exact State.CapLe.refl s
  · exact (startTransfer_capLe hstart).trans (State.capLe_setCh hx1 (.of_eq rfl rfl))
  · exact State.capLe_setCh hx (.of_eq rfl rfl)

theorem takeTickBody_capLe (h : s.takeTickBody c = .ok t) : s.CapLe t := by
  obtain ⟨x, hx, h⟩ := takeTickBody_eq_ok.mp h
  have htaken : s.CapLe (s.setCh c { x with tickp := false }) := State.capLe_setCh hx (.of_eq rfl rfl)
  rcases h with ⟨-, hidle⟩ | ⟨-, rfl⟩
  · exact htaken.trans (idleTick_capLe hidle)
  · exact htaken

theorem periphFinish_capLe {f : BitVec 2} {d : List Byte} (h : s.periphFinish c f d = .ok t) : s.CapLe t := by
  obtain ⟨x, hd, tk, tk', -, hx, -, -, -, -, -, -, -, rfl⟩ := periphFinish_eq_ok.mp h
  exact State.capLe_setCh (s := s.setTkt hd tk') hx (.of_eq rfl rfl)

/-- CHNEW writes a new queue, but only where the channel had not been created. -/
theorem execChnew_capLe {c : BitVec 8} (h : execChnew c s = .next t) : s.CapLe t := by
  refine runStep_capLe h fun t' hb => ?_
  simp only [bind_eq_ok, channelUnit_eq_ok] at hb
  obtain ⟨x, ⟨-, hx⟩, hb⟩ := hb
  split at hb
  case isTrue => exact absurd hb (raise_ne_ok _ _)
  case isFalse hinit =>
    simp only [Except.ok.injEq] at hb
    subst hb
    exact State.capLe_setCh hx fun hi => absurd hi hinit

theorem execHret_capLe {c : BitVec 8} (h : execHret c s = .next t) : s.CapLe t := by
  refine runStep_capLe h fun t' hb => ?_
  simp only [bind_eq_ok] at hb
  obtain ⟨x, -, hb⟩ := hb
  split at hb
  case h_1 => exact absurd hb (raise_ne_ok _ _)
  case h_2 =>
    simp only [bind_eq_ok, Except.ok.injEq] at hb
    obtain ⟨s', hcont, rfl⟩ := hb
    exact continuation_capLe (s := s.setHphase .none) (t := s') hcont

theorem execChstat_capLe {c : BitVec 8} (h : execChstat c s = .next t) : s.CapLe t := by
  refine runStep_capLe h fun t' hb => ?_
  simp only [bind_eq_ok, Except.ok.injEq] at hb
  obtain ⟨x, -, hd, -, rfl⟩ := hb
  exact State.CapLe.refl s

theorem execEvtick_capLe {c : BitVec 8} (h : execEvtick c s = .next t) : s.CapLe t := by
  refine runStep_capLe h fun t' hb => ?_
  simp only [bind_eq_ok, channelUnit_eq_ok, Except.ok.injEq] at hb
  obtain ⟨x, ⟨-, hx⟩, rfl⟩ := hb
  exact State.capLe_setCh hx (.of_eq rfl rfl)

end

/-! ## Steps -/

/-- Every instruction, by what it may write: one queue, one channel, or no table of queues at all. -/
theorem exec_capLe {i : Instr} {s t : State} (h : exec i s = .next t) : s.CapLe t := by
  cases i
  case fpush | fpushn => exact runStep_capLe h fun _ => pushList_capLe
  case fpull => exact runStep_capLe h fun _ => pullCount_capLe
  case fpullu => exact runStep_capLe h fun _ => pullUntil_capLe
  case chrd | chwr => exact runStep_capLe h fun _ => submit_capLe
  case evcomp => exact runStep_capLe h fun _ => periphFinish_capLe
  case fpop => exact execFpop_capLe h
  case fpopu => exact execFpopu_capLe h
  case ffind => exact execFfind_capLe h
  case fnorm => exact execFnorm_capLe h
  case tval => exact execTval_capLe h
  case trel => exact execTrel_capLe h
  case chnew => exact execChnew_capLe h
  case hret => exact execHret_capLe h
  case chstat => exact execChstat_capLe h
  case evtick => exact execEvtick_capLe h
  case fsize | fcap | fempty | crc8 | tstat =>
    refine runStep_capLe h fun t' hb => ?_
    simp only [bind_eq_ok, Except.ok.injEq] at hb
    obtain ⟨a, -, rfl⟩ := hb
    exact State.CapLe.refl s
  case mkrd => exact command_respondOk_capLe (o := .mkrd) (u := 0#8) h
  case mkwr => exact command_respondOk_capLe (o := .mkwr) (u := 0#8) h
  case parse => exact command_respondOk_capLe (o := .parse) (u := 0#8) h

/-- What a step does: nothing in a faulted block or with an empty schedule, else the scheduled agent's move. -/
theorem step_eq_next {s t : State} :
    step s = .next t ↔
      (s.faulted = true ∧ s = t) ∨
      (s.faulted = false ∧ ((s.sched = [] ∧ s = t) ∨
        ∃ m rest, s.sched = m :: rest ∧ agentMove m { s with sched := rest } = .next t)) := by
  unfold step
  cases s.faulted <;> cases s.sched <;> simp

theorem runDecoded_capLe {d : Decoded} {s t : State} {consumed : List Word → State} (h : runDecoded d s consumed = .next t)
    (hcons : ∀ rest, (consumed rest).fifo = s.fifo ∧ (consumed rest).ch = s.ch) : s.CapLe t := by
  cases d with
  | short =>
    obtain rfl : s = t := Host.Outcome.next.inj h
    exact State.CapLe.refl s
  | reject r hdr => exact runStep_capLe (body := raise .illegalCommand) h fun _ hb => absurd hb (raise_ne_ok _ _)
  | instr i rest => exact (State.capLe_of_tables_eq (hcons rest).1 (hcons rest).2).trans (exec_capLe h)

theorem takeCompletion_capLe {c : Nat} {s t : State} (h : takeCompletion c s = .next t) : s.CapLe t := by
  unfold takeCompletion at h
  split at h
  · exact runStep_capLe h fun _ => onCompletion_capLe
  · obtain rfl : s = t := Host.Outcome.next.inj h
    exact State.CapLe.refl s

theorem takeTick_capLe {c : Nat} {s t : State} (h : takeTick c s = .next t) : s.CapLe t := by
  unfold takeTick at h
  split at h
  · exact runStep_capLe h fun _ => takeTickBody_capLe
  · obtain rfl : s = t := Host.Outcome.next.inj h
    exact State.CapLe.refl s

theorem agentMove_capLe {m : Move} {s t : State} (h : agentMove m s = .next t) : s.CapLe t := by
  cases m with
  | host | event => exact runDecoded_capLe h fun _ => ⟨rfl, rfl⟩
  | takeComp c => exact takeCompletion_capLe h
  | takeTick c => exact takeTick_capLe h

theorem step_capLe {s t : State} (h : step s = .next t) : s.CapLe t := by
  rcases step_eq_next.mp h with ⟨-, rfl⟩ | ⟨-, ⟨-, rfl⟩ | ⟨m, rest, -, hm⟩⟩
  · exact State.CapLe.refl s
  · exact State.CapLe.refl s
  · exact agentMove_capLe (s := { s with sched := rest }) hm

end Sys2Proof.Machine

open Sys2Proof.Machine

/-- Settles O26: every step keeps `State.CapLe`, instruction by instruction and take by take. -/
theorem capacityNeverShrinks : Obligations.CapacityNeverShrinks := by
  intro s t h
  obtain ⟨hfifo, hch⟩ := step_capLe h
  refine ⟨hfifo, fun c x hx hi => ?_⟩
  obtain ⟨y, hy, hle⟩ := hch c x hx
  exact ⟨y, hy, (hle hi).2⟩

/-- Settles O50, from the field lemmas of `State.resetOf`. -/
theorem resetValues : Obligations.ResetValues := fun g =>
  ⟨State.resetOf_fault g, State.resetOf_hphase g, State.resetOf_fifo g, State.resetOf_tkt g, State.resetOf_ch g⟩

end

section
/-! SUPPORT. Illegal headers on the command port (spec 30 R75), the faulted block (spec 30 R79), and the completion take (spec 44
R127 to R130, 60 R151). -/

namespace Sys2Proof.Machine

open Sys2Proof.Claims

/-! ## Running and faulted blocks -/

theorem faulted_of_running {s : State} (h : Running s) : s.faulted = false := by simp [State.faulted, h]

theorem faulted_iff {s : State} : s.faulted = true ↔ s.fault.code ≠ 0x00#8 := by simp [State.faulted]

/-- A running block's step is the move of the agent that the schedule names. -/
theorem step_of_running {s t : State} {m : Move} {rest : List Move} (hrun : Running s) (hsched : s.sched = m :: rest)
    (hm : agentMove m { s with sched := rest } = .next t) : step s = .next t :=
  step_eq_next.mpr (.inr ⟨faulted_of_running hrun, .inr ⟨m, rest, hsched, hm⟩⟩)

/-- Every instruction is one step recorded with its own opcode and unit. -/
theorem exec_eq_runStep (i : Instr) (s : State) : ∃ body, exec i s = runStep i.opcode.code i.unitField s body := by
  cases i
  case mkrd | mkwr | parse => exact ⟨.ok (s.respondOk _), rfl⟩
  all_goals exact ⟨_, rfl⟩

theorem exec_of_faulted {s : State} (h : s.faulted = true) (i : Instr) : exec i s = .next s := by
  obtain ⟨body, hexec⟩ := exec_eq_runStep i s
  rw [hexec, runStep_of_faulted h]

theorem step_of_faulted {s : State} (h : s.faulted = true) : step s = .next s := step_eq_next.mpr (.inl ⟨h, rfl⟩)

theorem haltWord_of_faulted {s : State} (h : s.faulted = true) :
    s.haltWord = some (0xEE#8 ++ s.fault.opc ++ s.fault.unit ++ s.fault.code) := if_pos h

/-! ## Illegal headers -/

theorem decodeCommand_of_event {hdr : Word} (h : hdrIsEvent hdr = true) (ws : List Word) :
    decodeCommand (hdr :: ws) = .reject .eventOnCommandPort hdr := if_pos h

theorem illegalWord_of_running {s : State} (h : Running s) (hdr : Word) :
    illegalWord hdr s = .next (s.latch .illegalCommand (hdrUnit hdr) (hdrOpc hdr)) := runStep_raise (faulted_of_running h)

/-- The host's move on an event's header latches the fault, whatever words follow. -/
theorem hostMove_of_event {s : State} {hdr : Word} {ws : List Word} (hrun : Running s) (hcmd : s.cmd = hdr :: ws)
    (hevent : hdrIsEvent hdr = true) :
    hostMove s = .next (s.latch .illegalCommand (hdrUnit hdr) (hdrOpc hdr)) := by
  rw [hostMove, hcmd, decodeCommand_of_event hevent]
  exact illegalWord_of_running hrun hdr

/-! ## Starting a transfer (spec 44 R126) -/

theorem ticket?_of_ticketAt {s : State} {h : Handle} {x : Ticket} (ht : TicketAt s h x) : s.ticket? h = some x := by
  obtain ⟨h0, -, hx⟩ := ht
  simp [State.ticket?, h0, hx]

theorem pstartOf_of_starts {s : State} {c : Nat} {h : Handle} {x : Ticket} {o : Output} (hs : Starts s c h x o) :
    pstartOf s.cfg c h x = .ok o := by
  rw [pstartOf_eq_ok]
  rcases hs with ⟨hk, b0, b1, b2, b3, rest, hframe, rfl⟩ | ⟨hk, bs, hlen, hframe, rfl⟩
  · exact .inl ⟨hk, _, memRead_eq_ok.mpr (by simp [hframe]), rfl⟩
  · exact .inr ⟨hk, bs, memRead_eq_ok.mpr (by simp [hframe, ← hlen]), rfl⟩

theorem startTransfer_of_starts {s : State} {c : Nat} {x : Channel} {h : Handle} {l : List Handle} {y : Ticket} {o : Output}
    (hx : s.ch[c]? = some x) (harmed : x.per.armed = false) (hq : x.q.Holds (h :: l)) (hy : TicketAt s h y)
    (hs : Starts s c h y o) : s.startTransfer c = .ok ((s.setCh c { x with per := startedPer }).emit o) :=
  startTransfer_eq_ok.mpr ⟨x, h, y, o, hx, harmed, hq.head, ticket?_of_ticketAt hy, pstartOf_of_starts hs, rfl⟩

/-! ## The continuation of a completion (spec 44 R130), by what the channel's queue holds -/

section
variable {s : State} {c : Nat} {x : Channel} {l : List Handle}

theorem continuation_of_empty (hx : s.ch[c]? = some x) (hq : x.q.Holds []) : s.continuation c = .ok s := by
  have hsize : x.q.size = 0 := hq.length.symm
  exact continuation_eq_ok.mpr ⟨x, hx, .inr ⟨by omega, rfl⟩⟩

theorem continuation_deferred {h : Handle} (hx : s.ch[c]? = some x) (harmed : x.per.armed = false) (hq : x.q.Holds (h :: l))
    (hn : s.cfg.nextStart = .deferred) : s.continuation c = .ok (s.setCh c { x with idle := 0x00#8 }) := by
  have hsize : 1 ≤ x.q.size := by simp [← hq.length]
  exact continuation_eq_ok.mpr ⟨x, hx, .inl ⟨hsize, harmed, .inl ⟨hn, rfl⟩⟩⟩

theorem continuation_immediate {h : Handle} {y : Ticket} {o : Output} (hx : s.ch[c]? = some x) (harmed : x.per.armed = false)
    (hq : x.q.Holds (h :: l)) (hn : s.cfg.nextStart = .immediate) (hy : TicketAt s h y) (hs : Starts s c h y o) :
    s.continuation c = .ok ((s.setCh c { x with per := startedPer }).emit o) := by
  have hsize : 1 ≤ x.q.size := by simp [← hq.length]
  exact continuation_eq_ok.mpr ⟨x, hx, .inl ⟨hsize, harmed, .inr ⟨hn, startTransfer_of_starts hx harmed hq hy hs⟩⟩⟩

end

/-! ## Classification (spec 44 R128) -/

theorem inbound_eq {y : Ticket} {b : List (Option Byte)}
    (h : (y.kind = .read → y.reply = b) ∧ (y.kind = .write → y.frame = b)) : y.inbound = b := by
  unfold Ticket.inbound
  cases hk : y.kind with
  | read => exact h.1 hk
  | write => exact h.2 hk

theorem classify_timedOut (y : Ticket) : classify y true = .ok .timedOut := rfl

/-- Without a timeout, the checksum of the 8 bytes received decides. -/
theorem classify_received {y : Ticket} {bs : List Byte} (hlen : bs.length = 8) (hin : y.inbound = bs.map some) :
    classify y false = .ok (if crc8 bs 8 = bs.getD 7 0#8 then .completedOk else .crcError) :=
  classify_eq_ok.mpr (.inr ⟨rfl, bs, memRead_eq_ok.mpr (by simp [hin, ← hlen]), by simp [parse, frameOk]⟩)

/-- The notification's status word in the words of the statements: a channel number below 128 fits its 7 bits. -/
theorem notifyN0_ofNat {c : Nat} (hc : c < 128) (st : Status) : notifyN0 (BitVec.ofNat 7 c) st = notifyWord c st := by
  have hchan : (BitVec.ofNat 7 c).zeroExtend 8 = BitVec.ofNat 8 c := by
    apply BitVec.eq_of_toNat_eq
    simp only [BitVec.truncate_eq_setWidth, BitVec.toNat_setWidth, BitVec.toNat_ofNat]
    omega
  unfold notifyN0 notifyWord
  rw [hchan]
  cases st <;> rfl

/-! ## The completion take (spec 44 R127, 60 R151) -/

/-- Channel `c` stands before its completion take: its head ticket `h` is `y`, classified `st`, and `l` is queued behind it. -/
structure Completing (s : State) (c : Nat) (x : Channel) (h : Handle) (l : List Handle) (y : Ticket) (st : Status) : Prop where
  running : Running s
  noHandler : s.hphase = .none
  queue : QueueAt s c x (h :: l)
  ticket : TicketAt s h y
  armed : x.per.armed = true
  pending : x.completionPending = true
  classified : classify y x.per.stTo = .ok st

/-- Without a host handler, what the slot of `y` holds once it is classified `st` (spec 44 R129). -/
abbrev SlotLeft (y : Ticket) (st : Status) (slot : Option Ticket) : Prop :=
  (y.hid = 0x0000#16 ∧ slot = some { y with status := st }) ∨ (y.hid = 0xFFFF#16 ∧ slot = none)

/-- `s` with the head of channel `c` popped, its peripheral reset, PRESET put out, and the slot of `h` holding `slot`. -/
def completed (s : State) (c : Nat) (x : Channel) (h : Handle) (slot : Option Ticket) : State :=
  withOut (withChan (withSlot s (h.toNat - 1) slot) c (finishedChannel x false)) [.preset c]

section
variable {s : State} {c : Nat} {x : Channel} {h : Handle} {l : List Handle} {y : Ticket} {st : Status} {slot : Option Ticket}

@[simp] theorem completed_cfg : (completed s c x h slot).cfg = s.cfg := rfl

@[simp] theorem completed_hphase : (completed s c x h slot).hphase = s.hphase := rfl

/-- `completed` in the operations of `on_completion`. -/
theorem completed_eq_setTkt : ((s.setCh c { x with q := x.q.pop 1, per := Periph.off }).emit (.preset c)).setTkt h y =
    completed s c x h (some y) := rfl

theorem completed_release : (completed s c x h slot).release h = completed s c x h none := by
  simp [completed, State.release, State.setSlot, withOut, withChan, withSlot]

/-- A later write to the channel replaces the finished channel. -/
theorem completed_setCh (z : Channel) : (completed s c x h slot).setCh c z =
    withOut (withChan (withSlot s (h.toNat - 1) slot) c z) [.preset c] := by
  simp [completed, State.setCh, withOut, withChan, withSlot]

theorem withOut_emit (os : List Output) (o : Output) : (withOut s os).emit o = withOut s (os ++ [o]) := by
  simp [withOut, State.emit]

theorem completed_ch (hx : s.ch[c]? = some x) : (completed s c x h slot).ch[c]? = some (finishedChannel x false) := by
  obtain ⟨hc, -⟩ := List.getElem?_eq_some_iff.mp hx
  exact List.getElem?_set_self hc

theorem completed_queue (hq : x.q.Holds (h :: l)) : (finishedChannel x false).q.Holds l := hq.pop (k := 1) (by simp)

/-- The other tickets of the table are as they were. -/
theorem completed_ticketAt {g : Handle} {z : Ticket} (h0 : h ≠ 0#16) (hg : TicketAt s g z) (hne : h ≠ g) :
    TicketAt (completed s c x h slot) g z := by
  obtain ⟨g0, hmax, hz⟩ := hg
  have hidx : h.toNat - 1 ≠ g.toNat - 1 := by bv_omega
  exact ⟨g0, hmax, (List.getElem?_set_ne hidx).trans hz⟩

/-- Handler ids NONE and DEFAULT_RELEASE only decide what the slot holds (spec 44 R129). -/
theorem invokeHandler_completed (hslot : SlotLeft y st slot) :
    (completed s c x h (some { y with status := st })).invokeHandler c h st y.hid = completed s c x h slot := by
  rcases hslot with ⟨hid, rfl⟩ | ⟨hid, rfl⟩ <;> rw [hid]
  · rfl
  · exact completed_release

/-- The take answers what the handler and, where none runs, the continuation leave. -/
theorem Completing.takeCompletion_eq {s3 t : State} (hs : Completing s c x h l y st)
    (hinvoke : (completed s c x h (some { y with status := st })).invokeHandler c h st y.hid = s3)
    (hrest : (s3.hphase = .none ∧ s3.continuation c = .ok t) ∨ (s3.hphase ≠ .none ∧ s3 = t)) :
    takeCompletion c s = .next t := by
  obtain ⟨-, -, hx, -, hq⟩ := hs.queue
  have hsize : x.q.size ≠ 0 := by simp [← hq.length]
  have hbody : s.onCompletion c = .ok t := onCompletion_eq_ok.mpr
    ⟨x, h, y, st, s3, hx, hs.armed, hsize, hq.head, ticket?_of_ticketAt hs.ticket, hs.classified, hinvoke, hrest⟩
  rw [takeCompletion, if_pos (compTakeable_iff.mpr ⟨hs.noHandler, x, hx, hs.pending⟩), hbody]
  exact runStep_ok (faulted_of_running hs.running)

/-- Without a host handler the continuation follows in the same step. -/
theorem Completing.takeCompletion_of_continuation {t : State} (hs : Completing s c x h l y st) (hslot : SlotLeft y st slot)
    (hcont : (completed s c x h slot).continuation c = .ok t) : takeCompletion c s = .next t :=
  hs.takeCompletion_eq (invokeHandler_completed hslot) (.inl ⟨hs.noHandler, hcont⟩)

/-- With nothing queued behind, or under DEFERRED, no transfer starts: the idle counter is activated where tickets are left. -/
theorem Completing.takeCompletion_waits (hs : Completing s c x h l y st) (hslot : SlotLeft y st slot)
    (hwait : l = [] ∨ s.cfg.nextStart = .deferred) :
    takeCompletion c s = .next
      (withOut (withChan (withSlot s (h.toNat - 1) slot) c (finishedChannel x (decide (l ≠ [])))) [.preset c]) := by
  obtain ⟨-, -, hx, -, hq⟩ := hs.queue
  refine hs.takeCompletion_of_continuation hslot ?_
  cases l with
  | nil => exact continuation_of_empty (completed_ch hx) (completed_queue hq)
  | cons g m =>
    have hn : s.cfg.nextStart = .deferred := hwait.resolve_left (List.cons_ne_nil g m)
    rw [continuation_deferred (completed_ch hx) rfl (completed_queue hq) hn, completed_setCh]
    rfl

/-- Under IMMEDIATE the next ticket's transfer starts. -/
theorem Completing.takeCompletion_starts {g : Handle} {m : List Handle} {z : Ticket} {o : Output}
    (hs : Completing s c x h (g :: m) y st)
    (hslot : SlotLeft y st slot)
    (hn : s.cfg.nextStart = .immediate) (hne : h ≠ g) (hz : TicketAt s g z) (ho : Starts s c g z o) :
    takeCompletion c s = .next
      (withOut (withChan (withSlot s (h.toNat - 1) slot) c { finishedChannel x false with per := startedPer })
        [.preset c, o]) := by
  obtain ⟨-, -, hx, -, hq⟩ := hs.queue
  refine hs.takeCompletion_of_continuation hslot ?_
  rw [continuation_immediate (completed_ch hx) rfl (completed_queue hq) hn (completed_ticketAt hs.ticket.1 hz hne) ho,
    completed_setCh, withOut_emit]
  rfl

/-- A host handler is entered and the continuation left to its return (spec 60 R154). -/
theorem Completing.takeCompletion_enters (hs : Completing s c x h l y st) (hnone : y.hid ≠ 0x0000#16)
    (hdefault : y.hid ≠ 0xFFFF#16) :
    takeCompletion c s = .next (withOut
      (withChan (withSlot { s with hphase := .active (BitVec.ofNat 7 c) h } (h.toNat - 1) (some { y with status := st }))
        c (finishedChannel x false))
      [.preset c, .notify (notifyWord c st) (h ++ y.hid)]) := by
  obtain ⟨hc, -⟩ := hs.queue
  rcases invokeHandler_cases (completed s c x h (some { y with status := st })) c h st y.hid with
    ⟨hid, -⟩ | ⟨hid, -⟩ | ⟨-, -, hentered⟩
  · exact absurd hid hnone
  · exact absurd hid hdefault
  · rw [completed, withOut_emit, notifyN0_ofNat hc] at hentered
    exact hs.takeCompletion_eq hentered (.inr ⟨HPhase.noConfusion, rfl⟩)

end

end Sys2Proof.Machine

open Sys2Proof Sys2Proof.Machine

/-- Settles O9: the decoder of the command port refuses the header, and the refusal is latched. -/
theorem eventOpcodeOnCommandPortFaults : Obligations.EventOpcodeOnCommandPortFaults := by
  intro s hdr ws r hrun hsched hcmd hevent
  have hmove := hostMove_of_event (s := { s with sched := r }) hrun hcmd hevent
  exact ⟨_, step_of_running hrun hsched hmove, rfl⟩

/-- Settles O10: every instruction and every step is one that a faulted block does not run. -/
theorem faultedBlockHalts : Obligations.FaultedBlockHalts := by
  intro s h
  have hf := faulted_iff.mpr h
  exact ⟨haltWord_of_faulted hf, exec_of_faulted hf, s, step_of_faulted hf, rfl⟩

/-- Settles O46, by the handler id and, without a host handler, by what the continuation does. -/
theorem completionTakeFinishesTheTransfer : Obligations.CompletionTakeFinishesTheTransfer := by
  intro s c x h l y bs st hrun hphase hqueue hticket harmed hrx hto hfinished hlen hbuf htimeout hgood hbad
  have hclass : classify y x.per.stTo = .ok st := by
    cases hstTo : x.per.stTo with
    | true => rw [htimeout hstTo, classify_timedOut]
    | false =>
      rw [classify_received hlen (inbound_eq hbuf)]
      split
      · rw [hgood hstTo ‹_›]
      · rw [hbad hstTo ‹_›]
  have hpending : x.completionPending = true := by simpa [Channel.completionPending, hrx, hto] using hfinished
  have hs : Completing s c x h l y st := ⟨hrun, hphase, hqueue, hticket, harmed, hpending, hclass⟩
  refine ⟨fun slot hslot => ⟨hs.takeCompletion_waits hslot, ?_⟩, hs.takeCompletion_enters⟩
  rintro g m z o rfl hn hne hz ho
  exact hs.takeCompletion_starts hslot hn hne hz ho

end

section
/-! SUPPORT. FPOP and FFIND (spec 41 R88, R89, R93, R97): the queue a UNIT selects, the position of an element, and what the two
commands answer. -/

namespace Sys2Proof.Machine

open Sys2Proof.Claims

/-! ## The queue that UNIT selects (spec 41 R83) -/

section
variable {s : State} {k c : Nat} {q : Queue 32} {x : Channel}

theorem qsel_of_fifoAt {l : List Word} (h : FifoAt s k q l) (m : Bool) : s.qsel (fifoUnit k) m = .ok (.fifo k q) := by
  obtain ⟨hk, hnum, hq, -⟩ := h
  have hidx := unitIndex_ofNat hk
  exact qsel_eq_ok.mpr (.inr ⟨unitIsChannel_ofNat hk, by rwa [hidx], q, by rwa [hidx], by rw [hidx]⟩)

theorem qselMut_of_fifoAt {l : List Word} (h : FifoAt s k q l) : s.qselMut (fifoUnit k) = .ok (k, q) := by
  rw [State.qselMut, qsel_of_fifoAt h, ok_bind]

theorem qsel_of_queueAt {l : List Handle} (h : QueueAt s c x l) : s.qsel (queueUnit c) false = .ok (.chan c x.q) := by
  obtain ⟨hc, hnum, hx, hinit, -⟩ := h
  have hidx := unitIndex_queue hc
  exact qsel_eq_ok.mpr (.inl ⟨unitIsChannel_queue hc, rfl, by rwa [hidx], x, by rwa [hidx], hinit, by rw [hidx]⟩)

end

/-! ## Handles as words (spec 30 R71, R76) -/

theorem zero_append_handle (e : Handle) : (0#16 ++ e : Word) = e.zeroExtend 32 :=
  (BitVec.setWidth_eq_append (by decide)).symm

theorem zeroExtend_handle_injective : Function.Injective (fun e : Handle => (e.zeroExtend 32 : Word)) :=
  fun a b h => by simpa using congrArg (BitVec.setWidth 16) h

/-- A zero-extended handle is an element that a channel's queue takes. -/
theorem element_chan_handle (c : Nat) (q : Queue 16) (e : Handle) :
    (Selected.chan c q).element (0#16 ++ e) = .ok (0#16 ++ e) :=
  element_eq_ok.mpr ⟨rfl, fun _ => BitVec.extractLsb'_append_eq_left⟩

theorem liveWords_chan_of_holds {c : Nat} {q : Queue 16} {l : List Handle} (h : q.Holds l) :
    (Selected.chan c q).liveWords = .ok (l.map fun e => e.zeroExtend 32) :=
  liveWords_chan_eq_ok.mpr ⟨l, h.live, rfl⟩

/-! ## Finding an element (spec 41 R89) -/

/-- Where distinct elements have distinct images, an element stands where its image stands. -/
theorem findPos_map {v w : Nat} {f : BitVec v → BitVec w} (hf : Function.Injective f) (l : List (BitVec v)) (e : BitVec v) :
    findPos (l.map f) (f e) = findPos l e := by
  induction l with
  | nil => rfl
  | cons y ys ih => simp [findPos, hf.eq_iff, ih]

/-- The position answered, in the words of the statements: the length of what stands before the first `e`, or the size. -/
theorem findPos_answers {w : Nat} {l : List (BitVec w)} {e : BitVec w} {r : Result} {s : State}
    (h : r = .next (answered s 0#32 [BitVec.ofNat 32 (findPos l e)])) :
    (∀ a b, l = a ++ e :: b → e ∉ a → r = .next (answered s 0#32 [BitVec.ofNat 32 a.length])) ∧
    (e ∉ l → r = .next (answered s 0#32 [BitVec.ofNat 32 l.length])) := by
  constructor
  · rintro a b rfl he
    rw [h, findPos_append he]
  · intro he
    rw [h, findPos_eq_length.mpr he]

/-! ## FFIND (spec 41 R97) -/

section
variable {s : State}

/-- FFIND answers the position in the live list of the queue selected, whichever kind of queue that is. -/
theorem ffind_of_selected {u : BitVec 8} {e : Word} {sel : Selected} {l : List Word} (hrun : Running s)
    (hsel : s.qsel u false = .ok sel) (helem : sel.element e = .ok e) (hlive : sel.liveWords = .ok l) :
    exec (.ffind u e) s = .next (answered s 0#32 [BitVec.ofNat 32 (findPos l e)]) := by
  change execFfind u e s = _
  rw [execFfind, hsel, ok_bind, helem, ok_bind, hlive, ok_bind, command, runStep_ok (faulted_of_running hrun)]
  rfl

theorem ffind_fifo {k : Nat} {q : Queue 32} {l : List Word} (hrun : Running s) (h : FifoAt s k q l) (e : Word) :
    exec (.ffind (fifoUnit k) e) s = .next (answered s 0#32 [BitVec.ofNat 32 (findPos l e)]) := by
  have hsel := qsel_of_fifoAt h false
  obtain ⟨-, -, -, hq⟩ := h
  exact ffind_of_selected hrun hsel rfl hq.live

theorem ffind_queue {c : Nat} {x : Channel} {l : List Handle} (hrun : Running s) (h : QueueAt s c x l) (e : Handle) :
    exec (.ffind (queueUnit c) (0#16 ++ e)) s = .next (answered s 0#32 [BitVec.ofNat 32 (findPos l e)]) := by
  have hsel := qsel_of_queueAt h
  obtain ⟨-, -, -, -, hq⟩ := h
  rw [ffind_of_selected hrun hsel (element_chan_handle c x.q e) (liveWords_chan_of_holds hq), zero_append_handle,
    findPos_map zeroExtend_handle_injective]

end

/-! ## FPOP (spec 41 R93) -/

/-- FPOP compares the count with the size of the FIFO, and moves its head or answers FAIL. -/
theorem fpop_fifo {s : State} {k : Nat} {q : Queue 32} {l : List Word} (hrun : Running s) (h : FifoAt s k q l)
    (n : BitVec 16) :
    exec (.fpop (fifoUnit k) n) s =
      .next (if q.size < n.toNat then s.respondFail else (s.setFifo k (q.pop n.toNat)).respondOk []) := by
  change execFpop (fifoUnit k) n s = _
  rw [execFpop, qselMut_of_fifoAt h, ok_bind, ← apply_ite Except.ok, command, runStep_ok (faulted_of_running hrun)]

end Sys2Proof.Machine

open Sys2Proof Sys2Proof.Machine

/-- Settles O17: what FPOP leaves is the queue popped, which holds the rest of the list. -/
theorem fpopRemovesPrefix : Obligations.FpopRemovesPrefix := by
  intro s k q l n hrun hat
  have hexec := fpop_fifo hrun hat n
  obtain ⟨-, -, -, hq⟩ := hat
  rw [← hq.length] at hexec
  refine ⟨fun hn => ⟨hq.pop hn, ?_⟩, fun hn => ?_⟩
  · rw [hexec, if_neg (Nat.not_lt.mpr hn)]
    rfl
  · rw [hexec, if_pos hn]
    rfl

/-- Settles O21, for both kinds of queue from the position that FFIND answers. -/
theorem ffindAnswersLeastPosition : Obligations.FfindAnswersLeastPosition := by
  intro s hrun
  exact ⟨fun k q l e hat => findPos_answers (ffind_fifo hrun hat e),
    fun c x l e hat => findPos_answers (ffind_queue hrun hat e)⟩

end

section
/-! SUPPORT. The codec commands CRC8, MKRD, MKWR and PARSE (spec 42): what their operands carry, the words that the two datagrams
pack into, and what the commands answer. -/

namespace Sys2Proof.Machine

open Sys2Proof.Claims

/-! ## Bytes in words (spec 20 R45) -/

/-- The three bytes of a word from bit `i` on, put together again. -/
theorem extract_three_bytes (w : Word) (i : Nat) :
    w.extractLsb' (i + 16) 8 ++ w.extractLsb' (i + 8) 8 ++ w.extractLsb' i 8 = w.extractLsb' i 24 := by
  have hhigh : w.extractLsb' (i + 16) 8 ++ w.extractLsb' (i + 8) 8 = w.extractLsb' (i + 8) 16 :=
    BitVec.extractLsb'_append_extractLsb'_eq_extractLsb' rfl
  rw [hhigh]
  exact BitVec.extractLsb'_append_extractLsb'_eq_extractLsb' rfl

theorem packWord_three_bytes_append (w : Word) (b : Byte) :
    packWord (w.extractLsb' 16 8) (w.extractLsb' 8 8) (w.extractLsb' 0 8) b = w.extractLsb' 0 24 ++ b :=
  congrArg (· ++ b) (extract_three_bytes w 0)

theorem packWord_eq_append (b0 b1 b2 b3 : Byte) : packWord b0 b1 b2 b3 = b0 ++ (b1 ++ b2 ++ b3) := by
  rw [packWord, BitVec.append_assoc, BitVec.append_assoc, BitVec.append_assoc]
  simp only [BitVec.cast_eq]

theorem packWord_append_three_bytes (b : Byte) (w : Word) :
    packWord b (w.extractLsb' 24 8) (w.extractLsb' 16 8) (w.extractLsb' 8 8) = b ++ w.extractLsb' 8 24 :=
  (packWord_eq_append b _ _ _).trans (congrArg (b ++ ·) (extract_three_bytes w 8))

/-- The operand bytes of two words, in the words of the statements. -/
theorem unpackWords_pair (w1 w2 : Word) : unpackWords [w1, w2] = eightBytes w1 w2 := rfl

/-! ## The datagrams as words (spec 42 R106 to R108) -/

section
variable (p : BitPacking) (dev : Byte) (reg : BitVec 7)

theorem packBytes_buildRead :
    packBytes (buildRead p dev reg) =
      [byte0 p ++ dev ++ byte2 p reg false ++ crc8 [byte0 p, dev, byte2 p reg false, 0x00#8] 4] := rfl

/-- The value's first byte closes the first word; its other three stand before the checksum in the second. -/
theorem packBytes_buildWrite (v : Word) :
    packBytes (buildWrite p dev reg v) =
      [byte0 p ++ dev ++ byte2 p reg true ++ v.extractLsb' 24 8,
       v.extractLsb' 0 24 ++ crc8 (byte0 p :: dev :: byte2 p reg true :: (eightBytes v 0#32).take 5) 8] := by
  rw [← packWord_three_bytes_append]
  rfl

end

/-! ## A received frame (spec 42 R109) -/

theorem frameOk_eightBytes (w1 w2 : Word) :
    frameOk (eightBytes w1 w2) = decide (crc8 (eightBytes w1 w2) 8 = w2.extractLsb' 0 8) := rfl

theorem flagWord_eq_bitWord (b : Bool) : flagWord b = bitWord b := rfl

theorem frameValue_eightBytes (w1 w2 : Word) :
    frameValue (eightBytes w1 w2) = w1.extractLsb' 0 8 ++ w2.extractLsb' 8 24 :=
  packWord_append_three_bytes (w1.extractLsb' 0 8) w2

/-! ## The operands of CRC8 (spec 42 R111) -/

/-- A count out of range and a byte of padding that is not 0 raise the same fault. -/
theorem crc8Operands_of_illegal {n : BitVec 16} {ws : List Word} (h : ¬crc8OperandsLegal n ws) :
    crc8Operands n ws = raise .illegalCommand := by
  have hne : crc8Operands n ws ≠ .ok ((unpackWords ws).take n.toNat) := fun hok => h (crc8Operands_eq_ok.mp hok).1
  unfold crc8Operands at hne ⊢
  split
  case isTrue => rfl
  case isFalse hcount =>
    rw [if_neg hcount] at hne
    split
    case isTrue => rfl
    case isFalse hpadding => exact absurd (if_neg hpadding) hne

/-! ## What the commands answer -/

section
variable {s : State}

/-- A command whose rule is its answer alone puts out one response and changes nothing else. -/
theorem command_respondOk {o : Opcode} {u : BitVec 8} {ws : List Word} (hrun : Running s) :
    command o u s (.ok (s.respondOk ws)) = .next (answered s 0#32 ws) := runStep_ok (faulted_of_running hrun)

theorem exec_crc8_of_legal {n : BitVec 16} {ws : List Word} (hrun : Running s) (h : crc8OperandsLegal n ws) :
    exec (.crc8 n ws) s = .next (answered s 0#32 [0#24 ++ crc8 ((unpackWords ws).take n.toNat) n.toNat]) := by
  have hword (b : Byte) : (0#24 ++ b : Word) = b.zeroExtend 32 := (BitVec.setWidth_eq_append (by decide)).symm
  change execCrc8 n ws s = _
  rw [execCrc8, crc8Operands_eq_ok.mpr ⟨h, rfl⟩, ok_bind, command_respondOk hrun, hword]

theorem exec_crc8_of_illegal {n : BitVec 16} {ws : List Word} (hrun : Running s) (h : ¬crc8OperandsLegal n ws) :
    exec (.crc8 n ws) s = .next (s.latch .illegalCommand 0x00#8 Opcode.crc8.code) := by
  change execCrc8 n ws s = _
  rw [execCrc8, crc8Operands_of_illegal h]
  exact runStep_raise (faulted_of_running hrun)

theorem exec_mkrd (hrun : Running s) (dev : Byte) (reg : BitVec 7) :
    exec (.mkrd dev reg) s = .next (answered s 0#32 (packBytes (buildRead s.cfg.bitPacking dev reg))) :=
  command_respondOk (o := .mkrd) (u := 0#8) hrun

theorem exec_mkwr (hrun : Running s) (dev : Byte) (reg : BitVec 7) (v : Word) :
    exec (.mkwr dev reg v) s = .next (answered s 0#32 (packBytes (buildWrite s.cfg.bitPacking dev reg v))) :=
  command_respondOk (o := .mkwr) (u := 0#8) hrun

theorem exec_parse (hrun : Running s) (w1 w2 : Word) :
    exec (.parse w1 w2) s = .next (answered s 0#32
      [flagWord (frameOk (eightBytes w1 w2)), frameValue (eightBytes w1 w2)]) := by
  rw [← unpackWords_pair]
  exact command_respondOk (o := .parse) (u := 0#8) hrun

end

end Sys2Proof.Machine

open Sys2Proof Sys2Proof.Machine

/-- Settles O28, by whether the operands are in their ranges. -/
theorem crc8Answers : Obligations.Crc8Answers := by
  intro s n ws hrun
  exact ⟨exec_crc8_of_legal hrun, exec_crc8_of_illegal hrun⟩

/-- Settles O29: each packing gives its own byte 0 and byte 2 to the words that the datagrams pack into. -/
theorem datagramsBuilt : Obligations.DatagramsBuilt := by
  intro s dev reg v hrun
  have hread := exec_mkrd hrun dev reg
  have hwrite := exec_mkwr hrun dev reg v
  rw [packBytes_buildRead] at hread
  rw [packBytes_buildWrite] at hwrite
  constructor <;> intro hp <;> rw [hp] at hread hwrite <;> exact ⟨hread, hwrite⟩

/-- Settles O30, from the flag and the value that the two words' bytes carry. -/
theorem parseAnswers : Obligations.ParseAnswers := by
  intro s w1 w2 hrun
  rw [exec_parse hrun, frameOk_eightBytes, frameValue_eightBytes, flagWord_eq_bitWord]

end

section
/-! SUPPORT. The ticket commands TSTAT, TVAL and TREL (spec 43 R121 to R124): the record a handle names, and what the commands make
of it. -/

namespace Sys2Proof.Machine

open Sys2Proof.Claims

/-! ## The record a handle names (spec 43 R121) -/

theorem validHandle_of_ticketAt {s : State} {h : Handle} {x : Ticket} (hx : TicketAt s h x) : s.validHandle h = true := by
  have hticket := ticket?_of_ticketAt hx
  obtain ⟨h0, hmax, -⟩ := hx
  have hpos : 1 ≤ h.toNat := by bv_omega
  simp [State.validHandle, hticket, hpos, hmax]

theorem validHandle_of_invalid {s : State} {h : Handle} (hi : InvalidHandle s h) : s.validHandle h = false := by
  rcases hi with rfl | hmax | hfree
  · rfl
  · simp [State.validHandle, Nat.not_le.mpr hmax]
  · simp [State.validHandle, State.ticket?, hfree]

theorem ticketOf_of_ticketAt {s : State} {h : Handle} {x : Ticket} (hx : TicketAt s h x) : s.ticketOf h = .ok x :=
  ticketOf_eq_ok.mpr ⟨validHandle_of_ticketAt hx, ticket?_of_ticketAt hx⟩

/-- A command whose rule begins with the record of its handle latches BadHandle where there is none. -/
theorem command_ticketOf_of_invalid {s : State} {h : Handle} {o : Opcode} {u : BitVec 8} {rule : Ticket → Op State}
    (hrun : Running s) (hi : InvalidHandle s h) :
    command o u s (s.ticketOf h >>= rule) = .next (faultedWith s 0x04#8 u o.code) := by
  rw [ticketOf_badHandle (validHandle_of_invalid hi)]
  exact runStep_raise (faulted_of_running hrun)

/-! ## The value of a finished read (spec 43 R123) -/

theorem valueReadable_iff {x : Ticket} :
    x.valueReadable = true ↔ x.kind = .read ∧ (x.status = .completedOk ∨ x.status = .crcError) := by
  simp [Ticket.valueReadable]

/-- A ticket that TVAL cannot read is a write, Pending or TimedOut. -/
theorem valueReadable_eq_false {x : Ticket} :
    x.valueReadable = false ↔ x.kind = .write ∨ x.status = .pending ∨ x.status = .timedOut := by
  rw [← Bool.not_eq_true, valueReadable_iff]
  cases x.kind <;> cases x.status <;> decide

/-! ## What the commands make of the record -/

section
variable {s : State} {h : Handle} {x : Ticket}

theorem exec_tstat (hrun : Running s) (hx : TicketAt s h x) :
    exec (.tstat h) s = .next (answered s 0#32 [x.status.word]) := by
  change execTstat h s = _
  rw [execTstat, ticketOf_of_ticketAt hx, ok_bind, command_respondOk hrun]

theorem exec_tval_of_readable {w1 w2 : Word} (hrun : Running s) (hx : TicketAt s h x) (hr : x.valueReadable = true)
    (hreply : x.reply = (eightBytes w1 w2).map some) :
    exec (.tval h) s = .next (answered s 0#32 [frameValue (eightBytes w1 w2)]) := by
  have hbytes : memRead x.reply 0 8 = .ok (eightBytes w1 w2) :=
    memRead_eq_ok.mpr (by simp [hreply, eightBytes])
  change execTval h s = _
  rw [execTval, ticketOf_of_ticketAt hx, ok_bind, if_neg (by simp [hr]), hbytes, ok_bind, command_respondOk hrun]
  rfl

theorem exec_tval_of_unreadable (hrun : Running s) (hx : TicketAt s h x) (hr : x.valueReadable = false) :
    exec (.tval h) s = .next (s.latch .valueUnavailable 0x00#8 Opcode.tval.code) := by
  change execTval h s = _
  rw [execTval, ticketOf_of_ticketAt hx, ok_bind, if_pos hr]
  exact runStep_raise (faulted_of_running hrun)

theorem exec_trel_of_terminal (hrun : Running s) (hx : TicketAt s h x) (hst : x.status ≠ .pending) :
    exec (.trel h) s = .next ((s.release h).respondOk []) := by
  change execTrel h s = _
  rw [execTrel, ticketOf_of_ticketAt hx, ok_bind, if_neg hst]
  exact runStep_ok (faulted_of_running hrun)

theorem exec_trel_of_pending (hrun : Running s) (hx : TicketAt s h x) (hst : x.status = .pending) :
    exec (.trel h) s = .next (s.latch .releasePending 0x00#8 Opcode.trel.code) := by
  change execTrel h s = _
  rw [execTrel, ticketOf_of_ticketAt hx, ok_bind, if_pos hst]
  exact runStep_raise (faulted_of_running hrun)

end

end Sys2Proof.Machine

open Sys2Proof Sys2Proof.Machine

/-- Settles O33: the three clauses are a record that is readable, one that is not, and no record. -/
theorem tvalAnswersReply : Obligations.TvalAnswersReply := by
  intro s h hrun
  refine ⟨fun x hx => ⟨fun w1 w2 hread hstatus hreply => ?_, fun hno => ?_⟩, command_ticketOf_of_invalid hrun⟩
  · rw [exec_tval_of_readable hrun hx (valueReadable_iff.mpr ⟨hread, hstatus⟩) hreply, frameValue_eightBytes]
  · exact exec_tval_of_unreadable hrun hx (valueReadable_eq_false.mpr hno)

/-- Settles O34, by whether the ticket is Pending. -/
theorem trelFreesTheSlot : Obligations.TrelFreesTheSlot := by
  intro s h hrun
  exact ⟨fun x hx => ⟨exec_trel_of_terminal hrun hx, exec_trel_of_pending hrun hx⟩, command_ticketOf_of_invalid hrun⟩

/-- Settles O32: the word answered is the code of each status. -/
theorem tstatAnswersStatus : Obligations.TstatAnswersStatus := by
  intro s h hrun
  refine ⟨fun x hx => ?_, command_ticketOf_of_invalid hrun⟩
  have hexec := exec_tstat hrun hx
  refine ⟨?_, ?_, ?_, ?_⟩ <;> intro hst <;> rw [hst] at hexec <;> exact hexec

end

section
/-! SUPPORT. The channel commands CHNEW, HRET and CHSTAT (spec 44 R130, R133, R136, R137): the channel a command names, the handler
that is active for it, and what the commands answer. -/

namespace Sys2Proof.Machine

open Sys2Proof.Claims

/-! ## The channel a command names (spec 30 R69) -/

section
variable {s : State} {c : Nat} {o : Opcode} {u : BitVec 8} {rule : Channel → Op State}

/-- A command whose rule begins with its channel runs the rest of the rule on that channel. -/
theorem command_channelUnit {x : Channel} (hc : c < s.cfg.numChannels) (hx : s.ch[c]? = some x) :
    command o u s (s.channelUnit c >>= rule) = command o u s (rule x) := by
  rw [channelUnit_eq_ok.mpr ⟨hc, hx⟩, ok_bind]

/-- Out of range, a command whose rule begins with its channel latches BadUnit. -/
theorem command_channelUnit_of_badUnit (hrun : Running s) (hc : s.cfg.numChannels ≤ c) :
    command o u s (s.channelUnit c >>= rule) = .next (faultedWith s 0x03#8 u o.code) := by
  rw [channelUnit_badUnit hc]
  exact runStep_raise (faulted_of_running hrun)

end

/-! ## The handler active for a channel (spec 10 R27) -/

theorem handlerOf_active {s : State} {c : Nat} {c7 : BitVec 7} {h : Handle} (hphase : s.hphase = .active c7 h)
    (hc : c7.toNat = c) : handlerOf s.hphase c = some h := by
  rw [hphase]
  exact if_pos hc

theorem handlerOf_eq_none {p : HPhase} {c : Nat} :
    handlerOf p c = none ↔ ∀ c7 h, p = .active c7 h → c7.toNat ≠ c := by
  cases p <;> simp [handlerOf]

/-! ## The continuation and the head of the queue -/

/-- While a transfer runs, nothing follows the handler. -/
theorem continuation_of_armed {s : State} {c : Nat} {x : Channel} (hx : s.ch[c]? = some x) (harmed : x.per.armed = true) :
    s.continuation c = .ok s :=
  continuation_eq_ok.mpr ⟨x, hx, .inr ⟨by simp [harmed], rfl⟩⟩

theorem headOr0_of_holds {q : Queue 16} {l : List Handle} (hq : q.Holds l) : q.headOr0 = .ok (l.headD 0#16) := by
  rw [Queue.headOr0, ← hq.length]
  cases l with
  | nil => rfl
  | cons h m => exact hq.head

/-! ## What the commands do -/

section
variable {s : State} {c : BitVec 8} {x : Channel}

theorem exec_chnew_of_uncreated (hrun : Running s) (hc : c.toNat < s.cfg.numChannels) (hx : s.ch[c.toNat]? = some x)
    (hinit : x.init = false) :
    exec (.chnew c) s = .next (answered (s.setCh c.toNat (newChannel s.cfg)) 0#32 []) := by
  change execChnew c s = _
  rw [execChnew, command_channelUnit hc hx, if_neg (by simp [hinit])]
  exact runStep_ok (faulted_of_running hrun)

theorem exec_chnew_of_created (hrun : Running s) (hc : c.toNat < s.cfg.numChannels) (hx : s.ch[c.toNat]? = some x)
    (hinit : x.init = true) : exec (.chnew c) s = .next (s.latch .badUnit c Opcode.chnew.code) := by
  change execChnew c s = _
  rw [execChnew, command_channelUnit hc hx, if_pos hinit]
  exact runStep_raise (faulted_of_running hrun)

theorem exec_hret_of_noHandler (hrun : Running s) (hc : c.toNat < s.cfg.numChannels) (hx : s.ch[c.toNat]? = some x)
    (hnone : handlerOf s.hphase c.toNat = none) :
    exec (.hret c) s = .next (s.latch .handlerProtocol c Opcode.hret.code) := by
  change execHret c s = _
  rw [execHret, command_channelUnit hc hx, hnone]
  exact runStep_raise (faulted_of_running hrun)

/-- HRET answers what the continuation leaves once the handler phase has ended. -/
theorem exec_hret_of_continuation {h : Handle} {t : State} (hrun : Running s) (hc : c.toNat < s.cfg.numChannels)
    (hx : s.ch[c.toNat]? = some x) (hsome : handlerOf s.hphase c.toNat = some h)
    (hcont : (s.setHphase .none).continuation c.toNat = .ok t) :
    exec (.hret c) s = .next (answered t 0#32 []) := by
  change execHret c s = _
  rw [execHret, command_channelUnit hc hx, hsome]
  change command .hret c s ((s.setHphase .none).continuation c.toNat >>= _) = _
  rw [hcont]
  exact runStep_ok (faulted_of_running hrun)

/-- CHSTAT answers the channel's flags, its queue, and the handler active for it. -/
theorem exec_chstat {l : List Handle} (hrun : Running s) (hc : c.toNat < s.cfg.numChannels)
    (hx : s.ch[c.toNat]? = some x) (hq : x.q.Holds l) :
    exec (.chstat c) s = .next (answered s 0#32
      [chstatW0 x (handlerOf s.hphase c.toNat).isSome, BitVec.ofNat 16 l.length ++ BitVec.ofNat 16 x.q.cell.length,
        chstatW2 (l.headD 0#16) ((handlerOf s.hphase c.toNat).getD 0#16)]) := by
  change execChstat c s = _
  rw [execChstat, command_channelUnit hc hx, headOr0_of_holds hq, ok_bind, chstatHandler_word, command_respondOk hrun,
    hq.length]
  rfl

end

end Sys2Proof.Machine

open Sys2Proof Sys2Proof.Machine

/-- Settles O35, by whether the channel exists and has been created. -/
theorem chnewCreatesTheChannel : Obligations.ChnewCreatesTheChannel := by
  intro s c hrun
  exact ⟨fun x hc hx => exec_chnew_of_uncreated hrun hc hx, fun x hc hx => exec_chnew_of_created hrun hc hx,
    command_channelUnit_of_badUnit hrun⟩

/-- Settles O39: past the two faults, HRET answers what each case of the continuation leaves. -/
theorem hretEndsTheHandler : Obligations.HretEndsTheHandler := by
  intro s c hrun
  refine ⟨command_channelUnit_of_badUnit hrun, fun hc hlen hother => ?_, fun c7 h x l hphase hc7 hqueue => ?_⟩
  · exact exec_hret_of_noHandler hrun hc (List.getElem?_eq_getElem hlen) (handlerOf_eq_none.mpr hother)
  · obtain ⟨-, hc, hx, -, hq⟩ := hqueue
    have hret {t : State} := exec_hret_of_continuation (t := t) hrun hc hx (handlerOf_active hphase hc7)
    refine ⟨fun hleft => hret ?_, fun hne harmed hn => hret ?_, fun g m y o hl harmed hn hy ho => hret ?_⟩
    · rcases hleft with rfl | harmed
      · exact continuation_of_empty hx hq
      · exact continuation_of_armed hx harmed
    · obtain ⟨g, m, rfl⟩ := List.exists_cons_of_ne_nil hne
      exact continuation_deferred hx harmed hq hn
    · subst hl
      exact continuation_immediate hx harmed hq hn hy ho

/-- Settles O40, by whether the handler active is the channel's own. -/
theorem chstatAnswers : Obligations.ChstatAnswers := by
  intro s c hrun
  refine ⟨fun x l hc hx hq => ?_, command_channelUnit_of_badUnit hrun⟩
  have hexec := exec_chstat hrun hc hx hq
  refine ⟨fun c7 h hphase hc7 => ?_, fun hother => ?_⟩
  · rw [hexec, handlerOf_active hphase hc7]
    rfl
  · rw [hexec, handlerOf_eq_none.mpr hother]
    rfl

end

section
/-! SUPPORT. The event EVTICK (spec 60 R149) and the tick take (spec 44 R131, 60 R152): the idle counter by its value and the
threshold, and what the take answers once the latch is cleared. -/

namespace Sys2Proof.Machine

open Sys2Proof.Claims

/-! ## EVTICK (spec 60 R149) -/

theorem exec_evtick {s : State} {c : BitVec 8} {x : Channel} (hrun : Running s) (hc : c.toNat < s.cfg.numChannels)
    (hx : s.ch[c.toNat]? = some x) : exec (.evtick c) s = .next (withChan s c.toNat { x with tickp := true }) := by
  change execEvtick c s = _
  rw [execEvtick, command_channelUnit hc hx]
  exact runStep_ok (faulted_of_running hrun)

/-! ## One idle tick (spec 44 R131) -/

section
variable {s : State} {c : Nat} {x : Channel}

theorem idleTick_of_inactive (hx : s.ch[c]? = some x) (hidle : x.idle = notIdle) : s.idleTick c = .ok s :=
  idleTick_eq_ok.mpr ⟨x, hx, .inl ⟨hidle, rfl⟩⟩

theorem idleTick_counts (hx : s.ch[c]? = some x) (hactive : x.idle ≠ notIdle) (hle : x.idle.toNat + 1 ≤ s.cfg.debounceT) :
    s.idleTick c = .ok (s.setCh c { x with idle := x.idle + 1#8 }) :=
  idleTick_eq_ok.mpr ⟨x, hx, .inr (.inr ⟨hactive, hle, rfl⟩)⟩

/-- Of two writes to one channel the second remains. -/
theorem setCh_emit_setCh (y z : Channel) (o : Output) : ((s.setCh c y).emit o).setCh c z = (s.setCh c z).emit o := by
  simp [State.setCh, State.emit]

/-- Past the threshold the head's transfer starts and the counter is deactivated. -/
theorem idleTick_starts {h : Handle} {l : List Handle} {y : Ticket} {o : Output} (hx : s.ch[c]? = some x)
    (hactive : x.idle ≠ notIdle) (hpast : s.cfg.debounceT < x.idle.toNat + 1) (harmed : x.per.armed = false)
    (hq : x.q.Holds (h :: l)) (hy : TicketAt s h y) (ho : Starts s c h y o) :
    s.idleTick c = .ok ((s.setCh c { x with per := startedPer, idle := notIdle }).emit o) := by
  obtain ⟨hc, -⟩ := List.getElem?_eq_some_iff.mp hx
  have hsize : x.q.size ≠ 0 := by simp [← hq.length]
  exact idleTick_eq_ok.mpr ⟨x, hx, .inr (.inl ⟨hactive, hpast, hsize, _, { x with per := startedPer },
    startTransfer_of_starts hx harmed hq hy ho, List.getElem?_set_self hc, setCh_emit_setCh _ _ o⟩)⟩

theorem startTransfer_of_armed (hx : s.ch[c]? = some x) (harmed : x.per.armed = true) :
    s.startTransfer c = raise .doubleStart := by
  rw [State.startTransfer, getCh_eq_ok.mpr hx, ok_bind, if_pos harmed]

/-- Past the threshold there must be a ticket to start. -/
theorem idleTick_of_empty (hx : s.ch[c]? = some x) (hactive : x.idle ≠ notIdle) (hpast : s.cfg.debounceT < x.idle.toNat + 1)
    (hq : x.q.Holds []) : s.idleTick c = raise .invariantBroken := by
  have hsize : x.q.size = 0 := hq.length.symm
  rw [State.idleTick, getCh_eq_ok.mpr hx, ok_bind, if_neg hactive, if_pos hpast, if_pos hsize]

theorem idleTick_of_armed {h : Handle} {l : List Handle} (hx : s.ch[c]? = some x) (hactive : x.idle ≠ notIdle)
    (hpast : s.cfg.debounceT < x.idle.toNat + 1) (harmed : x.per.armed = true) (hq : x.q.Holds (h :: l)) :
    s.idleTick c = raise .doubleStart := by
  have hsize : x.q.size ≠ 0 := by simp [← hq.length]
  rw [State.idleTick, getCh_eq_ok.mpr hx, ok_bind, if_neg hactive, if_pos hpast, if_neg hsize,
    startTransfer_of_armed hx harmed, raise_bind]

end

/-! ## The tick take (spec 60 R152) -/

/-- Channel `c` stands before its tick take. -/
structure TickPending (s : State) (c : Nat) (x : Channel) : Prop where
  running : Running s
  noHandler : s.hphase = .none
  chan : s.ch[c]? = some x
  tickp : x.tickp = true

/-- `s` with the tick latch of channel `c`, which is `x`, cleared. -/
def tickTaken (s : State) (c : Nat) (x : Channel) : State := withChan s c { x with tickp := false }

section
variable {s : State} {c : Nat} {x : Channel}

/-- The take in the operations of `take_tick`. -/
theorem TickPending.takeTick_eq (hs : TickPending s c x) :
    takeTick c s = command .evtick (BitVec.ofNat 8 c) s
      (if x.init then (tickTaken s c x).idleTick c else .ok (tickTaken s c x)) := by
  rw [takeTick, if_pos (tickTakeable_iff.mpr ⟨hs.noHandler, x, hs.chan, hs.tickp⟩), State.takeTickBody,
    getCh_eq_ok.mpr hs.chan, ok_bind]
  rfl

theorem TickPending.takeTick_of_uncreated (hs : TickPending s c x) (hinit : x.init = false) :
    takeTick c s = .next (tickTaken s c x) := by
  rw [hs.takeTick_eq, if_neg (by simp [hinit])]
  exact runStep_ok (faulted_of_running hs.running)

/-- On a created channel the take answers what the idle tick leaves. -/
theorem TickPending.takeTick_of_idleTick {t : State} (hs : TickPending s c x) (hinit : x.init = true)
    (htick : (tickTaken s c x).idleTick c = .ok t) : takeTick c s = .next t := by
  rw [hs.takeTick_eq, if_pos hinit, htick]
  exact runStep_ok (faulted_of_running hs.running)

/-- A fault of the idle tick is latched in the state before the take: its latch is still set (spec 60 R146). -/
theorem TickPending.takeTick_of_raise {e : FaultCode} (hs : TickPending s c x) (hinit : x.init = true)
    (htick : (tickTaken s c x).idleTick c = raise e) :
    takeTick c s = .next (s.latch e (BitVec.ofNat 8 c) Opcode.evtick.code) := by
  rw [hs.takeTick_eq, if_pos hinit, htick]
  exact runStep_raise (faulted_of_running hs.running)

theorem tickTaken_ch (hx : s.ch[c]? = some x) : (tickTaken s c x).ch[c]? = some { x with tickp := false } := by
  obtain ⟨hc, -⟩ := List.getElem?_eq_some_iff.mp hx
  exact List.getElem?_set_self hc

/-- A later write to the channel replaces it. -/
theorem tickTaken_setCh (z : Channel) : (tickTaken s c x).setCh c z = withChan s c z := by
  simp [tickTaken, State.setCh, withChan]

/-- A take that finds the channel not created, or its counter inactive, only clears the latch. -/
theorem TickPending.takeTick_clears (hs : TickPending s c x) (hinert : x.init = false ∨ x.idle = notIdle) :
    takeTick c s = .next (tickTaken s c x) := by
  cases hinit : x.init with
  | false => exact hs.takeTick_of_uncreated hinit
  | true =>
    have hidle : x.idle = notIdle := hinert.resolve_left (by simp [hinit])
    exact hs.takeTick_of_idleTick hinit (idleTick_of_inactive (tickTaken_ch hs.chan) hidle)

theorem TickPending.takeTick_counts (hs : TickPending s c x) (hinit : x.init = true) (hactive : x.idle ≠ notIdle)
    (hle : x.idle.toNat + 1 ≤ s.cfg.debounceT) :
    takeTick c s = .next (withChan s c { x with tickp := false, idle := x.idle + 1#8 }) := by
  refine hs.takeTick_of_idleTick hinit ?_
  rw [idleTick_counts (tickTaken_ch hs.chan) hactive hle, tickTaken_setCh]

theorem TickPending.takeTick_starts {h : Handle} {l : List Handle} {y : Ticket} {o : Output} (hs : TickPending s c x)
    (hinit : x.init = true) (hactive : x.idle ≠ notIdle) (hpast : s.cfg.debounceT < x.idle.toNat + 1)
    (harmed : x.per.armed = false) (hq : x.q.Holds (h :: l)) (hy : TicketAt s h y) (ho : Starts s c h y o) :
    takeTick c s = .next (withOut (withChan s c { x with tickp := false, per := startedPer, idle := notIdle }) [o]) := by
  refine hs.takeTick_of_idleTick hinit ?_
  rw [idleTick_starts (tickTaken_ch hs.chan) hactive hpast harmed hq hy ho, tickTaken_setCh]
  rfl

end

end Sys2Proof.Machine

open Sys2Proof Sys2Proof.Machine

/-- Settles O47, by whether the channel's counter runs, and past the threshold by what the head's start meets. -/
theorem tickTakeCountsOrStarts : Obligations.TickTakeCountsOrStarts := by
  intro s c x hrun hphase hx htick
  have hs : TickPending s c x := ⟨hrun, hphase, hx, htick⟩
  have htaken := tickTaken_ch hx
  refine ⟨hs.takeTick_clears, hs.takeTick_counts, fun hinit hactive hpast => ⟨fun h l y o => ?_, fun h l harmed hq => ?_,
    fun hq => ?_⟩⟩
  · exact hs.takeTick_starts hinit hactive hpast
  · exact hs.takeTick_of_raise hinit (idleTick_of_armed htaken hactive hpast harmed hq)
  · exact hs.takeTick_of_raise hinit (idleTick_of_empty htaken hactive hpast hq)

/-- Settles O45, by whether the channel exists. -/
theorem evtickSetsTheLatch : Obligations.EvtickSetsTheLatch := by
  intro s c hrun
  exact ⟨fun x hc hx => exec_evtick hrun hc hx, command_channelUnit_of_badUnit hrun⟩

end

section
/-! SUPPORT. The decoder and the encoder (spec 30, sections 2 to 6): the fields of a word, the rows a header matches, and the
words of an instruction read back. -/

namespace Sys2Proof

/-! ## The fields of a header word (spec 30 R67) -/

theorem hdrFields_append (w : Word) : hdrOpc w ++ hdrUnit w ++ hdrImm w = w := by
  have hhigh : hdrOpc w ++ hdrUnit w = w.extractLsb' 16 16 := BitVec.extractLsb'_append_extractLsb'_eq_extractLsb' rfl
  have hall : w.extractLsb' 16 16 ++ hdrImm w = w.extractLsb' 0 32 := BitVec.extractLsb'_append_extractLsb'_eq_extractLsb' rfl
  rw [hhigh, hall, BitVec.extractLsb'_eq_self]

/-- Two words are equal where their three fields are. -/
theorem word_eq_iff_fields {a b : Word} : a = b ↔ hdrOpc a = hdrOpc b ∧ hdrUnit a = hdrUnit b ∧ hdrImm a = hdrImm b := by
  constructor
  · rintro rfl
    exact ⟨rfl, rfl, rfl⟩
  · rintro ⟨hopc, hunit, himm⟩
    rw [← hdrFields_append a, ← hdrFields_append b, hopc, hunit, himm]

theorem header_of_fields {o : Opcode} {hdr : Word} (h : hdrOpc hdr = o.code) : header o (hdrUnit hdr) (hdrImm hdr) = hdr := by
  rw [header, ← h, hdrFields_append]

/-- `OPC[7]` is the event bit of the header. -/
theorem hdrIsEvent_eq (hdr : Word) : hdrIsEvent hdr = (hdrOpc hdr).getLsbD 7 := by
  simp [hdrIsEvent, hdrOpc]

/-! ## The rows a header matches (spec 30 R74) -/

/-- Every mask covers OPC; UNIT and IMM of a match are 0. -/
theorem Opcode.row_fields (o : Opcode) :
    hdrOpc o.row.headerMask = 0xFF#8 ∧ hdrUnit o.row.headerMatch = 0#8 ∧ hdrImm o.row.headerMatch = 0#16 := by
  cases o <;> decide

/-- A header matches a row exactly where OPC is the row's and the reserved bits of UNIT and IMM are 0. -/
theorem header_matches_iff {o : Opcode} {hdr : Word} :
    hdr &&& o.row.headerMask = o.row.headerMatch ↔
      hdrOpc hdr = o.code ∧ hdrUnit hdr &&& hdrUnit o.row.headerMask = 0#8 ∧ hdrImm hdr &&& hdrImm o.row.headerMask = 0#16 := by
  obtain ⟨hmask, hunit, himm⟩ := o.row_fields
  have hopc : hdrOpc (hdr &&& o.row.headerMask) = hdrOpc hdr := by
    change (hdr &&& o.row.headerMask).extractLsb' 24 8 = _
    rw [BitVec.extractLsb'_and]
    change hdrOpc hdr &&& hdrOpc o.row.headerMask = _
    rw [hmask]
    exact BitVec.and_allOnes
  rw [word_eq_iff_fields, hopc, hunit, himm]
  simp only [hdrUnit, hdrImm, BitVec.extractLsb'_and]
  rfl

theorem Opcode.code_injective {o p : Opcode} (h : o.code = p.code) : o = p :=
  Option.some.inj ((Opcode.ofCode_code o).symm.trans ((congrArg Opcode.ofCode h).trans (Opcode.ofCode_code p)))

theorem Opcode.code_of_ofCode {b : BitVec 8} {o : Opcode} (h : Opcode.ofCode b = some o) : o.code = b := by
  simpa using List.find?_some h

theorem Opcode.ofCode_eq_some {b : BitVec 8} {o : Opcode} : Opcode.ofCode b = some o ↔ b = o.code := by
  constructor
  · exact fun h => (Opcode.code_of_ofCode h).symm
  · rintro rfl
    exact Opcode.ofCode_code o

/-! ## What the decoder answers (spec 30 R67, R80, R81) -/

section
variable {o : Opcode} {hdr : Word} {ws : List Word}

theorem decode_of_unlisted (h : Opcode.ofCode (hdrOpc hdr) = none) : decode (hdr :: ws) = .reject .unknownOpcode hdr := by
  simp [decode, h]

theorem decode_of_short (hcode : hdrOpc hdr = o.code) (hlen : ws.length < o.row.format.operandWords (hdrImm hdr)) :
    decode (hdr :: ws) = .short := by
  simp [decode, hcode, hlen]

theorem decode_of_reserved (hcode : hdrOpc hdr = o.code) (hlen : o.row.format.operandWords (hdrImm hdr) ≤ ws.length)
    (hmask : hdr &&& o.row.headerMask ≠ o.row.headerMatch) : decode (hdr :: ws) = .reject .reservedBits hdr := by
  simp [decode, hcode, Nat.not_lt.mpr hlen, hmask]

/-- What decodes is a header that matches its row, its operand words, and what follows. -/
theorem decode_eq_instr {i : Instr} {rest : List Word} :
    decode ws = .instr i rest ↔
      ∃ (hdr : Word) (ops : List Word) (o : Opcode), ws = hdr :: (ops ++ rest) ∧ hdr &&& o.row.headerMask = o.row.headerMatch ∧
        ops.length = o.row.format.operandWords (hdrImm hdr) ∧ i = o.instr hdr ops := by
  constructor
  · intro h
    unfold decode at h
    split at h
    case h_1 => cases h
    case h_2 hdr tail =>
      split at h
      case h_1 => cases h
      case h_2 o ho =>
        simp only [] at h
        split at h
        case isTrue => cases h
        case isFalse hlen =>
          split at h
          case isTrue => cases h
          case isFalse hmask =>
            cases h
            exact ⟨hdr, tail.take _, o, by rw [List.take_append_drop], not_not.mp hmask,
              List.length_take_of_le (Nat.not_lt.mp hlen), rfl⟩
  · rintro ⟨hdr, ops, o, rfl, hmask, hlen, rfl⟩
    have hcode := (header_matches_iff.mp hmask).1
    simp [decode, hcode, hmask, ← hlen]

end

/-! ## The words of an instruction (spec 30 R68, R70) -/

section
variable {i : Instr} {hdr : Word} {ops : List Word}

/-- The header alone tells the length, instruction by instruction. -/
theorem header_tells_length (i : Instr) : Laws.HeaderTellsLength.Statement i := by
  cases i with
  | fpush u e => exact Laws.HeaderTellsLength.fpush u e
  | fpushn u es => exact Laws.HeaderTellsLength.fpushn u es
  | fpop u n => exact Laws.HeaderTellsLength.fpop u n
  | fpopu u e => exact Laws.HeaderTellsLength.fpopu u e
  | fpull u r n => exact Laws.HeaderTellsLength.fpull u r n
  | fpullu u r e => exact Laws.HeaderTellsLength.fpullu u r e
  | ffind u e => exact Laws.HeaderTellsLength.ffind u e
  | fnorm u => exact Laws.HeaderTellsLength.fnorm u
  | fsize u => exact Laws.HeaderTellsLength.fsize u
  | fcap u => exact Laws.HeaderTellsLength.fcap u
  | fempty u => exact Laws.HeaderTellsLength.fempty u
  | crc8 n ws => exact Laws.HeaderTellsLength.crc8 n ws
  | mkrd dev reg => exact Laws.HeaderTellsLength.mkrd dev reg
  | mkwr dev reg v => exact Laws.HeaderTellsLength.mkwr dev reg v
  | parse w1 w2 => exact Laws.HeaderTellsLength.parse w1 w2
  | tstat h => exact Laws.HeaderTellsLength.tstat h
  | tval h => exact Laws.HeaderTellsLength.tval h
  | trel h => exact Laws.HeaderTellsLength.trel h
  | chnew c => exact Laws.HeaderTellsLength.chnew c
  | chrd c dev reg w1 => exact Laws.HeaderTellsLength.chrd c dev reg w1
  | chwr c dev reg v w2 => exact Laws.HeaderTellsLength.chwr c dev reg v w2
  | hret c => exact Laws.HeaderTellsLength.hret c
  | chstat c => exact Laws.HeaderTellsLength.chstat c
  | evcomp c flags w1 w2 => exact Laws.HeaderTellsLength.evcomp c flags w1 w2
  | evtick c => exact Laws.HeaderTellsLength.evtick c

/-! ### IMM put together from its fields, and taken apart (spec 30 R70) -/

theorem devRegImm_reserved (dev : Byte) (reg : BitVec 7) : devRegImm dev reg &&& 0x0080#16 = 0#16 := by
  have hmask : (0x0080#16 : BitVec 16) = 0#8 ++ 1#1 ++ 0#7 := rfl
  rw [devRegImm, hmask, BitVec.and_append, BitVec.and_append]
  simp

theorem removeImm_reserved (r : Bool) : removeImm r 0#15 &&& 0x7FFF#16 = 0#16 := by
  cases r <;> rfl

theorem flagsImm_reserved (f : BitVec 2) : (0#14 ++ f : BitVec 16) &&& 0xFFFC#16 = 0#16 := by
  have hmask : (0xFFFC#16 : BitVec 16) = 0x3FFF#14 ++ 0#2 := rfl
  rw [hmask, BitVec.and_append]
  simp

/-- A header matches the row of its opcode where UNIT and IMM have no reserved bit. -/
theorem header_matches {o : Opcode} {u : BitVec 8} {imm : BitVec 16} (hunit : u &&& hdrUnit o.row.headerMask = 0#8)
    (himm : imm &&& hdrImm o.row.headerMask = 0#16) : header o u imm &&& o.row.headerMask = o.row.headerMatch :=
  header_matches_iff.mpr ⟨hdrOpc_header o u imm, by rwa [hdrUnit_header], by rwa [hdrImm_header]⟩

/-- The header of an instruction's words matches the instruction's row. -/
theorem header_matches_of_encode (h : encode i = hdr :: ops) :
    hdr &&& i.opcode.row.headerMask = i.opcode.row.headerMatch := by
  cases i <;> obtain ⟨rfl, rfl⟩ := List.cons.inj h
  case fpush | fpopu | ffind | fnorm | fsize | fcap | fempty | chnew | hret | chstat | evtick =>
    exact header_matches BitVec.and_zero BitVec.zero_and
  case fpushn | fpop | fpull => exact header_matches BitVec.and_zero BitVec.and_zero
  case crc8 | tstat | tval | trel => exact header_matches BitVec.zero_and BitVec.and_zero
  case parse => exact header_matches BitVec.zero_and BitVec.zero_and
  case mkrd | mkwr => exact header_matches BitVec.zero_and (devRegImm_reserved _ _)
  case chrd | chwr => exact header_matches BitVec.and_zero (devRegImm_reserved _ _)
  case fpullu => exact header_matches BitVec.and_zero (removeImm_reserved _)
  case evcomp => exact header_matches BitVec.and_zero (flagsImm_reserved _)

/-- The operands read from an instruction's words are the instruction's. -/
theorem instr_of_encode (h : encode i = hdr :: ops) : i.opcode.instr hdr ops = i := by
  cases i <;> obtain ⟨rfl, rfl⟩ := List.cons.inj h <;>
    simp only [Instr.opcode, Opcode.instr, hdrUnit_header, hdrImm_header, immDev_devRegImm, immReg_devRegImm, count_removeImm,
      immRemove_removeImm, List.getD_cons_zero, List.getD_cons_succ, BitVec.extractLsb'_append_eq_right]

/-- Bits that a mask covers are 0 where the masked word is. -/
theorem extractLsb'_eq_zero_of_and {w start len : Nat} {x m : BitVec w} (h : x &&& m = 0#w)
    (hm : m.extractLsb' start len = BitVec.allOnes len) : x.extractLsb' start len = 0#len := by
  have h' := congrArg (BitVec.extractLsb' start len) h
  rw [BitVec.extractLsb'_and, hm, BitVec.and_allOnes] at h'
  simpa using h'

theorem ofBool_getLsbD {w : Nat} (x : BitVec w) (i : Nat) : BitVec.ofBool (x.getLsbD i) = x.extractLsb' i 1 := by
  apply BitVec.eq_of_getLsbD_eq
  intro j hj
  obtain rfl : j = 0 := by omega
  simp

theorem devRegImm_of_reserved {imm : BitVec 16} (h : imm &&& 0x0080#16 = 0#16) : devRegImm (immDev imm) (immReg imm) = imm := by
  have hbit : imm.extractLsb' 7 1 = 0#1 := extractLsb'_eq_zero_of_and h rfl
  have hhigh : imm.extractLsb' 8 8 ++ imm.extractLsb' 7 1 = imm.extractLsb' 7 9 :=
    BitVec.extractLsb'_append_extractLsb'_eq_extractLsb' rfl
  have hall : imm.extractLsb' 7 9 ++ imm.extractLsb' 0 7 = imm.extractLsb' 0 16 :=
    BitVec.extractLsb'_append_extractLsb'_eq_extractLsb' rfl
  rw [devRegImm, immDev, immReg, ← hbit, hhigh, hall, BitVec.extractLsb'_eq_self]

theorem removeImm_of_fields (imm : BitVec 16) : removeImm (immRemove imm) (imm.extractLsb' 0 15) = imm := by
  have hall : imm.extractLsb' 15 1 ++ imm.extractLsb' 0 15 = imm.extractLsb' 0 16 :=
    BitVec.extractLsb'_append_extractLsb'_eq_extractLsb' rfl
  rw [removeImm, immRemove, ofBool_getLsbD, hall, BitVec.extractLsb'_eq_self]

theorem removeImm_of_reserved {imm : BitVec 16} (h : imm &&& 0x7FFF#16 = 0#16) : removeImm (immRemove imm) 0#15 = imm := by
  have hcount : imm.extractLsb' 0 15 = 0#15 := extractLsb'_eq_zero_of_and h rfl
  rw [← hcount, removeImm_of_fields]

theorem flagsImm_of_reserved {imm : BitVec 16} (h : imm &&& 0xFFFC#16 = 0#16) : 0#14 ++ imm.extractLsb' 0 2 = imm := by
  have hhigh : imm.extractLsb' 2 14 = 0#14 := extractLsb'_eq_zero_of_and h rfl
  have hall : imm.extractLsb' 2 14 ++ imm.extractLsb' 0 2 = imm.extractLsb' 0 16 :=
    BitVec.extractLsb'_append_extractLsb'_eq_extractLsb' rfl
  rw [← hhigh, hall, BitVec.extractLsb'_eq_self]

theorem eq_zero_of_and {w : Nat} {x m : BitVec w} (h : x &&& m = 0#w) (hm : m = BitVec.allOnes w) : x = 0#w := by
  rwa [hm, BitVec.and_allOnes] at h

theorem header_eq {o : Opcode} {u : BitVec 8} {imm : BitVec 16} (hopc : hdrOpc hdr = o.code) (hunit : hdrUnit hdr = u)
    (himm : hdrImm hdr = imm) : header o u imm = hdr := by
  rw [← hunit, ← himm, header_of_fields hopc]

theorem getD_one_operand (h : ops.length = 1) : [ops.getD 0 0#32] = ops := by
  obtain ⟨a, rfl⟩ := List.length_eq_one_iff.mp h
  rfl

theorem getD_two_operands (h : ops.length = 2) : [ops.getD 0 0#32, ops.getD 1 0#32] = ops := by
  obtain ⟨a, b, rfl⟩ := List.length_eq_two.mp h
  rfl

/-- The instruction read from a header that matches its row and the words it counts has exactly those words. -/
theorem encode_instr {o : Opcode} (hmask : hdr &&& o.row.headerMask = o.row.headerMatch)
    (hlen : ops.length = o.row.format.operandWords (hdrImm hdr)) :
    (o.instr hdr ops).Encodable ∧ encode (o.instr hdr ops) = hdr :: ops := by
  obtain ⟨hopc, hunit, himm⟩ := header_matches_iff.mp hmask
  cases o
  case fpush | fpopu | ffind =>
    exact ⟨trivial, congrArg₂ List.cons (header_eq hopc rfl (eq_zero_of_and himm rfl)) (getD_one_operand hlen)⟩
  case fnorm | fsize | fcap | fempty | chnew | hret | chstat | evtick =>
    exact ⟨trivial, congrArg₂ List.cons (header_eq hopc rfl (eq_zero_of_and himm rfl)) (List.length_eq_zero_iff.mp hlen).symm⟩
  case fpop =>
    exact ⟨trivial, congrArg₂ List.cons (header_eq hopc rfl rfl) (List.length_eq_zero_iff.mp hlen).symm⟩
  case fpushn =>
    have hcount : ops.length = (hdrImm hdr).toNat := hlen
    refine ⟨by change ops.length ≤ 65535; omega, congrArg₂ List.cons (header_eq hopc rfl ?_) rfl⟩
    rw [hcount, BitVec.ofNat_toNat, BitVec.setWidth_eq]
  case fpull =>
    exact ⟨trivial, congrArg₂ List.cons (header_eq hopc rfl (removeImm_of_fields _).symm) (List.length_eq_zero_iff.mp hlen).symm⟩
  case fpullu =>
    exact ⟨trivial, congrArg₂ List.cons (header_eq hopc rfl (removeImm_of_reserved himm).symm) (getD_one_operand hlen)⟩
  case crc8 => exact ⟨hlen, congrArg₂ List.cons (header_eq hopc (eq_zero_of_and hunit rfl) rfl) rfl⟩
  case mkrd =>
    exact ⟨trivial, congrArg₂ List.cons (header_eq hopc (eq_zero_of_and hunit rfl) (devRegImm_of_reserved himm).symm)
      (List.length_eq_zero_iff.mp hlen).symm⟩
  case mkwr =>
    exact ⟨trivial, congrArg₂ List.cons (header_eq hopc (eq_zero_of_and hunit rfl) (devRegImm_of_reserved himm).symm)
      (getD_one_operand hlen)⟩
  case parse =>
    exact ⟨trivial, congrArg₂ List.cons (header_eq hopc (eq_zero_of_and hunit rfl) (eq_zero_of_and himm rfl))
      (getD_two_operands hlen)⟩
  case tstat | tval | trel =>
    exact ⟨trivial, congrArg₂ List.cons (header_eq hopc (eq_zero_of_and hunit rfl) rfl) (List.length_eq_zero_iff.mp hlen).symm⟩
  case chrd =>
    exact ⟨trivial, congrArg₂ List.cons (header_eq hopc rfl (devRegImm_of_reserved himm).symm) (getD_one_operand hlen)⟩
  case chwr =>
    exact ⟨trivial, congrArg₂ List.cons (header_eq hopc rfl (devRegImm_of_reserved himm).symm) (getD_two_operands hlen)⟩
  case evcomp =>
    exact ⟨trivial, congrArg₂ List.cons (header_eq hopc rfl (flagsImm_of_reserved himm).symm) (getD_two_operands hlen)⟩

/-- What decodes is exactly an instruction that has words, and its words. -/
theorem decode_eq_instr_iff_encode {ws rest : List Word} :
    decode ws = .instr i rest ↔ i.Encodable ∧ encode i ++ rest = ws := by
  rw [decode_eq_instr]
  constructor
  · rintro ⟨hdr, ops, o, rfl, hmask, hlen, rfl⟩
    obtain ⟨henc, hwords⟩ := encode_instr hmask hlen
    exact ⟨henc, by rw [hwords]; rfl⟩
  · rintro ⟨henc, rfl⟩
    obtain ⟨hdr, ops, hwords, -, -, hlen⟩ := header_tells_length i henc
    exact ⟨hdr, ops, i.opcode, by rw [hwords]; rfl, header_matches_of_encode hwords, hlen, (instr_of_encode hwords).symm⟩

theorem opcode_of_decode {ws rest : List Word} (h : decode (hdr :: ws) = .instr i rest) : hdrOpc hdr = i.opcode.code := by
  obtain ⟨henc, hwords⟩ := decode_eq_instr_iff_encode.mp h
  obtain ⟨hdr', ops, hwords', hopc, -⟩ := header_tells_length i henc
  obtain ⟨rfl, -⟩ := List.cons.inj ((congrArg (· ++ rest) hwords').symm.trans hwords)
  exact hopc

/-- Only the two events have `OPC[7]` set (spec 30 R75). -/
theorem Opcode.code_eventBit (o : Opcode) : o.code.getLsbD 7 = (o == .evcomp || o == .evtick) := by
  cases o <;> decide

theorem isEvent_eq (i : Instr) : i.isEvent = i.opcode.code.getLsbD 7 := by
  rw [Opcode.code_eventBit]
  cases i <;> rfl

/-- The event bit of the header tells whether the instruction is an event. -/
theorem isEvent_of_decode {ws rest : List Word} (h : decode (hdr :: ws) = .instr i rest) : i.isEvent = hdrIsEvent hdr := by
  rw [hdrIsEvent_eq, opcode_of_decode h, isEvent_eq]

theorem decode_encode {rest : List Word} (h : i.Encodable) : decode (encode i ++ rest) = .instr i rest :=
  decode_eq_instr_iff_encode.mpr ⟨h, rfl⟩

end

/-! ## Opcodes that no row has (spec 30 R80) -/

/-- An OPC byte that spec 30 R80 leaves without a row. -/
abbrev UnlistedCode (n : Nat) : Prop :=
  n ≤ 0x0F ∨ (0x1B ≤ n ∧ n ≤ 0x1F) ∨ (0x24 ≤ n ∧ n ≤ 0x2F) ∨ (0x33 ≤ n ∧ n ≤ 0x3F) ∨ (0x45 ≤ n ∧ n ≤ 0x7F) ∨ 0x82 ≤ n

theorem Opcode.not_unlistedCode (o : Opcode) : ¬UnlistedCode o.code.toNat := by
  cases o <;> decide

theorem Opcode.ofCode_eq_none {b : BitVec 8} (h : UnlistedCode b.toNat) : Opcode.ofCode b = none := by
  cases ho : Opcode.ofCode b with
  | none => rfl
  | some o =>
    rw [Opcode.ofCode_eq_some.mp ho] at h
    exact absurd h o.not_unlistedCode

end Sys2Proof

namespace Sys2Proof.Machine

open Sys2Proof.Claims

/-! ## Moves (spec 00 R8, 30 R67, R75, R80) -/

/-- At its port, a header whose event bit is the port's own goes to the decoder. -/
theorem decodeCommand_of_command {hdr : Word} (h : hdrIsEvent hdr = false) (ws : List Word) :
    decodeCommand (hdr :: ws) = decode (hdr :: ws) := if_neg (by simp [h])

theorem decodeEvent_of_event {hdr : Word} (h : hdrIsEvent hdr = true) (ws : List Word) :
    decodeEvent (hdr :: ws) = decode (hdr :: ws) := if_pos h

theorem decodeCommand_eq_instr {ws rest : List Word} {i : Instr} :
    decodeCommand ws = .instr i rest ↔ decode ws = .instr i rest ∧ i.isEvent = false := by
  cases ws with
  | nil => simp [decodeCommand, decode]
  | cons hdr tail =>
    cases hev : hdrIsEvent hdr with
    | true =>
      rw [decodeCommand_of_event hev]
      refine ⟨Decoded.noConfusion, fun ⟨h, hi⟩ => ?_⟩
      rw [isEvent_of_decode h, hev] at hi
      cases hi
    | false =>
      rw [decodeCommand_of_command hev]
      exact ⟨fun h => ⟨h, (isEvent_of_decode h).trans hev⟩, And.left⟩

theorem decodeEvent_eq_instr {ws rest : List Word} {i : Instr} :
    decodeEvent ws = .instr i rest ↔ decode ws = .instr i rest ∧ i.isEvent = true := by
  cases ws with
  | nil => simp [decodeEvent, decode]
  | cons hdr tail =>
    cases hev : hdrIsEvent hdr with
    | true =>
      rw [decodeEvent_of_event hev]
      exact ⟨fun h => ⟨h, (isEvent_of_decode h).trans hev⟩, And.left⟩
    | false =>
      refine ⟨fun h => ?_, fun ⟨h, hi⟩ => ?_⟩
      · simp [decodeEvent, hev] at h
      · rw [isEvent_of_decode h, hev] at hi
        cases hi

section
variable {s : State}

/-- A running block's step is the move of the agent that the schedule names. -/
theorem step_eq_agentMove {m : Move} {rest : List Move} (hrun : Running s) (hsched : s.sched = m :: rest) :
    step s = agentMove m { s with sched := rest } := by
  simp [step, faulted_of_running hrun, hsched]

/-- The host's move on a header that its port refuses latches IllegalCommand. -/
theorem hostMove_of_reject {hdr : Word} {r : Reject} (hrun : Running s) (h : decodeCommand s.cmd = .reject r hdr) :
    hostMove s = .next (faultedWith s 0x02#8 (hdrUnit hdr) (hdrOpc hdr)) := by
  rw [hostMove, h]
  exact illegalWord_of_running hrun hdr

theorem eventMove_of_reject {hdr : Word} {r : Reject} (hrun : Running s) (h : decodeEvent s.evt = .reject r hdr) :
    eventMove s = .next (faultedWith s 0x02#8 (hdrUnit hdr) (hdrOpc hdr)) := by
  rw [eventMove, h]
  exact illegalWord_of_running hrun hdr

theorem hostMove_of_instr {i : Instr} {ws : List Word} (h : decode s.cmd = .instr i ws) (hi : i.isEvent = false) :
    hostMove s = exec i { s with cmd := ws } := by
  rw [hostMove, decodeCommand_eq_instr.mpr ⟨h, hi⟩]
  rfl

theorem eventMove_of_instr {i : Instr} {ws : List Word} (h : decode s.evt = .instr i ws) (hi : i.isEvent = true) :
    eventMove s = exec i { s with evt := ws } := by
  rw [eventMove, decodeEvent_eq_instr.mpr ⟨h, hi⟩]
  rfl

theorem hostMove_of_short (h : decodeCommand s.cmd = .short) : hostMove s = .next s := by
  rw [hostMove, h]
  rfl

/-! ### Illegal opcodes at the ports (spec 30 R80) -/

theorem hdrOpc_toNat (hdr : Word) : (hdrOpc hdr).toNat = hdr.toNat / 2 ^ 24 := by
  rw [hdrOpc, BitVec.extractLsb'_toNat, Nat.shiftRight_eq_div_pow]
  exact Nat.mod_eq_of_lt (by omega)

theorem hdrIsEvent_iff (hdr : Word) : hdrIsEvent hdr = true ↔ 0x80 ≤ hdr.toNat / 2 ^ 24 := by
  rw [hdrIsEvent_eq, ← hdrOpc_toNat, ← BitVec.msb_eq_getLsbD_last, BitVec.msb_eq_decide]
  simp

/-- The command port refuses a header of spec 30 R80's ranges: an event's at once, any other as an unknown opcode. -/
theorem decodeCommand_of_unlisted {hdr : Word}
    (h : hdr.toNat / 2 ^ 24 ≤ 0x0F ∨ (0x1B ≤ hdr.toNat / 2 ^ 24 ∧ hdr.toNat / 2 ^ 24 ≤ 0x1F) ∨
      (0x24 ≤ hdr.toNat / 2 ^ 24 ∧ hdr.toNat / 2 ^ 24 ≤ 0x2F) ∨ (0x33 ≤ hdr.toNat / 2 ^ 24 ∧ hdr.toNat / 2 ^ 24 ≤ 0x3F) ∨
      0x45 ≤ hdr.toNat / 2 ^ 24) (ws : List Word) : ∃ r, decodeCommand (hdr :: ws) = .reject r hdr := by
  by_cases hev : hdrIsEvent hdr = true
  · exact ⟨_, decodeCommand_of_event hev ws⟩
  · have hlow := mt (hdrIsEvent_iff hdr).mpr hev
    rw [← hdrOpc_toNat] at h hlow
    have hnone : Opcode.ofCode (hdrOpc hdr) = none := Opcode.ofCode_eq_none (by omega)
    exact ⟨_, (decodeCommand_of_command (by simpa using hev) ws).trans (decode_of_unlisted hnone)⟩

theorem decodeEvent_of_unlisted {hdr : Word} (h : 0x82 ≤ hdr.toNat / 2 ^ 24) (ws : List Word) :
    decodeEvent (hdr :: ws) = .reject .unknownOpcode hdr := by
  have hev : hdrIsEvent hdr = true := (hdrIsEvent_iff hdr).mpr (by omega)
  rw [← hdrOpc_toNat] at h
  rw [decodeEvent_of_event hev, decode_of_unlisted (Opcode.ofCode_eq_none (by omega))]

/-! ### Takes while a handler runs (spec 60 R150) -/

theorem takeCompletion_of_handler (hph : s.hphase ≠ .none) (c : Nat) : takeCompletion c s = .next s :=
  if_neg fun h => hph (compTakeable_iff.mp h).1

theorem takeTick_of_handler (hph : s.hphase ≠ .none) (c : Nat) : takeTick c s = .next s :=
  if_neg fun h => hph (tickTakeable_iff.mp h).1

end

end Sys2Proof.Machine

open Sys2Proof Sys2Proof.Machine

/-- Settles O1: an encodable instruction's words are what decodes to it. -/
theorem decodeReadsBackEncode : Obligations.DecodeReadsBackEncode := fun _ _ h => decode_encode h

/-- Settles O2: what decodes is the words of an encodable instruction. -/
theorem encodeReadsBackDecode : Obligations.EncodeReadsBackDecode := fun _ _ _ h => decode_eq_instr_iff_encode.mp h

/-- Settles O3: a header that matches a row has the row's opcode, and no two rows have the same. -/
theorem headerMatchesOneRow : Obligations.HeaderMatchesOneRow := by
  intro hdr o p ho hp
  exact Opcode.code_injective ((header_matches_iff.mp ho).1.symm.trans (header_matches_iff.mp hp).1)

/-- Settles O4 by running the decoder on the words listed. -/
theorem listedWordsDecode : Obligations.ListedWordsDecode := by
  unfold Obligations.ListedWordsDecode
  decide

/-- Settles O5: each port's decoder passes on the instructions of its own side. -/
theorem stepRunsDecodedInstruction : Obligations.StepRunsDecodedInstruction := by
  intro s i ws r c hrun
  refine ⟨fun hsched hdec hi => ?_, fun hsched hdec hi => ?_, fun hsched => ?_, fun hsched => ?_⟩ <;>
    rw [step_eq_agentMove hrun hsched]
  · exact hostMove_of_instr (s := { s with sched := r }) hdec hi
  · exact eventMove_of_instr (s := { s with sched := r }) hdec hi
  · rfl
  · rfl

/-- Settles O6, from the decoder's answer to a header whose words have not all arrived. -/
theorem incompleteCommandWaits : Obligations.IncompleteCommandWaits := by
  intro s o hdr ws r hrun hsched hcmd hcode hev hlen
  have hcommand : hdrIsEvent hdr = false := by rw [hdrIsEvent_eq, hcode, hev]
  have hshort : ws.length < o.row.format.operandWords (hdrImm hdr) := by
    unfold Opcode.lengthInWords at hlen
    omega
  rw [step_eq_agentMove hrun hsched]
  refine hostMove_of_short (s := { s with sched := r }) ?_
  change decodeCommand s.cmd = _
  rw [hcmd, decodeCommand_of_command hcommand, decode_of_short hcode hshort]

/-- Settles O7: no row has an opcode of the ranges, and an event's header is refused on the command port. -/
theorem unlistedOpcodeFaults : Obligations.UnlistedOpcodeFaults := by
  intro s hdr ws r hrun
  refine ⟨fun hsched hcmd hrange => ?_, fun hsched hevt hrange => ?_⟩ <;> rw [step_eq_agentMove hrun hsched]
  · obtain ⟨why, hrej⟩ := decodeCommand_of_unlisted hrange ws
    rw [← hcmd] at hrej
    exact hostMove_of_reject (s := { s with sched := r }) hrun hrej
  · have hrej := decodeEvent_of_unlisted hrange ws
    rw [← hevt] at hrej
    exact eventMove_of_reject (s := { s with sched := r }) hrun hrej

/-- Settles O8: on its own port a header of a known opcode that does not match its row is refused. -/
theorem reservedHeaderBitFaults : Obligations.ReservedHeaderBitFaults := by
  intro s o hdr ws r hrun hcode hlen hmask
  have harrived : o.row.format.operandWords (hdrImm hdr) ≤ ws.length := by
    unfold Opcode.lengthInWords at hlen
    omega
  have hrej := decode_of_reserved hcode harrived hmask
  have hbit := (hdrIsEvent_eq hdr).trans (congrArg (BitVec.getLsbD · 7) hcode)
  refine ⟨fun hev hsched hcmd => ?_, fun hev hsched hevt => ?_⟩ <;> rw [step_eq_agentMove hrun hsched, ← hcode]
  · rw [← decodeCommand_of_command (hbit.trans hev), ← hcmd] at hrej
    exact hostMove_of_reject (s := { s with sched := r }) hrun hrej
  · rw [← decodeEvent_of_event (hbit.trans hev), ← hevt] at hrej
    exact eventMove_of_reject (s := { s with sched := r }) hrun hrej

/-- Settles O48: a take asks for the handler phase to be None. -/
theorem eventsHeldDuringHandler : Obligations.EventsHeldDuringHandler := fun _ c hph =>
  ⟨takeCompletion_of_handler hph c, takeTick_of_handler hph c⟩
end

section
/-! SUPPORT. What a step can do: the effect of each instruction that does not fault, of each take, and of a step; and what every one
of them leaves as it was. -/

namespace Sys2Proof.Machine

open Sys2Proof.Claims

/-! ## Writes to one channel that leave its queue (spec 44 R126, R130, R131) -/

/-- `t` is `s` with outputs put out and channel `c` written, its queue and its life left as they were. -/
def Retimed (s t : State) (c : Nat) : Prop :=
  ∃ x y os, s.ch[c]? = some x ∧ y.init = x.init ∧ y.q = x.q ∧ t = withOut (s.setCh c y) os

section
variable {s t u : State} {c : Nat} {x y : Channel}

theorem ch_setCh_self (hx : s.ch[c]? = some x) (y : Channel) : (s.setCh c y).ch[c]? = some y := by
  obtain ⟨hc, -⟩ := List.getElem?_eq_some_iff.mp hx
  exact List.getElem?_set_self hc

theorem setCh_of_eq (hx : s.ch[c]? = some x) : s.setCh c x = s := by
  obtain ⟨hc, rfl⟩ := List.getElem?_eq_some_iff.mp hx
  simp [State.setCh]

theorem Retimed.refl (hx : s.ch[c]? = some x) : Retimed s s c :=
  ⟨x, x, [], hx, rfl, rfl, by simp [withOut, setCh_of_eq hx]⟩

theorem Retimed.trans (hst : Retimed s t c) (htu : Retimed t u c) : Retimed s u c := by
  obtain ⟨x, y, os, hx, hi, hq, rfl⟩ := hst
  obtain ⟨y', z, os', hy', hi', hq', rfl⟩ := htu
  obtain rfl : y = y' := Option.some.inj ((ch_setCh_self hx y).symm.trans hy')
  exact ⟨x, z, os ++ os', hx, hi'.trans hi, hq'.trans hq, by simp [withOut, State.setCh]⟩

theorem retimed_setCh (hx : s.ch[c]? = some x) (hi : y.init = x.init) (hq : y.q = x.q) : Retimed s (s.setCh c y) c :=
  ⟨x, y, [], hx, hi, hq, by simp [withOut, State.setCh]⟩

theorem startTransfer_retimed (h : s.startTransfer c = .ok t) : Retimed s t c := by
  obtain ⟨x, hd, tk, o, hx, -, -, -, -, rfl⟩ := startTransfer_eq_ok.mp h
  exact ⟨x, { x with per := Periph.started }, [o], hx, rfl, rfl, rfl⟩

theorem continuation_retimed (h : s.continuation c = .ok t) : Retimed s t c := by
  obtain ⟨x, hx, ⟨-, -, ⟨-, rfl⟩ | ⟨-, hstart⟩⟩ | ⟨-, rfl⟩⟩ := continuation_eq_ok.mp h
  · exact retimed_setCh hx rfl rfl
  · exact startTransfer_retimed hstart
  · exact Retimed.refl hx

theorem idleTick_retimed (h : s.idleTick c = .ok t) : Retimed s t c := by
  obtain ⟨x, hx, ⟨-, rfl⟩ | ⟨-, -, -, s1, x1, hstart, hx1, rfl⟩ | ⟨-, -, rfl⟩⟩ := idleTick_eq_ok.mp h
  · exact Retimed.refl hx
  · exact (startTransfer_retimed hstart).trans (retimed_setCh hx1 rfl rfl)
  · exact retimed_setCh hx rfl rfl

theorem takeTickBody_retimed (h : s.takeTickBody c = .ok t) : Retimed s t c := by
  obtain ⟨x, hx, h⟩ := takeTickBody_eq_ok.mp h
  have htaken : Retimed s (s.setCh c { x with tickp := false }) c := retimed_setCh hx rfl rfl
  rcases h with ⟨-, hidle⟩ | ⟨-, rfl⟩
  · exact htaken.trans (idleTick_retimed hidle)
  · exact htaken

/-! ### What such a write leaves -/

namespace Retimed

variable (h : Retimed s t c)
include h

theorem cfg : t.cfg = s.cfg := by obtain ⟨x, y, os, -, -, -, rfl⟩ := h; rfl
theorem fault : t.fault = s.fault := by obtain ⟨x, y, os, -, -, -, rfl⟩ := h; rfl
theorem hphase : t.hphase = s.hphase := by obtain ⟨x, y, os, -, -, -, rfl⟩ := h; rfl
theorem fifo : t.fifo = s.fifo := by obtain ⟨x, y, os, -, -, -, rfl⟩ := h; rfl
theorem tkt : t.tkt = s.tkt := by obtain ⟨x, y, os, -, -, -, rfl⟩ := h; rfl
theorem out : ∃ os, t.out = s.out ++ os := by obtain ⟨x, y, os, -, -, -, rfl⟩ := h; exact ⟨os, rfl⟩

theorem ch_other {j : Nat} (hj : j ≠ c) : t.ch[j]? = s.ch[j]? := by
  obtain ⟨x, y, os, -, -, -, rfl⟩ := h
  exact List.getElem?_set_ne hj.symm

/-- Every channel keeps its queue. -/
theorem queue {j : Nat} {x y : Channel} (hx : s.ch[j]? = some x) (hy : t.ch[j]? = some y) : y.q = x.q := by
  by_cases hj : j = c
  · subst hj
    obtain ⟨x', z, os, hx', -, hq, rfl⟩ := h
    obtain rfl : x' = x := Option.some.inj (hx'.symm.trans hx)
    obtain rfl : z = y := Option.some.inj ((ch_setCh_self hx z).symm.trans hy)
    exact hq
  · rw [h.ch_other hj, hx] at hy
    obtain rfl : x = y := Option.some.inj hy
    rfl

end Retimed

/-! ## What the sequencer's commands and the completion take write besides (spec 44 R125, R127, R134) -/

/-- CHRD and CHWR fill the least free slot and append its handle to the channel's queue; the rest is the start, if any. -/
theorem submit_form {k : Kind} {dev : Byte} {reg : BitVec 7} {v hw : Word} (h : s.submit c k dev reg v hw = .ok t) :
    ∃ x hid i r u, c < s.cfg.numChannels ∧ s.ch[c]? = some x ∧ x.init = true ∧ freeSlot s.tkt = some i ∧
      x.q.place s.cfg [BitVec.ofNat 16 (i + 1)] = .ok r ∧
      Retimed ((s.setTkt (BitVec.ofNat 16 (i + 1)) (newTicket s.cfg.bitPacking c k dev reg v hid)).setCh c { x with q := r.1 }) u c ∧
      t = u.respondOk [(BitVec.ofNat 16 (i + 1)).zeroExtend 32] := by
  obtain ⟨x, hid, ⟨s1, hd⟩, u, hc, hx, hinit, -, halloc, henq, rfl⟩ := submit_eq_ok.mp h
  obtain ⟨i, hfree, rfl, rfl⟩ := tktAlloc_eq_ok.mp halloc
  obtain ⟨x', r, hx', hr, hstart⟩ := enqueue_eq_ok.mp henq
  obtain rfl : x = x' := Option.some.inj (hx.symm.trans hx')
  refine ⟨x, hid, i, r, u, hc, hx, hinit, hfree, hr, ?_, rfl⟩
  rcases hstart with ⟨-, hstart⟩ | ⟨-, rfl⟩
  · exact startTransfer_retimed hstart
  · exact Retimed.refl (ch_setCh_self (s := State.setTkt _ _ _) hx _)

section
variable (s : State) (c : Nat) (hd : Handle) (st : Status) (hid : BitVec 16)

@[simp] theorem invokeHandler_cfg : (s.invokeHandler c hd st hid).cfg = s.cfg := by
  rcases invokeHandler_cases s c hd st hid with ⟨-, e⟩ | ⟨-, e⟩ | ⟨-, -, e⟩ <;> rw [e] <;> rfl

@[simp] theorem invokeHandler_fault : (s.invokeHandler c hd st hid).fault = s.fault := by
  rcases invokeHandler_cases s c hd st hid with ⟨-, e⟩ | ⟨-, e⟩ | ⟨-, -, e⟩ <;> rw [e] <;> rfl

@[simp] theorem invokeHandler_fifo : (s.invokeHandler c hd st hid).fifo = s.fifo := by
  rcases invokeHandler_cases s c hd st hid with ⟨-, e⟩ | ⟨-, e⟩ | ⟨-, -, e⟩ <;> rw [e] <;> rfl

@[simp] theorem invokeHandler_ch : (s.invokeHandler c hd st hid).ch = s.ch := by
  rcases invokeHandler_cases s c hd st hid with ⟨-, e⟩ | ⟨-, e⟩ | ⟨-, -, e⟩ <;> rw [e] <;> rfl

theorem invokeHandler_out : ∃ os, (s.invokeHandler c hd st hid).out = s.out ++ os := by
  rcases invokeHandler_cases s c hd st hid with ⟨-, e⟩ | ⟨-, e⟩ | ⟨-, -, e⟩ <;> rw [e]
  · exact ⟨[], (List.append_nil _).symm⟩
  · exact ⟨[], (List.append_nil _).symm⟩
  · exact ⟨_, rfl⟩

/-- The handler phase is entered or left as it was. -/
theorem invokeHandler_hphase :
    (s.invokeHandler c hd st hid).hphase = s.hphase ∨ (s.invokeHandler c hd st hid).hphase = .active (BitVec.ofNat 7 c) hd := by
  rcases invokeHandler_cases s c hd st hid with ⟨-, e⟩ | ⟨-, e⟩ | ⟨-, -, e⟩ <;> rw [e]
  · exact .inl rfl
  · exact .inl rfl
  · exact .inr rfl

end

/-- The completion take pops the head, classifies its ticket and invokes its handler; the rest is the continuation, if any. -/
theorem onCompletion_form (h : s.onCompletion c = .ok t) :
    ∃ x hd tk st, s.ch[c]? = some x ∧ x.q.head = .ok hd ∧ s.ticket? hd = some tk ∧
      Retimed ((completed s c x hd (some { tk with status := st })).invokeHandler c hd st tk.hid) t c := by
  obtain ⟨x, hd, tk, st, s3, hx, -, -, hhead, htk, -, rfl, h⟩ := onCompletion_eq_ok.mp h
  refine ⟨x, hd, tk, st, hx, hhead, htk, ?_⟩
  rcases h with ⟨-, hcont⟩ | ⟨-, rfl⟩
  · exact continuation_retimed hcont
  · exact Retimed.refl (x := finishedChannel x false) (by rw [invokeHandler_ch]; exact completed_ch hx)

end

/-! ## Families of opcodes (spec 30 R69, R74) -/

/-- The rows of the FIFO commands. -/
def isFifoOpcode : Opcode → Bool
  | .fpush | .fpushn | .fpop | .fpopu | .fpull | .fpullu | .ffind | .fnorm | .fsize | .fcap | .fempty => true
  | _ => false

theorem isFifoCommand_eq (i : Instr) : isFifoCommand i = isFifoOpcode i.opcode := by
  unfold isFifoCommand
  generalize i.opcode = o
  cases o <;> decide

/-- The rows whose UNIT is a channel number. -/
def isChannelOpcode : Opcode → Bool
  | .chnew | .chrd | .chwr | .hret | .chstat | .evcomp | .evtick => true
  | _ => false

theorem isChannelInstr_eq (i : Instr) : isChannelInstr i = isChannelOpcode i.opcode := by
  unfold isChannelInstr
  generalize i.opcode = o
  cases o <;> decide

theorem isFifoOpcode_of_channel {o : Opcode} (h : isChannelOpcode o = true) : isFifoOpcode o = false := by
  revert h
  cases o <;> decide

/-! ## The effect of an instruction -/

/-- What an instruction that raises no fault makes of the state: a response alone; a response and the FIFO that UNIT names written;
or what the ticket and channel commands and the events write. -/
inductive Effect (s : State) : Instr → State → Prop where
  | responds {i : Instr} (ws : List Word) (hev : i.isEvent = false) : Effect s i (s.emit (.response ws))
  | writesFifo {i : Instr} {q q' : Queue 32} (ws : List Word) (hi : isFifoOpcode i.opcode = true) (hunit : i.unitField.toNat < 128)
      (hq : s.fifo[i.unitField.toNat]? = some q) (hwf : q.WF s.cfg.memLimit → q'.WF s.cfg.memLimit) :
      Effect s i ((s.setFifo i.unitField.toNat q').emit (.response ws))
  | releases {h : Handle} {x : Ticket} (hv : s.validHandle h = true) (hx : s.ticket? h = some x) (hst : x.status ≠ .pending) :
      Effect s (.trel h) ((s.release h).respondOk [])
  | creates {c : BitVec 8} {x : Channel} (hc : c.toNat < s.cfg.numChannels) (hx : s.ch[c.toNat]? = some x) (hinit : x.init = false) :
      Effect s (.chnew c) ((s.setCh c.toNat (newChannel s.cfg)).respondOk [])
  | submits {i : Instr} {k : Kind} {dev : Byte} {reg : BitVec 7} {v hw : Word} {t : State} (hev : i.isEvent = false)
      (hi : isFifoOpcode i.opcode = false) {c : Nat}
      (hunit : i.unitField.toNat = c) (h : s.submit c k dev reg v hw = .ok t) : Effect s i t
  | returns {c : BitVec 8} {h : Handle} {t : State} (hh : handlerOf s.hphase c.toNat = some h)
      (hcont : (s.setHphase .none).continuation c.toNat = .ok t) : Effect s (.hret c) (t.respondOk [])
  | finishes {c : BitVec 8} {f : BitVec 2} {w1 w2 : Word} {t : State}
      (h : s.periphFinish c.toNat f (unpackWords [w1, w2]) = .ok t) : Effect s (.evcomp c f w1 w2) t
  | ticks {c : BitVec 8} {x : Channel} (hx : s.ch[c.toNat]? = some x) :
      Effect s (.evtick c) (s.setCh c.toNat { x with tickp := true })

section
variable {s t : State} {i : Instr} {u : BitVec 8}

/-- The byte of a UNIT that selects a FIFO is the FIFO's number. -/
theorem unitIndex_of_fifo (h : unitIsChannel u = false) : unitIndex u = u.toNat ∧ u.toNat < 128 := by
  have hlt : u.toNat < 128 := by
    have hmsb : u.msb = false := h
    simpa using BitVec.toNat_lt_of_msb_false hmsb
  refine ⟨?_, hlt⟩
  rw [unitIndex, BitVec.extractLsb'_toNat]
  exact Nat.mod_eq_of_lt hlt

/-- A FIFO command that writes back the FIFO a mutating UNIT selects. -/
theorem Effect.of_qselMut {sel : Nat × Queue 32} {q' : Queue 32} (ws : List Word) (hi : isFifoOpcode i.opcode = true)
    (h : s.qselMut i.unitField = .ok sel) (hwf : sel.2.WF s.cfg.memLimit → q'.WF s.cfg.memLimit) :
    Effect s i ((s.setFifo sel.1 q').emit (.response ws)) := by
  obtain ⟨hu, -, hk, hq⟩ := qselMut_eq_ok.mp h
  obtain ⟨hidx, hlt⟩ := unitIndex_of_fifo hu
  rw [hidx] at hk hq
  rw [hk]
  exact .writesFifo ws hi hlt hq hwf

/-- A FIFO command that removes from the queue that UNIT selects. -/
theorem Effect.of_popSelected {m : Bool} {sel : Selected} {k : Nat} (ws : List Word) (hi : isFifoOpcode i.opcode = true)
    (hev : i.isEvent = false) (h : s.qsel i.unitField m = .ok sel) (hk : k ≤ sel.size) :
    Effect s i ((s.popSelected sel k).emit (.response ws)) := by
  rcases qsel_eq_ok.mp h with ⟨-, -, -, x, -, -, rfl⟩ | ⟨hu, -, q, hq, rfl⟩
  · exact .responds ws hev
  · obtain ⟨hidx, hlt⟩ := unitIndex_of_fifo hu
    rw [hidx] at hq ⊢
    exact .writesFifo ws hi hlt hq fun hwf => hwf.pop hk

/-! ### FIFO commands (spec 41) -/

theorem pushList_effect {es : List Word} (hi : isFifoOpcode i.opcode = true) (hu : i.unitField = u) (h : s.pushList u es = .ok t) :
    Effect s i t := by
  subst hu
  simp only [State.pushList, bind_eq_ok, Except.ok.injEq] at h
  obtain ⟨sel, hsel, ⟨q', b⟩, hr, rfl⟩ := h
  exact .of_qselMut _ hi hsel fun hwf => hwf.place hr

theorem pullCount_effect {r : Bool} {n : Nat} (hi : isFifoOpcode i.opcode = true) (hev : i.isEvent = false)
    (hu : i.unitField = u) (h : s.pullCount u r n = .ok t) : Effect s i t := by
  subst hu
  simp only [State.pullCount, bind_eq_ok] at h
  obtain ⟨sel, hsel, h⟩ := h
  split at h
  case isTrue =>
    obtain rfl := Except.ok.inj h
    exact .responds _ hev
  case isFalse hn =>
    simp only [bind_eq_ok, Except.ok.injEq] at h
    obtain ⟨l, -, rfl⟩ := h
    cases r with
    | false => exact .responds _ hev
    | true => exact .of_popSelected _ hi hev hsel (Nat.not_lt.mp hn)

/-- The live words of a selected queue are as many as its size. -/
theorem liveWords_length {sel : Selected} {l : List Word} (h : sel.liveWords = .ok l) : l.length = sel.size := by
  have hread {w : Nat} {q : Queue w} {m : List (BitVec w)} (hm : q.live = .ok m) : m.length = q.size := by
    obtain ⟨hin, hcells⟩ := memRead_eq_ok.mp hm
    have hlen := congrArg List.length hcells
    simp only [List.length_take, List.length_drop, List.length_map] at hlen
    omega
  cases sel with
  | fifo k q => exact hread h
  | chan c q =>
    obtain ⟨m, hm, rfl⟩ := liveWords_chan_eq_ok.mp h
    rw [List.length_map, hread hm, Selected.size_chan]

theorem pullUntil_effect {r : Bool} {e : Word} (hi : isFifoOpcode i.opcode = true) (hev : i.isEvent = false)
    (hu : i.unitField = u) (h : s.pullUntil u r e = .ok t) : Effect s i t := by
  subst hu
  simp only [State.pullUntil, bind_eq_ok] at h
  obtain ⟨sel, hsel, e', -, l, hl, h⟩ := h
  split at h <;> obtain rfl := Except.ok.inj h
  case isTrue => exact .responds _ hev
  case isFalse hfound =>
    cases r with
    | false => exact .responds _ hev
    | true =>
      have hle := findPos_le l e'
      rw [liveWords_length hl] at hle
      exact .of_popSelected _ hi hev hsel (Nat.lt_of_le_of_ne hle hfound)

/-- One step of instruction `i`: what its rule answers, or a fault it raises. -/
theorem effect_of_runStep {body : Op State} (hrun : Running s) (h : runStep i.opcode.code i.unitField s body = .next t)
    (hbody : ∀ t', body = .ok t' → Effect s i t') :
    Effect s i t ∨ ∃ e, t = s.latch e i.unitField i.opcode.code := by
  rcases runStep_eq_next.mp h with ⟨hf, -⟩ | ⟨-, hok | ⟨e, -, rfl⟩⟩
  · exact absurd hrun (faulted_iff.mp hf)
  · exact .inl (hbody t hok)
  · exact .inr ⟨e, rfl⟩

theorem execFpop_effect {n : BitVec 16} (hrun : Running s) (h : execFpop u n s = .next t) :
    Effect s (.fpop u n) t ∨ ∃ e, t = s.latch e u Opcode.fpop.code := by
  refine effect_of_runStep hrun h fun t' hb => ?_
  simp only [bind_eq_ok] at hb
  obtain ⟨sel, hsel, hb⟩ := hb
  split at hb <;> obtain rfl := Except.ok.inj hb
  case isTrue => exact .responds _ rfl
  case isFalse hn => exact .of_qselMut _ rfl hsel fun hwf => hwf.pop (Nat.not_lt.mp hn)

theorem execFpopu_effect {e : Word} (hrun : Running s) (h : execFpopu u e s = .next t) :
    Effect s (.fpopu u e) t ∨ ∃ f, t = s.latch f u Opcode.fpopu.code := by
  refine effect_of_runStep hrun h fun t' hb => ?_
  simp only [bind_eq_ok] at hb
  obtain ⟨sel, hsel, l, hl, hb⟩ := hb
  split at hb <;> obtain rfl := Except.ok.inj hb
  case isTrue => exact .responds _ rfl
  case isFalse hfound =>
    have hle := findPos_le l e
    rw [liveWords_length (sel := .fifo sel.1 sel.2) hl, Selected.size_fifo] at hle
    exact .of_qselMut _ rfl hsel fun hwf => hwf.pop (Nat.lt_of_le_of_ne hle hfound)

theorem execFnorm_effect (hrun : Running s) (h : execFnorm u s = .next t) :
    Effect s (.fnorm u) t ∨ ∃ e, t = s.latch e u Opcode.fnorm.code := by
  refine effect_of_runStep hrun h fun t' hb => ?_
  simp only [bind_eq_ok, Except.ok.injEq] at hb
  obtain ⟨sel, hsel, ⟨q', b⟩, hr, rfl⟩ := hb
  exact .of_qselMut _ rfl hsel fun hwf => hwf.normalize hr

theorem execFfind_effect {e : Word} (hrun : Running s) (h : execFfind u e s = .next t) :
    Effect s (.ffind u e) t ∨ ∃ f, t = s.latch f u Opcode.ffind.code := by
  refine effect_of_runStep hrun h fun t' hb => ?_
  simp only [bind_eq_ok, Except.ok.injEq] at hb
  obtain ⟨sel, -, e', -, l, -, rfl⟩ := hb
  exact .responds _ rfl

/-! ### Ticket commands (spec 43) -/

theorem execTval_effect {hd : Handle} (hrun : Running s) (h : execTval hd s = .next t) :
    Effect s (.tval hd) t ∨ ∃ e, t = s.latch e 0#8 Opcode.tval.code := by
  refine effect_of_runStep hrun h fun t' hb => ?_
  simp only [bind_eq_ok] at hb
  obtain ⟨x, -, hb⟩ := hb
  split at hb
  case isTrue => exact absurd hb (raise_ne_ok _ _)
  case isFalse =>
    simp only [bind_eq_ok, Except.ok.injEq] at hb
    obtain ⟨bs, -, rfl⟩ := hb
    exact .responds _ rfl

theorem execTrel_effect {hd : Handle} (hrun : Running s) (h : execTrel hd s = .next t) :
    Effect s (.trel hd) t ∨ ∃ e, t = s.latch e 0#8 Opcode.trel.code := by
  refine effect_of_runStep hrun h fun t' hb => ?_
  simp only [bind_eq_ok, ticketOf_eq_ok] at hb
  obtain ⟨x, ⟨hv, hx⟩, hb⟩ := hb
  split at hb
  case isTrue => exact absurd hb (raise_ne_ok _ _)
  case isFalse hst =>
    obtain rfl := Except.ok.inj hb
    exact .releases hv hx hst

/-! ### Channel commands and events (spec 44, 60) -/

theorem execChnew_effect (hrun : Running s) (h : execChnew u s = .next t) :
    Effect s (.chnew u) t ∨ ∃ e, t = s.latch e u Opcode.chnew.code := by
  refine effect_of_runStep hrun h fun t' hb => ?_
  simp only [bind_eq_ok, channelUnit_eq_ok] at hb
  obtain ⟨x, ⟨hc, hx⟩, hb⟩ := hb
  split at hb
  case isTrue => exact absurd hb (raise_ne_ok _ _)
  case isFalse hinit =>
    obtain rfl := Except.ok.inj hb
    exact .creates hc hx (by simpa using hinit)

theorem execHret_effect (hrun : Running s) (h : execHret u s = .next t) :
    Effect s (.hret u) t ∨ ∃ e, t = s.latch e u Opcode.hret.code := by
  refine effect_of_runStep hrun h fun t' hb => ?_
  simp only [bind_eq_ok] at hb
  obtain ⟨x, -, hb⟩ := hb
  split at hb
  case h_1 => exact absurd hb (raise_ne_ok _ _)
  case h_2 hd hh =>
    simp only [bind_eq_ok, Except.ok.injEq] at hb
    obtain ⟨v, hcont, rfl⟩ := hb
    exact .returns hh hcont

theorem execChstat_effect (hrun : Running s) (h : execChstat u s = .next t) :
    Effect s (.chstat u) t ∨ ∃ e, t = s.latch e u Opcode.chstat.code := by
  refine effect_of_runStep hrun h fun t' hb => ?_
  simp only [bind_eq_ok, Except.ok.injEq] at hb
  obtain ⟨x, -, hd, -, rfl⟩ := hb
  exact .responds _ rfl

theorem execEvtick_effect (hrun : Running s) (h : execEvtick u s = .next t) :
    Effect s (.evtick u) t ∨ ∃ e, t = s.latch e u Opcode.evtick.code := by
  refine effect_of_runStep hrun h fun t' hb => ?_
  simp only [bind_eq_ok, channelUnit_eq_ok, Except.ok.injEq] at hb
  obtain ⟨x, ⟨-, hx⟩, rfl⟩ := hb
  exact .ticks hx

/-! ### Every instruction -/

/-- What an instruction of a running block does: its effect, or the fault its rule raises. -/
theorem exec_effect (hrun : Running s) (h : exec i s = .next t) :
    Effect s i t ∨ ∃ e, t = s.latch e i.unitField i.opcode.code := by
  cases i
  case fpush | fpushn => exact effect_of_runStep hrun h fun _ => pushList_effect rfl rfl
  case fpull => exact effect_of_runStep hrun h fun _ => pullCount_effect rfl rfl rfl
  case fpullu => exact effect_of_runStep hrun h fun _ => pullUntil_effect rfl rfl rfl
  case chrd | chwr => exact effect_of_runStep hrun h fun _ => .submits rfl rfl rfl
  case evcomp => exact effect_of_runStep hrun h fun _ => .finishes
  case fpop => exact execFpop_effect hrun h
  case fpopu => exact execFpopu_effect hrun h
  case fnorm => exact execFnorm_effect hrun h
  case ffind => exact execFfind_effect hrun h
  case tval => exact execTval_effect hrun h
  case trel => exact execTrel_effect hrun h
  case chnew => exact execChnew_effect hrun h
  case hret => exact execHret_effect hrun h
  case chstat => exact execChstat_effect hrun h
  case evtick => exact execEvtick_effect hrun h
  case fsize | fcap | fempty | crc8 | tstat =>
    refine effect_of_runStep hrun h fun t' hb => ?_
    simp only [bind_eq_ok, Except.ok.injEq] at hb
    obtain ⟨a, -, rfl⟩ := hb
    exact .responds _ rfl
  case mkrd | mkwr | parse =>
    refine effect_of_runStep (body := .ok (s.respondOk _)) hrun h fun t' hb => ?_
    obtain rfl := Except.ok.inj hb
    exact .responds _ rfl

end

/-! ## What a step does -/

/-- `s` with other inputs (spec 10 R15, log entry 2). -/
abbrev State.withInputs (s : State) (cmd evt : List Word) (sched : List Move) : State :=
  { s with cmd := cmd, evt := evt, sched := sched }

theorem sameBlock_withInputs (s : State) (cmd evt : List Word) (sched : List Move) : SameBlock s (s.withInputs cmd evt sched) :=
  rfl

/-- What a step makes of the state, by the agent that moves: inputs consumed at most, a fault latched, the effect of the host's
instruction or of an event, or a take. -/
inductive StepEffect (s : State) : State → Prop where
  | waits (cmd evt : List Word) (r : List Move) : StepEffect s (s.withInputs cmd evt r)
  | faults (cmd evt : List Word) (r : List Move) (e : FaultCode) (u o : BitVec 8) :
      StepEffect s ((s.withInputs cmd evt r).latch e u o)
  | command {i : Instr} {ws : List Word} {r : List Move} {t : State} (hrun : Running s) (hsched : s.sched = .host :: r)
      (hdec : decode s.cmd = .instr i ws) (hev : i.isEvent = false) (heff : Effect (s.withInputs ws s.evt r) i t) : StepEffect s t
  | event {i : Instr} {ws : List Word} {r : List Move} {t : State} (hrun : Running s) (hsched : s.sched = .event :: r)
      (hdec : decode s.evt = .instr i ws) (hev : i.isEvent = true) (heff : Effect (s.withInputs s.cmd ws r) i t) : StepEffect s t
  | completion {c : Nat} {r : List Move} {t : State} (hrun : Running s) (hsched : s.sched = .takeComp c :: r)
      (htake : (s.withInputs s.cmd s.evt r).compTakeable c = true) (hbody : (s.withInputs s.cmd s.evt r).onCompletion c = .ok t) :
      StepEffect s t
  | tick {c : Nat} {r : List Move} {t : State} (hrun : Running s) (hsched : s.sched = .takeTick c :: r)
      (htake : (s.withInputs s.cmd s.evt r).tickTakeable c = true) (hbody : (s.withInputs s.cmd s.evt r).takeTickBody c = .ok t) :
      StepEffect s t

section
variable {s t : State}

/-- A take that is not takeable changes nothing; else it answers what its body does, or its fault is latched. -/
theorem take_cases {b : Bool} {o : Opcode} {u : BitVec 8} {body : Op State} (hrun : Running s)
    (h : (if b then command o u s body else .next s) = .next t) :
    t = s ∨ (b = true ∧ body = .ok t) ∨ ∃ e, t = s.latch e u o.code := by
  split at h
  · rcases runStep_eq_next.mp h with ⟨hf, -⟩ | ⟨-, hok | ⟨e, -, rfl⟩⟩
    · exact absurd hrun (faulted_iff.mp hf)
    · exact .inr (.inl ⟨‹_›, hok⟩)
    · exact .inr (.inr ⟨e, rfl⟩)
  · exact .inl (Host.Outcome.next.inj h).symm

/-- What stands at the front of a port waits, is refused, or is an instruction that takes effect or faults. -/
theorem runDecoded_cases {d : Decoded} {consumed : List Word → State} (hrun : Running s) (hcons : ∀ ws, Running (consumed ws))
    (h : runDecoded d s consumed = .next t) :
    t = s ∨ (∃ e u o, t = s.latch e u o) ∨
      ∃ i ws, d = .instr i ws ∧ (Effect (consumed ws) i t ∨ ∃ e u o, t = (consumed ws).latch e u o) := by
  cases d with
  | short => exact .inl (Host.Outcome.next.inj h).symm
  | reject why hdr =>
    exact .inr (.inl ⟨_, _, _, (Host.Outcome.next.inj ((illegalWord_of_running hrun hdr).symm.trans h)).symm⟩)
  | instr i ws =>
    rcases exec_effect (hcons ws) h with heff | ⟨e, rfl⟩
    · exact .inr (.inr ⟨i, ws, rfl, .inl heff⟩)
    · exact .inr (.inr ⟨i, ws, rfl, .inr ⟨e, _, _, rfl⟩⟩)

theorem step_effect (h : step s = .next t) : StepEffect s t := by
  rcases step_eq_next.mp h with ⟨-, rfl⟩ | ⟨hf, ⟨-, rfl⟩ | ⟨m, r, hsched, hm⟩⟩
  · exact .waits s.cmd s.evt s.sched
  · exact .waits s.cmd s.evt s.sched
  have hrun : Running s := by simpa [State.faulted] using hf
  cases m with
  | host =>
    rcases runDecoded_cases (s := s.withInputs s.cmd s.evt r) (consumed := fun ws => s.withInputs ws s.evt r) hrun
      (fun _ => hrun) hm with
      rfl | ⟨e, u, o, rfl⟩ | ⟨i, ws, hd, heff | ⟨e, u, o, rfl⟩⟩
    · exact .waits s.cmd s.evt r
    · exact .faults s.cmd s.evt r e u o
    · obtain ⟨hdec, hev⟩ := decodeCommand_eq_instr.mp hd
      exact .command hrun hsched hdec hev heff
    · exact .faults ws s.evt r e u o
  | event =>
    rcases runDecoded_cases (s := s.withInputs s.cmd s.evt r) (consumed := fun ws => s.withInputs s.cmd ws r) hrun
      (fun _ => hrun) hm with
      rfl | ⟨e, u, o, rfl⟩ | ⟨i, ws, hd, heff | ⟨e, u, o, rfl⟩⟩
    · exact .waits s.cmd s.evt r
    · exact .faults s.cmd s.evt r e u o
    · obtain ⟨hdec, hev⟩ := decodeEvent_eq_instr.mp hd
      exact .event hrun hsched hdec hev heff
    · exact .faults s.cmd ws r e u o
  | takeComp c =>
    rcases take_cases (s := s.withInputs s.cmd s.evt r) hrun hm with rfl | ⟨htake, hbody⟩ | ⟨e, rfl⟩
    · exact .waits s.cmd s.evt r
    · exact .completion hrun hsched htake hbody
    · exact .faults s.cmd s.evt r e _ _
  | takeTick c =>
    rcases take_cases (s := s.withInputs s.cmd s.evt r) hrun hm with rfl | ⟨htake, hbody⟩ | ⟨e, rfl⟩
    · exact .waits s.cmd s.evt r
    · exact .tick hrun hsched htake hbody
    · exact .faults s.cmd s.evt r e _ _

end

/-! ## What every effect leaves -/

/-- The codes of spec 60 R144. -/
theorem FaultCode.byte_range (e : FaultCode) : 1 ≤ e.byte.toNat ∧ e.byte.toNat ≤ 10 := by
  cases e <;> decide

/-- From `s` to `t` the parameters and the fault register stay, and outputs are only appended. -/
abbrev OnlyAppends (s t : State) : Prop := t.cfg = s.cfg ∧ t.fault = s.fault ∧ ∃ os, t.out = s.out ++ os

/-- From `s` to `t` every FIFO and every channel but `c` stays. -/
abbrev OnlyChannel (s t : State) (c : Nat) : Prop := t.fifo = s.fifo ∧ ∀ j, j ≠ c → t.ch[j]? = s.ch[j]?

section
variable {s t u : State} {i : Instr} {c : Nat}

theorem OnlyAppends.trans (hst : OnlyAppends s t) (htu : OnlyAppends t u) : OnlyAppends s u := by
  obtain ⟨hcfg, hfault, os, hout⟩ := hst
  obtain ⟨hcfg', hfault', os', hout'⟩ := htu
  exact ⟨hcfg'.trans hcfg, hfault'.trans hfault, os ++ os', by rw [hout', hout, List.append_assoc]⟩

theorem OnlyChannel.trans (hst : OnlyChannel s t c) (htu : OnlyChannel t u c) : OnlyChannel s u c :=
  ⟨htu.1.trans hst.1, fun j hj => (htu.2 j hj).trans (hst.2 j hj)⟩

theorem Retimed.onlyAppends (h : Retimed s t c) : OnlyAppends s t := ⟨h.cfg, h.fault, h.out⟩

theorem Retimed.onlyChannel (h : Retimed s t c) : OnlyChannel s t c := ⟨h.fifo, fun _ => h.ch_other⟩

theorem onlyAppends_of_out {os : List Output} (hcfg : t.cfg = s.cfg) (hfault : t.fault = s.fault) (hout : t.out = s.out ++ os) :
    OnlyAppends s t := ⟨hcfg, hfault, os, hout⟩

theorem onlyAppends_of_eq (hcfg : t.cfg = s.cfg) (hfault : t.fault = s.fault) (hout : t.out = s.out) : OnlyAppends s t :=
  ⟨hcfg, hfault, [], by rw [hout, List.append_nil]⟩

theorem onlyChannel_setCh (y : Channel) : OnlyChannel s (s.setCh c y) c := ⟨rfl, fun _ hj => List.getElem?_set_ne hj.symm⟩

section
variable {k : Kind} {dev : Byte} {reg : BitVec 7} {v hw : Word} {f : BitVec 2} {d : List Byte}

theorem submit_onlyAppends (h : s.submit c k dev reg v hw = .ok t) : OnlyAppends s t := by
  obtain ⟨x, hid, i, r, u, -, -, -, -, -, hre, rfl⟩ := submit_form h
  exact (onlyAppends_of_eq rfl rfl rfl).trans (hre.onlyAppends.trans ⟨rfl, rfl, _, rfl⟩)

theorem submit_onlyChannel (h : s.submit c k dev reg v hw = .ok t) : OnlyChannel s t c := by
  obtain ⟨x, hid, i, r, u, -, -, -, -, -, hre, rfl⟩ := submit_form h
  exact (onlyChannel_setCh (s := s) _).trans (hre.onlyChannel)

theorem onCompletion_onlyAppends (h : s.onCompletion c = .ok t) : OnlyAppends s t := by
  obtain ⟨x, hd, tk, st, -, -, -, hre⟩ := onCompletion_form h
  have hcompleted : OnlyAppends s (completed s c x hd (some { tk with status := st })) := ⟨rfl, rfl, _, rfl⟩
  have hinvoked := hcompleted.trans
    ⟨invokeHandler_cfg _ c hd st tk.hid, invokeHandler_fault _ c hd st tk.hid, invokeHandler_out _ c hd st tk.hid⟩
  exact hinvoked.trans hre.onlyAppends

theorem onCompletion_onlyChannel (h : s.onCompletion c = .ok t) : OnlyChannel s t c := by
  obtain ⟨x, hd, tk, st, -, -, -, hre⟩ := onCompletion_form h
  have hcompleted : OnlyChannel s (completed s c x hd (some { tk with status := st })) c := onlyChannel_setCh (s := s) _
  have hinvoked : OnlyChannel s ((completed s c x hd (some { tk with status := st })).invokeHandler c hd st tk.hid) c := by
    rw [OnlyChannel, invokeHandler_fifo, invokeHandler_ch]
    exact hcompleted
  exact hinvoked.trans hre.onlyChannel

theorem periphFinish_onlyAppends (h : s.periphFinish c f d = .ok t) : OnlyAppends s t := by
  obtain ⟨x, hd, tk, tk', -, -, -, -, -, -, -, -, -, rfl⟩ := periphFinish_eq_ok.mp h
  exact onlyAppends_of_eq rfl rfl rfl

theorem periphFinish_onlyChannel (h : s.periphFinish c f d = .ok t) : OnlyChannel s t c := by
  obtain ⟨x, hd, tk, tk', -, -, -, -, -, -, -, -, -, rfl⟩ := periphFinish_eq_ok.mp h
  exact onlyChannel_setCh (s := s) _

end

theorem Effect.onlyAppends (h : Effect s i t) : OnlyAppends s t := by
  cases h with
  | responds | writesFifo | releases | creates => exact ⟨rfl, rfl, _, rfl⟩
  | submits _ _ _ h => exact submit_onlyAppends h
  | returns _ hcont =>
    have hre := (continuation_retimed hcont).onlyAppends
    exact (onlyAppends_of_eq (s := s) (t := s.setHphase .none) rfl rfl rfl).trans (hre.trans ⟨rfl, rfl, _, rfl⟩)
  | finishes h => exact periphFinish_onlyAppends h
  | ticks => exact onlyAppends_of_eq rfl rfl rfl

theorem Effect.onlyChannel (h : Effect s i t) (hi : isFifoOpcode i.opcode = false) : OnlyChannel s t i.unitField.toNat := by
  cases h with
  | responds | releases => exact ⟨rfl, fun _ _ => rfl⟩
  | writesFifo _ hfifo => exact absurd (hi.symm.trans hfifo) Bool.false_ne_true
  | creates => exact onlyChannel_setCh (s := s) _
  | submits _ _ hunit h => exact hunit ▸ submit_onlyChannel h
  | returns _ hcont => exact (continuation_retimed hcont).onlyChannel
  | finishes h => exact periphFinish_onlyChannel h
  | ticks => exact onlyChannel_setCh _

/-- Only HRET of the channel whose handler is active ends the handler phase (spec 60 R155). -/
theorem Effect.hphase (h : Effect s i t) :
    t.hphase = s.hphase ∨ (t.hphase = .none ∧ ∃ c g, i = .hret c ∧ handlerOf s.hphase c.toNat = some g) := by
  cases h with
  | responds | writesFifo | releases | creates | ticks => exact .inl rfl
  | submits _ _ _ h =>
    obtain ⟨x, hid, i, r, u, -, -, -, -, -, hre, rfl⟩ := submit_form h
    exact .inl hre.hphase
  | returns hh hcont => exact .inr ⟨(continuation_retimed hcont).hphase, _, _, rfl, hh⟩
  | finishes h =>
    obtain ⟨x, hd, tk, tk', -, -, -, -, -, -, -, -, -, rfl⟩ := periphFinish_eq_ok.mp h
    exact .inl rfl

theorem onCompletion_hphase (h : s.onCompletion c = .ok t) : t.hphase = s.hphase ∨ ∃ c7 g, t.hphase = .active c7 g := by
  obtain ⟨x, hd, tk, st, -, -, -, hre⟩ := onCompletion_form h
  rw [hre.hphase]
  rcases invokeHandler_hphase (completed s c x hd (some { tk with status := st })) c hd st tk.hid with e | e
  · exact .inl e
  · exact .inr ⟨_, _, e⟩

theorem handlerOf_eq_some {p : HPhase} {g : Handle} (h : handlerOf p c = some g) : ∃ c7, p = .active c7 g ∧ c7.toNat = c := by
  cases p with
  | none => cases h
  | active c7 g' =>
    simp only [handlerOf] at h
    split at h
    · exact ⟨c7, by rw [Option.some.inj h], ‹_›⟩
    · cases h

/-- A take from a running or a faulted block. -/
theorem takes_onlyChannel (h : takeCompletion c s = .next t ∨ takeTick c s = .next t) : OnlyChannel s t c := by
  have hrefl : OnlyChannel s s c := ⟨rfl, fun _ _ => rfl⟩
  by_cases hrun : Running s
  · rcases h with h | h
    · rcases take_cases hrun h with rfl | ⟨-, hbody⟩ | ⟨e, rfl⟩
      · exact hrefl
      · exact onCompletion_onlyChannel hbody
      · exact hrefl
    · rcases take_cases hrun h with rfl | ⟨-, hbody⟩ | ⟨e, rfl⟩
      · exact hrefl
      · exact (takeTickBody_retimed hbody).onlyChannel
      · exact hrefl
  · have hf := faulted_iff.mpr hrun
    have hsame : t = s := by
      rcases h with h | h
      · unfold takeCompletion at h
        split at h
        · exact (Host.Outcome.next.inj ((runStep_of_faulted hf).symm.trans h)).symm
        · exact (Host.Outcome.next.inj h).symm
      · unfold takeTick at h
        split at h
        · exact (Host.Outcome.next.inj ((runStep_of_faulted hf).symm.trans h)).symm
        · exact (Host.Outcome.next.inj h).symm
    exact hsame ▸ hrefl

end

end Sys2Proof.Machine

open Sys2Proof Sys2Proof.Machine Sys2Proof.Claims

/-- Settles O60: no effect of a step writes a parameter, and each only appends outputs. -/
theorem stepKeepsConfigAndOutputs : Obligations.StepKeepsConfigAndOutputs := by
  intro s t h
  have hkeeps : t.cfg = s.cfg ∧ ∃ os, t.out = s.out ++ os := by
    cases step_effect h with
    | waits | faults => exact ⟨rfl, [], (List.append_nil _).symm⟩
    | command _ _ _ _ heff | event _ _ _ _ heff =>
      obtain ⟨hcfg, -, hout⟩ := heff.onlyAppends
      exact ⟨hcfg, hout⟩
    | completion _ _ _ hbody =>
      obtain ⟨hcfg, -, hout⟩ := onCompletion_onlyAppends hbody
      exact ⟨hcfg, hout⟩
    | tick _ _ _ hbody =>
      obtain ⟨hcfg, -, hout⟩ := (takeTickBody_retimed hbody).onlyAppends
      exact ⟨hcfg, hout⟩
  exact hkeeps

/-- Settles O11: every effect but the latching of a fault leaves the fault register. -/
theorem faultsArePrecise : Obligations.FaultsArePrecise := by
  intro s t hrun h hfault
  have hkept {u : State} (hu : OnlyAppends u t) (hs : u.fault = s.fault) : False := by
    obtain ⟨-, hf, -⟩ := hu
    exact hfault (by rw [Running, hf, hs]; exact hrun)
  cases step_effect h with
  | waits => exact absurd hrun hfault
  | faults => rfl
  | command _ _ _ _ heff | event _ _ _ _ heff => exact (hkept heff.onlyAppends rfl).elim
  | completion _ _ _ hbody => exact (hkept (onCompletion_onlyAppends hbody) rfl).elim
  | tick _ _ _ hbody => exact (hkept (takeTickBody_retimed hbody).onlyAppends rfl).elim

/-- Settles O12: an effect leaves the fault register, so the fault is the one latched. -/
theorem faultRecordsItsInstruction : Obligations.FaultRecordsItsInstruction := by
  intro i s t hrun h hfault
  rcases exec_effect hrun h with heff | ⟨e, rfl⟩
  · obtain ⟨-, hf, -⟩ := heff.onlyAppends
    exact absurd (show Running t by rw [Running, hf]; exact hrun) hfault
  · exact ⟨rfl, rfl, e.byte_range⟩

/-- Settles O25: the effects that a FIFO command can have are a response, and a response with its FIFO written. -/
theorem fifoCommandsFrame : Obligations.FifoCommandsFrame := by
  intro i s t hi hrun h hrun'
  rw [isFifoCommand_eq] at hi
  rcases exec_effect hrun h with heff | ⟨e, rfl⟩
  · cases heff with
    | responds ws => exact ⟨rfl, fun _ _ => rfl, ws, rfl⟩
    | writesFifo ws _ hunit => exact ⟨rfl, fun j hj => List.getElem?_set_ne (by omega), ws, rfl⟩
    | submits _ hno => exact absurd (hno.symm.trans hi) Bool.false_ne_true
    | releases | creates | returns | finishes | ticks => cases hi
  · exact absurd hrun' (faulted_iff.mp (State.latch_faulted s e _ _))

/-- Settles O57: of the effects only HRET's leaves the phase, and only the completion take enters it. -/
theorem handlerPhaseChanges : Obligations.HandlerPhaseChanges := by
  intro s t h
  cases step_effect h with
  | waits | faults => exact .inl rfl
  | command _ hsched hdec _ heff =>
    rcases heff.hphase with e | ⟨e, c, g, rfl, hh⟩
    · exact .inl e
    · obtain ⟨c7, hact, hc⟩ := handlerOf_eq_some hh
      exact .inr (.inr ⟨e, c7, g, c, _, _, hact, hc, hsched, hdec⟩)
  | event _ _ _ hev heff =>
    rcases heff.hphase with e | ⟨-, c, g, rfl, -⟩
    · exact .inl e
    · cases hev
  | completion _ hsched htake hbody =>
    rcases onCompletion_hphase hbody with e | ⟨c7, g, e⟩
    · exact .inl e
    · exact .inr (.inl ⟨(compTakeable_iff.mp htake).1, _, _, c7, g, hsched, e⟩)
  | tick _ _ _ hbody => exact .inl (takeTickBody_retimed hbody).hphase

/-- Settles O59, by the effects of a channel's instruction and of its takes. -/
theorem channelStepsTouchOneChannel : Obligations.ChannelStepsTouchOneChannel := by
  refine ⟨fun i s t hi h => ?_, fun c s t h => takes_onlyChannel h⟩
  rw [isChannelInstr_eq] at hi
  have hnot := isFifoOpcode_of_channel hi
  by_cases hrun : Running s
  · rcases exec_effect hrun h with heff | ⟨e, rfl⟩
    · exact heff.onlyChannel hnot
    · exact ⟨rfl, fun _ _ => rfl⟩
  · obtain rfl := Host.Outcome.next.inj ((exec_of_faulted (faulted_iff.mpr hrun) i).symm.trans h)
    exact ⟨rfl, fun _ _ => rfl⟩
end

section
/-! SUPPORT. The invariants of spec 10 R35 channel by channel and ticket by ticket, and what a write to the state must meet to keep
them. -/

namespace Sys2Proof.Machine

open Sys2Proof.Claims

/-! ## Handles and slots (spec 10 R21) -/

theorem toNat_pos_of_ne_zero {h : Handle} (h0 : h ≠ 0#16) : 1 ≤ h.toNat := by
  bv_omega

theorem handleAt_toNat {i : Nat} (hi : i < 65535) : (handleAt i).toNat = i + 1 := by
  simp only [handleAt, BitVec.toNat_ofNat]
  omega

theorem handleAt_ne_zero {i : Nat} (hi : i < 65535) : handleAt i ≠ 0#16 := by
  intro e
  have := handleAt_toNat hi
  rw [e] at this
  simp at this

section
variable {s : State} {h : Handle} {y : Ticket}

theorem ticket?_eq_some : s.ticket? h = some y ↔ h ≠ 0#16 ∧ s.tkt[h.toNat - 1]? = some (some y) := by
  unfold State.ticket?
  split
  · simp [*]
  · simp [*, Option.join_eq_some_iff]

theorem ticket?_handleAt {i : Nat} (hi : i < 65535) : s.ticket? (handleAt i) = (s.tkt[i]?).join := by
  rw [State.ticket?, if_neg (handleAt_ne_zero hi), handleAt_toNat hi, Nat.add_sub_cancel]

theorem handle_le_of_ticket (h' : s.ticket? h = some y) : h.toNat ≤ s.tkt.length := by
  obtain ⟨h0, hslot⟩ := ticket?_eq_some.mp h'
  obtain ⟨hlt, -⟩ := List.getElem?_eq_some_iff.mp hslot
  have := toNat_pos_of_ne_zero h0
  omega

/-- Every slot of the table has a handle. -/
theorem exists_ticket_of_mem {o : Option Ticket} (hlen : s.tkt.length ≤ 65535) (ho : o ∈ s.tkt) (hy : y ∈ o) :
    ∃ g, s.ticket? g = some y := by
  obtain ⟨i, hi, rfl⟩ := List.mem_iff_getElem.mp ho
  refine ⟨handleAt i, ?_⟩
  rw [ticket?_handleAt (by omega), List.getElem?_eq_getElem hi]
  exact hy

theorem chan_eq {c : Nat} {x : Channel} (hx : s.ch[c]? = some x) : s.chan c = x := by
  simp [State.chan, List.getD_eq_getElem?_getD, hx]

theorem ch_of_lt {c : Nat} (hc : c < s.ch.length) : s.ch[c]? = some (s.chan c) := by
  simp [State.chan, List.getD_eq_getElem?_getD, hc]

end

/-! ## The invariants, channel by channel and ticket by ticket -/

/-- What the invariants say of channel `c`, which is `x` and whose queue holds `l`, but for invariant 6. -/
structure ChannelSound (s : State) (c : Nat) (x : Channel) (l : List Handle) : Prop where
  holds : x.q.Holds l
  cap : x.q.cap ≤ s.cfg.memLimit
  nodup : l.Nodup
  queued : ∀ h ∈ l, ∃ y, s.ticket? h = some y ∧ y.chan.toNat = c ∧ y.status = .pending
  armed : x.per.armed = true → l ≠ [] ∧ x.per.ieRx = true ∧ x.per.ieTo = true
  unarmed : x.per.armed = false → x.per = Periph.off
  idle : x.idle ≠ notIdle → x.per.armed = false ∧ l ≠ [] ∧ x.idle.toNat ≤ s.cfg.debounceT ∧ s.cfg.nextStart = .deferred
  delivered : x.per.stRx = true ∨ x.per.stTo = true →
    ∀ h ∈ l.head?, ∃ y, s.ticket? h = some y ∧ y.inbound.all Option.isSome = true
  inert : x.init = false → x.q = Queue.fresh 16 0 ∧ x.idle = notIdle ∧ x.per = Periph.off

/-- An active handler belongs to a created channel and to a handle of the table (spec 10 R31). -/
abbrev HandlerSound (s : State) : Prop :=
  ∀ c7 h, s.hphase = .active c7 h →
    (∃ x, s.ch[c7.toNat]? = some x ∧ x.init = true) ∧ 1 ≤ h.toNat ∧ h.toNat ≤ s.cfg.maxTickets

/-- The invariants but for invariant 6, that no queued ticket is stranded. -/
structure State.Sound (s : State) : Prop where
  cfgValid : s.cfg.Valid
  sized : s.TablesSized
  fifos : ∀ q ∈ s.fifo, q.WF s.cfg.memLimit
  tickets : ∀ h y, s.ticket? h = some y → y.WF s.cfg
  pending : ∀ h y x l, s.ticket? h = some y → y.status = .pending → s.ch[y.chan.toNat]? = some x → x.q.Holds l → h ∈ l
  channels : ∀ c x, s.ch[c]? = some x → ∃ l, ChannelSound s c x l
  handler : HandlerSound s
  faultCode : s.fault.code.toNat ≤ 10

/-- Invariant 6 of channel `c`: outside its handler, a queued ticket has a transfer or a debounce under way. -/
abbrev NotStranded (s : State) (c : Nat) : Prop :=
  ∀ x, s.ch[c]? = some x → handlerOf s.hphase c = none → 1 ≤ x.q.size → x.per.armed = true ∨ x.idle ≠ notIdle

section
variable {s : State} {c : Nat} {x : Channel} {l : List Handle}

theorem one_le_size_iff (h : x.q.Holds l) : 1 ≤ x.q.size ↔ l ≠ [] := by
  rw [← h.length, Nat.one_le_iff_ne_zero, ne_eq, List.length_eq_zero_iff]

theorem State.Inv.channelSound (hs : s.Inv) (hx : s.ch[c]? = some x) : ∃ l, ChannelSound s c x l := by
  obtain ⟨hc, -⟩ := List.getElem?_eq_some_iff.mp hx
  have hchan := chan_eq hx
  obtain ⟨-, hqueues, -⟩ := hs.memory
  obtain ⟨hcap, l, hl⟩ := Queue.wf_iff.mp (hqueues x (List.mem_of_getElem? hx))
  obtain ⟨hnodup, hqueued⟩ := hs.queued c hc
  obtain ⟨harmed, hunarmed⟩ := hs.armed c hc
  have hidle := hs.idle c hc
  have hdelivered := hs.delivered c hc
  have hinert := hs.inert c hc
  simp only [State.FinishedDelivered, Channel.IdleOk, Channel.InertUntilCreated, hchan, hl.liveList, one_le_size_iff hl,
    List.all_eq_true, Option.any_eq_true, Ticket.pendingOn, Bool.and_eq_true, beq_iff_eq] at *
  refine ⟨l, hl, hcap, hnodup, hqueued, harmed, hunarmed, hidle, fun hst h hh => ?_, hinert⟩
  obtain ⟨m, rfl⟩ := List.head?_eq_some_iff.mp hh
  simpa using hdelivered hst h (by simp)

theorem State.Inv.sound (hs : s.Inv) : s.Sound where
  cfgValid := hs.cfgValid
  sized := hs.sized
  fifos := hs.memory.1
  tickets := by
    intro h y hy
    obtain ⟨-, hslot⟩ := ticket?_eq_some.mp hy
    exact hs.memory.2.2 _ (List.mem_of_getElem? hslot) y rfl
  pending := by
    intro h y x l hy hst hx hl
    obtain ⟨h0, hslot⟩ := ticket?_eq_some.mp hy
    obtain ⟨hlt, hat⟩ := List.getElem?_eq_some_iff.mp hslot
    have hpos := toNat_pos_of_ne_zero h0
    have hmem := hs.pending (h.toNat - 1) hlt y (by simp [List.getD_eq_getElem?_getD, hslot]) hst
    have hh : handleAt (h.toNat - 1) = h := by
      rw [handleAt, Nat.sub_add_cancel hpos, BitVec.ofNat_toNat, BitVec.setWidth_eq]
    rwa [chan_eq hx, hl.liveList, hh] at hmem
  channels := fun _ _ => hs.channelSound
  handler := by
    intro c7 h hact
    have hok := hs.handler
    simp only [State.handlerOk, hact, Bool.and_eq_true, decide_eq_true_eq] at hok
    obtain ⟨⟨⟨hc, hinit⟩, hpos⟩, hle⟩ := hok
    rw [← hs.sized.2.2] at hc
    exact ⟨⟨_, ch_of_lt hc, hinit⟩, hpos, hle⟩
  faultCode := hs.faultCode

theorem State.Inv.notStranded (hs : s.Inv) (c : Nat) : NotStranded s c := by
  intro x hx
  obtain ⟨hc, -⟩ := List.getElem?_eq_some_iff.mp hx
  have h := hs.stranded c hc
  rwa [State.NoneStranded, chan_eq hx] at h

theorem State.Sound.inv (hs : s.Sound) (hstranded : ∀ c, NotStranded s c) : s.Inv := by
  have hview (c : Nat) (hc : c < s.ch.length) : ∃ l, ChannelSound s c (s.chan c) l := hs.channels c _ (ch_of_lt hc)
  have hmax : s.tkt.length ≤ 65535 := hs.sized.2.1 ▸ hs.cfgValid.2.2.2.2.1
  refine ⟨hs.cfgValid, hs.sized, ⟨hs.fifos, fun x hx => ?_, fun o ho y hy => ?_⟩, fun i hi y hy hst => ?_, ?_, fun c hc => ?_,
    fun c hc => ?_, fun c hc => ?_, fun c hc => hstranded c _ (ch_of_lt hc), fun c hc => ?_, fun c hc => ?_, hs.faultCode⟩
  · obtain ⟨c, hc, rfl⟩ := List.mem_iff_getElem.mp hx
    obtain ⟨l, hl⟩ := hs.channels c _ (List.getElem?_eq_getElem hc)
    exact Queue.wf_iff.mpr ⟨hl.cap, l, hl.holds⟩
  · obtain ⟨g, hg⟩ := exists_ticket_of_mem hmax ho hy
    exact hs.tickets g y hg
  · have hg : s.ticket? (handleAt i) = some y := by
      rw [ticket?_handleAt (by omega), List.getElem?_eq_getElem hi]
      simpa [List.getD_eq_getElem?_getD, hi] using hy
    have hch : y.chan.toNat < s.ch.length := by
      obtain ⟨hlt, -⟩ := hs.tickets _ _ hg
      rwa [hs.sized.2.2]
    obtain ⟨l, hl⟩ := hview _ hch
    rw [hl.holds.liveList]
    exact hs.pending _ y _ l hg hst (ch_of_lt hch) hl.holds
  · unfold State.handlerOk
    split
    · rfl
    · rename_i c7 h hact
      obtain ⟨⟨x, hx, hinit⟩, hpos, hle⟩ := hs.handler c7 h hact
      obtain ⟨hc, -⟩ := List.getElem?_eq_some_iff.mp hx
      rw [hs.sized.2.2] at hc
      simp [chan_eq hx, hinit, hpos, hle, hc]
  all_goals obtain ⟨l, hl⟩ := hview c hc
  · rw [State.QueuedArePending, hl.holds.liveList]
    refine ⟨hl.nodup, ?_⟩
    simp only [List.all_eq_true, Option.any_eq_true, Ticket.pendingOn, Bool.and_eq_true, beq_iff_eq]
    exact hl.queued
  · rw [Channel.ArmedOk, one_le_size_iff hl.holds]
    exact ⟨hl.armed, hl.unarmed⟩
  · rw [Channel.IdleOk, one_le_size_iff hl.holds]
    exact hl.idle
  · rw [State.FinishedDelivered, hl.holds.liveList]
    intro hst
    have hd := hl.delivered hst
    cases l with
    | nil => rfl
    | cons h m => simpa [Option.any_eq_true] using hd h rfl
  · exact hl.inert

end

/-! ## Writes that keep the invariants -/

section
variable {s t : State} {c : Nat} {x y : Channel} {l : List Handle}

/-- The invariants of a channel rest on the parameters and on the tickets it has queued. -/
theorem ChannelSound.frame (h : ChannelSound s c x l) (hcfg : t.cfg = s.cfg) (htkt : ∀ g ∈ l, t.ticket? g = s.ticket? g) :
    ChannelSound t c x l where
  holds := h.holds
  cap := hcfg ▸ h.cap
  nodup := h.nodup
  queued := fun g hg => by rw [htkt g hg]; exact h.queued g hg
  armed := h.armed
  unarmed := h.unarmed
  idle := hcfg ▸ h.idle
  delivered := fun hst g hg => by rw [htkt g (List.mem_of_mem_head? hg)]; exact h.delivered hst g hg
  inert := h.inert

theorem ChannelSound.unique {l' : List Handle} (h : ChannelSound s c x l) (hl : x.q.Holds l') : ChannelSound s c x l' :=
  h.holds.unique hl ▸ h

/-- The tick latch has no part in the invariants. -/
theorem ChannelSound.setTickp (h : ChannelSound s c x l) (b : Bool) : ChannelSound s c { x with tickp := b } l :=
  ⟨h.holds, h.cap, h.nodup, h.queued, h.armed, h.unarmed, h.idle, h.delivered, h.inert⟩

/-- A channel with a queued ticket has been created. -/
theorem ChannelSound.created (h : ChannelSound s c x l) (hne : l ≠ []) : x.init = true := by
  by_contra hinit
  obtain ⟨hq, -⟩ := h.inert (by simpa using hinit)
  have hholds := h.holds
  rw [hq] at hholds
  exact hne (hholds.unique (Queue.fresh_holds 0))

/-- What a write to channel `c` and to the slot of handle `g` must meet to keep the invariants but for invariant 6. -/
theorem State.Sound.write {g : Handle} (hs : s.Sound) (hcfg : t.cfg = s.cfg) (hfault : t.fault = s.fault)
    (hfifo : t.fifo = s.fifo) (hhandler : HandlerSound t) (hlenT : t.tkt.length = s.tkt.length) (hlenC : t.ch.length = s.ch.length)
    (hch : ∀ j, j ≠ c → t.ch[j]? = s.ch[j]?) (htkt : ∀ h, h ≠ g → t.ticket? h = s.ticket? h)
    (hold : ∀ z, s.ticket? g = some z → z.status = .pending → z.chan.toNat = c)
    (hnew : ∀ z, t.ticket? g = some z → z.WF s.cfg ∧ (z.status = .pending → z.chan.toNat = c))
    (hsound : ∀ x', t.ch[c]? = some x' → ∃ l', ChannelSound t c x' l' ∧
      ∀ h z, t.ticket? h = some z → z.status = .pending → z.chan.toNat = c → h ∈ l') : t.Sound where
  cfgValid := hcfg ▸ hs.cfgValid
  sized := by
    obtain ⟨h1, h2, h3⟩ := hs.sized
    exact ⟨by rw [hfifo, hcfg, h1], by rw [hlenT, hcfg, h2], by rw [hlenC, hcfg, h3]⟩
  fifos := by
    rw [hfifo, hcfg]
    exact hs.fifos
  tickets := by
    intro h z hz
    rw [hcfg]
    by_cases hg : h = g
    · exact (hnew z (hg ▸ hz)).1
    · exact hs.tickets h z (htkt h hg ▸ hz)
  pending := by
    intro h z x' l' hz hst hx' hl'
    by_cases hc : z.chan.toNat = c
    · rw [hc] at hx'
      obtain ⟨m, hm, hmem⟩ := hsound x' hx'
      exact hm.holds.unique hl' ▸ hmem h z hz hst hc
    · have hg : h ≠ g := fun e => hc ((hnew z (e ▸ hz)).2 hst)
      exact hs.pending h z x' l' (htkt h hg ▸ hz) hst (hch _ hc ▸ hx') hl'
  channels := by
    intro j x' hx'
    by_cases hj : j = c
    · subst hj
      obtain ⟨l', hl', -⟩ := hsound x' hx'
      exact ⟨l', hl'⟩
    · rw [hch j hj] at hx'
      obtain ⟨l', hl'⟩ := hs.channels j x' hx'
      refine ⟨l', hl'.frame hcfg fun h hh => htkt h ?_⟩
      rintro rfl
      obtain ⟨z, hz, hzc, hzst⟩ := hl'.queued h hh
      exact hj (hzc.symm.trans (hold z hz hzst))
  handler := hhandler
  faultCode := hfault ▸ hs.faultCode

/-- The inputs and the outputs have no part in the invariants. -/
theorem State.Sound.congr (hs : s.Sound) (hcfg : t.cfg = s.cfg) (hfault : t.fault.code.toNat ≤ 10) (hhandler : HandlerSound t)
    (hfifo : t.fifo = s.fifo) (htkt : t.tkt = s.tkt) (hch : t.ch = s.ch) : t.Sound := by
  have hticket (h : Handle) : t.ticket? h = s.ticket? h := by rw [State.ticket?, State.ticket?, htkt]
  refine ⟨hcfg ▸ hs.cfgValid, ?_, ?_, ?_, ?_, ?_, hhandler, hfault⟩
  · rw [State.TablesSized, hcfg, hfifo, htkt, hch]
    exact hs.sized
  · rw [hfifo, hcfg]
    exact hs.fifos
  · simp only [hticket, hcfg]
    exact hs.tickets
  · simp only [hticket, hch]
    exact hs.pending
  · intro j x' hx'
    obtain ⟨l', hl'⟩ := hs.channels j x' (hch ▸ hx')
    exact ⟨l', hl'.frame hcfg fun h _ => hticket h⟩

theorem handlerSound_congr (h : HandlerSound s) (hcfg : t.cfg = s.cfg) (hph : t.hphase = s.hphase) (hch : t.ch = s.ch) :
    HandlerSound t := by
  rw [HandlerSound, hcfg, hph, hch]
  exact h

/-- A write to a channel that does not undo its creation. -/
theorem handlerSound_setCh (h : HandlerSound s) (hx : s.ch[c]? = some x) (hinit : x.init = true → y.init = true)
    (hcfg : t.cfg = s.cfg) (hph : t.hphase = s.hphase) (hch : t.ch = s.ch.set c y) : HandlerSound t := by
  intro c7 g hact
  rw [hph] at hact
  rw [hcfg]
  obtain ⟨⟨x', hx', hi⟩, hg⟩ := h c7 g hact
  refine ⟨?_, hg⟩
  by_cases hc : c7.toNat = c
  · rw [hc] at hx' ⊢
    obtain rfl : x = x' := Option.some.inj (hx.symm.trans hx')
    exact ⟨y, by rw [hch]; exact ch_setCh_self (s := s) hx y, hinit hi⟩
  · exact ⟨x', by rw [hch, List.getElem?_set_ne (Ne.symm hc), hx'], hi⟩

/-- A channel written, its queue holding what it held. -/
theorem State.Sound.setCh (hs : s.Sound) (hx : s.ch[c]? = some x) (hl : x.q.Holds l) (hy : ChannelSound s c y l)
    (hinit : x.init = true → y.init = true) : (s.setCh c y).Sound := by
  refine hs.write (c := c) (g := 0#16) rfl rfl rfl (handlerSound_setCh hs.handler hx hinit rfl rfl rfl) rfl (List.length_set ..)
    (fun j hj => List.getElem?_set_ne (Ne.symm hj)) (fun _ _ => rfl) ?_ ?_ fun x' hx' => ⟨l, ?_, fun h z hz hst hzc => ?_⟩
  · simp [State.ticket?]
  · simp [State.ticket?]
  · obtain rfl : y = x' := Option.some.inj ((ch_setCh_self hx y).symm.trans hx')
    exact hy.frame rfl fun _ _ => rfl
  · exact hs.pending h z x l hz hst (hzc ▸ hx) hl

theorem State.Sound.setHphase (hs : s.Sound) {p : HPhase} (hp : HandlerSound (s.setHphase p)) : (s.setHphase p).Sound :=
  hs.congr rfl hs.faultCode hp rfl rfl rfl

theorem State.Sound.emit (hs : s.Sound) (o : Output) : (s.emit o).Sound :=
  hs.congr rfl hs.faultCode (handlerSound_congr hs.handler rfl rfl rfl) rfl rfl rfl

theorem State.Sound.setFifo (hs : s.Sound) {k : Nat} {q : Queue 32} (hq : q.WF s.cfg.memLimit) : (s.setFifo k q).Sound := by
  obtain ⟨h1, h2, h3⟩ := hs.sized
  refine ⟨hs.cfgValid, ⟨(List.length_set ..).trans h1, h2, h3⟩, fun p hp => ?_, hs.tickets, hs.pending, fun j x' hx' => ?_,
    handlerSound_congr hs.handler rfl rfl rfl, hs.faultCode⟩
  · rcases List.mem_or_eq_of_mem_set hp with hp | rfl
    · exact hs.fifos p hp
    · exact hq
  · obtain ⟨l', hl'⟩ := hs.channels j x' hx'
    exact ⟨l', hl'.frame rfl fun _ _ => rfl⟩

theorem State.Sound.latch (hs : s.Sound) (e : FaultCode) (u o : BitVec 8) : (s.latch e u o).Sound :=
  hs.congr rfl e.byte_range.2 (handlerSound_congr hs.handler rfl rfl rfl) rfl rfl rfl

/-! ### Invariant 6 -/

theorem NotStranded.frame (h : NotStranded s c) (hch : t.ch[c]? = s.ch[c]?)
    (hph : handlerOf t.hphase c = none → handlerOf s.hphase c = none) : NotStranded t c :=
  fun x hx hnone => h x (hch ▸ hx) (hph hnone)

/-- The invariants hold where the tables, the parameters and the handler phase of a state that meets them stand. -/
theorem State.Inv.congr (hs : s.Inv) (hcfg : t.cfg = s.cfg) (hfault : t.fault.code.toNat ≤ 10) (hph : t.hphase = s.hphase)
    (hfifo : t.fifo = s.fifo) (htkt : t.tkt = s.tkt) (hch : t.ch = s.ch) : t.Inv :=
  (hs.sound.congr hcfg hfault (handlerSound_congr hs.sound.handler hcfg hph hch) hfifo htkt hch).inv
    fun j => (hs.notStranded j).frame (by rw [hch]) (by rw [hph]; exact id)

theorem State.Inv.emit (hs : s.Inv) (o : Output) : (s.emit o).Inv := hs.congr rfl hs.faultCode rfl rfl rfl rfl

theorem State.Inv.withInputs (hs : s.Inv) (cmd evt : List Word) (r : List Move) : (s.withInputs cmd evt r).Inv :=
  hs.congr rfl hs.faultCode rfl rfl rfl rfl

theorem State.Inv.latch (hs : s.Inv) (e : FaultCode) (u o : BitVec 8) : (s.latch e u o).Inv :=
  hs.congr rfl e.byte_range.2 rfl rfl rfl rfl

/-- A channel of a state that meets the invariants is written, its queue holding what it held. -/
theorem State.Inv.setCh (hs : s.Inv) (hx : s.ch[c]? = some x) (hl : x.q.Holds l) (hy : ChannelSound s c y l)
    (hinit : x.init = true → y.init = true)
    (hbusy : handlerOf s.hphase c = none → l ≠ [] → y.per.armed = true ∨ y.idle ≠ notIdle) : (s.setCh c y).Inv := by
  refine (hs.sound.setCh hx hl hy hinit).inv fun j => ?_
  by_cases hj : j = c
  · subst hj
    intro x' hx' hnone hsize
    obtain rfl : y = x' := Option.some.inj ((ch_setCh_self hx y).symm.trans hx')
    exact hbusy hnone ((one_le_size_iff hy.holds).mp hsize)
  · exact (hs.notStranded j).frame (List.getElem?_set_ne (Ne.symm hj)) id

end

/-! ## The sequencer keeps the invariants (spec 44) -/

/-- The invariants, but that channel `c` may have a queued ticket with nothing under way. -/
structure InvBut (s : State) (c : Nat) : Prop where
  sound : s.Sound
  others : ∀ j, j ≠ c → NotStranded s j

section
variable {s t : State} {c : Nat} {x y : Channel} {l : List Handle} {h : Handle}

theorem State.Inv.invBut (hs : s.Inv) (c : Nat) : InvBut s c := ⟨hs.sound, fun j _ => hs.notStranded j⟩

theorem InvBut.inv (hs : InvBut s c) (hc : NotStranded s c) : s.Inv :=
  hs.sound.inv fun j => if hj : j = c then hj ▸ hc else hs.others j hj

/-- A write to the channel that leaves nothing stranded on it. -/
theorem InvBut.setCh (hs : InvBut s c) (hx : s.ch[c]? = some x) (hl : x.q.Holds l) (hy : ChannelSound s c y l)
    (hinit : x.init = true → y.init = true) (hbusy : l ≠ [] → y.per.armed = true ∨ y.idle ≠ notIdle) : (s.setCh c y).Inv := by
  refine (hs.sound.setCh hx hl hy hinit).inv fun j => ?_
  by_cases hj : j = c
  · subst hj
    intro x' hx' _ hsize
    obtain rfl : y = x' := Option.some.inj ((ch_setCh_self hx y).symm.trans hx')
    exact hbusy ((one_le_size_iff hy.holds).mp hsize)
  · exact (hs.others j hj).frame (List.getElem?_set_ne (Ne.symm hj)) id

/-- The bytes that a ticket in its form sends hold values. -/
theorem all_isSome_iff {α : Type} {os : List (Option α)} : os.all Option.isSome = true ↔ ∃ vs : List α, os = vs.map some := by
  constructor
  · intro hall
    refine ⟨os.filterMap id, ?_⟩
    induction os with
    | nil => rfl
    | cons o os ih =>
      cases o with
      | none => simp at hall
      | some v => simpa using ih (by simpa using hall)
  · rintro ⟨vs, rfl⟩
    simp

theorem pstartOf_of_wf {g : Config} {z : Ticket} (hz : z.WF g) (c : Nat) (h : Handle) : ∃ o, pstartOf g c h z = .ok o := by
  obtain ⟨-, hframe, -, hsend, -⟩ := hz
  cases hk : z.kind with
  | read =>
    simp only [Ticket.sendable, hk] at hsend
    obtain ⟨tx, htx⟩ := all_isSome_iff.mp hsend
    exact ⟨_, pstartOf_eq_ok.mpr (.inl ⟨hk, tx, memRead_eq_ok.mpr ⟨by omega, htx⟩, rfl⟩)⟩
  | write =>
    simp only [Ticket.sendable, hk] at hsend
    obtain ⟨tx, htx⟩ := all_isSome_iff.mp hsend
    have hread : memRead z.frame 0 8 = .ok tx :=
      memRead_eq_ok.mpr ⟨by omega, by rw [List.drop_zero, ← hframe, List.take_length, htx]⟩
    exact ⟨_, pstartOf_eq_ok.mpr (.inr ⟨hk, tx, hread, rfl⟩)⟩

/-- Under the invariants a channel with a queued ticket and no transfer can start one (spec 44 R126, R138). -/
theorem State.Sound.startTransfer (hs : s.Sound) (hx : s.ch[c]? = some x) (hl : ChannelSound s c x (h :: l))
    (harmed : x.per.armed = false) :
    ∃ o, s.startTransfer c = .ok ((s.setCh c { x with per := Periph.started }).emit o) := by
  obtain ⟨z, hz, -, -⟩ := hl.queued h (List.mem_cons_self ..)
  obtain ⟨o, ho⟩ := pstartOf_of_wf (hs.tickets h z hz) c h
  exact ⟨o, startTransfer_eq_ok.mpr ⟨x, h, z, o, hx, harmed, hl.holds.head, hz, ho, rfl⟩⟩

/-- A channel whose head's transfer has just started, its counter inactive. -/
theorem ChannelSound.started (hl : ChannelSound s c x (h :: l)) :
    ChannelSound s c { x with per := Periph.started, idle := notIdle } (h :: l) where
  holds := hl.holds
  cap := hl.cap
  nodup := hl.nodup
  queued := hl.queued
  armed := fun _ => ⟨List.cons_ne_nil h l, rfl, rfl⟩
  unarmed := fun harmed => by cases harmed
  idle := fun hidle => absurd rfl hidle
  delivered := fun hst => by simp [Periph.started] at hst
  inert := fun hinit => absurd (hl.created (List.cons_ne_nil h l)) (by simp [show x.init = false from hinit])

/-- A start on a channel whose counter is inactive ends what was left open. -/
theorem InvBut.startTransfer (hs : InvBut s c) (hx : s.ch[c]? = some x) (hl : ChannelSound s c x (h :: l))
    (harmed : x.per.armed = false) (hidle : x.idle = notIdle) : ∃ t, s.startTransfer c = .ok t ∧ t.Inv := by
  obtain ⟨o, ho⟩ := hs.sound.startTransfer hx hl harmed
  have hstarted := hl.started
  rw [← hidle] at hstarted
  exact ⟨_, ho, (hs.setCh hx hl.holds hstarted id fun _ => .inl rfl).emit o⟩

/-- A channel whose idle counter has just been activated (spec 44 R130). -/
theorem ChannelSound.activated (hl : ChannelSound s c x l) (hne : l ≠ []) (harmed : x.per.armed = false)
    (hn : s.cfg.nextStart = .deferred) : ChannelSound s c { x with idle := 0x00#8 } l :=
  ⟨hl.holds, hl.cap, hl.nodup, hl.queued, hl.armed, hl.unarmed, fun _ => ⟨harmed, hne, Nat.zero_le _, hn⟩, hl.delivered,
    fun hinit => absurd (hl.created hne) (by simp [show x.init = false from hinit])⟩

/-- The continuation ends what was left open, under either policy (spec 44 R130). -/
theorem InvBut.continuation (hs : InvBut s c) (hx : s.ch[c]? = some x) : ∃ t, s.continuation c = .ok t ∧ t.Inv := by
  obtain ⟨l, hl⟩ := hs.sound.channels c x hx
  by_cases hopen : 1 ≤ x.q.size ∧ x.per.armed = false
  · obtain ⟨hsize, harmed⟩ := hopen
    have hne := (one_le_size_iff hl.holds).mp hsize
    cases hn : s.cfg.nextStart with
    | deferred =>
      refine ⟨_, continuation_eq_ok.mpr ⟨x, hx, .inl ⟨hsize, harmed, .inl ⟨hn, rfl⟩⟩⟩, ?_⟩
      exact hs.setCh hx hl.holds (hl.activated hne harmed hn) id fun _ => .inr (by simp [notIdle])
    | immediate =>
      obtain ⟨h, m, rfl⟩ := List.exists_cons_of_ne_nil hne
      have hidle : x.idle = notIdle := by
        by_contra hact
        obtain ⟨-, -, -, hdef⟩ := hl.idle hact
        rw [hn] at hdef
        cases hdef
      obtain ⟨t, ht, hinv⟩ := hs.startTransfer hx hl harmed hidle
      exact ⟨t, continuation_eq_ok.mpr ⟨x, hx, .inl ⟨hsize, harmed, .inr ⟨hn, ht⟩⟩⟩, hinv⟩
  · refine ⟨s, continuation_eq_ok.mpr ⟨x, hx, .inr ⟨hopen, rfl⟩⟩, hs.inv fun x' hx' _ hsize => .inl ?_⟩
    obtain rfl : x = x' := Option.some.inj (hx.symm.trans hx')
    by_contra harmed
    exact hopen ⟨hsize, by simpa using harmed⟩

/-! ### HRET (spec 44 R136) -/

theorem State.Inv.endHandler (hs : s.Inv) (hh : handlerOf s.hphase c = some h) : InvBut (s.setHphase .none) c := by
  obtain ⟨c7, hact, hc⟩ := handlerOf_eq_some hh
  refine ⟨hs.sound.setHphase fun c7 h hno => (by cases hno), fun j hj => (hs.notStranded j).frame rfl fun _ => ?_⟩
  rw [handlerOf_eq_none, hact]
  rintro _ _ ⟨⟩
  rw [hc]
  exact Ne.symm hj

theorem State.Inv.hret (hs : s.Inv) (hx : s.ch[c]? = some x) (hh : handlerOf s.hphase c = some h) :
    ∃ t, (s.setHphase .none).continuation c = .ok t ∧ t.Inv :=
  (hs.endHandler hh).continuation (s := s.setHphase .none) hx

/-! ### The tick (spec 44 R131, 60 R149, R152) -/

theorem State.Inv.setTickp (hs : s.Inv) (hx : s.ch[c]? = some x) (b : Bool) : (s.setCh c { x with tickp := b }).Inv := by
  obtain ⟨l, hl⟩ := hs.channelSound hx
  exact hs.setCh hx hl.holds (hl.setTickp b) id fun hnone hne => hs.notStranded c x hx hnone ((one_le_size_iff hl.holds).mpr hne)

/-- A tick counted on an active counter below the threshold. -/
theorem ChannelSound.counted (hl : ChannelSound s c x l) (hcfg : s.cfg.Valid) (hact : x.idle ≠ notIdle)
    (hle : x.idle.toNat + 1 ≤ s.cfg.debounceT) :
    ChannelSound s c { x with idle := x.idle + 1#8 } l ∧ x.idle + 1#8 ≠ notIdle := by
  obtain ⟨harmed, hne, -, hn⟩ := hl.idle hact
  have hT : s.cfg.debounceT ≤ 253 := hcfg.2.2.2.2.2.2.2.1
  have hcount : (x.idle + 1#8).toNat = x.idle.toNat + 1 := by
    rw [BitVec.toNat_add]
    exact Nat.mod_eq_of_lt (by simp; omega)
  refine ⟨⟨hl.holds, hl.cap, hl.nodup, hl.queued, hl.armed, hl.unarmed, fun _ => ⟨harmed, hne, ?_, hn⟩, hl.delivered,
    fun hinit => absurd (hl.created hne) (by simp [show x.init = false from hinit])⟩, fun hfull => ?_⟩
  · exact hcount ▸ hle
  · rw [hfull] at hcount
    simp [notIdle] at hcount
    omega

theorem State.Inv.idleTick (hs : s.Inv) (hx : s.ch[c]? = some x) : ∃ t, s.idleTick c = .ok t ∧ t.Inv := by
  obtain ⟨l, hl⟩ := hs.channelSound hx
  by_cases hact : x.idle = notIdle
  · exact ⟨s, idleTick_of_inactive hx hact, hs⟩
  by_cases hle : x.idle.toNat + 1 ≤ s.cfg.debounceT
  · obtain ⟨hcounted, hrunning⟩ := hl.counted hs.cfgValid hact hle
    exact ⟨_, idleTick_counts hx hact hle, hs.setCh hx hl.holds hcounted id fun _ _ => .inr hrunning⟩
  · obtain ⟨harmed, hne, -, -⟩ := hl.idle hact
    have hsize : x.q.size ≠ 0 := Nat.one_le_iff_ne_zero.mp ((one_le_size_iff hl.holds).mpr hne)
    obtain ⟨h, m, rfl⟩ := List.exists_cons_of_ne_nil hne
    obtain ⟨o, ho⟩ := hs.sound.startTransfer hx hl harmed
    refine ⟨_, idleTick_eq_ok.mpr ⟨x, hx, .inr (.inl ⟨hact, by omega, hsize, _, { x with per := Periph.started }, ho,
      ch_setCh_self hx _, setCh_emit_setCh _ _ o⟩)⟩, ?_⟩
    exact (hs.setCh hx hl.holds hl.started id fun _ _ => .inl rfl).emit o

theorem State.Inv.takeTickBody (hs : s.Inv) (hx : s.ch[c]? = some x) : ∃ t, s.takeTickBody c = .ok t ∧ t.Inv := by
  have htaken := hs.setTickp hx false
  cases hinit : x.init with
  | false => exact ⟨_, takeTickBody_eq_ok.mpr ⟨x, hx, .inr ⟨hinit, rfl⟩⟩, htaken⟩
  | true =>
    obtain ⟨t, ht, hinv⟩ := htaken.idleTick (ch_setCh_self hx _)
    exact ⟨t, takeTickBody_eq_ok.mpr ⟨x, hx, .inl ⟨hinit, ht⟩⟩, hinv⟩

end

/-! ### The completion take (spec 44 R127 to R129, 60 R151) -/

section
variable {s t : State} {c : Nat} {x y : Channel} {l : List Handle} {h : Handle} {z : Ticket}

/-- A ticket in its form whose inbound buffer holds values is classified, and the classification is terminal. -/
theorem classify_of_delivered {g : Config} (hz : z.WF g) (hin : z.inbound.all Option.isSome = true) (b : Bool) :
    ∃ st, classify z b = .ok st ∧ st ≠ .pending := by
  cases b with
  | true => exact ⟨.timedOut, classify_timedOut z, by decide⟩
  | false =>
    obtain ⟨-, hframe, hreply, -, -⟩ := hz
    obtain ⟨bs, hbs⟩ := all_isSome_iff.mp hin
    have hlen : bs.length = 8 := by
      rw [← List.length_map (f := some), ← hbs, Ticket.inbound]
      cases z.kind with
      | read => exact hreply
      | write => exact hframe
    refine ⟨_, classify_received hlen hbs, ?_⟩
    split <;> decide

/-- The record of a classified ticket is in its form. -/
theorem wf_setStatus {g : Config} (hz : z.WF g) (hin : z.inbound.all Option.isSome = true) (st : Status) :
    ({ z with status := st } : Ticket).WF g := by
  obtain ⟨hchan, hframe, hreply, hsend, -⟩ := hz
  exact ⟨hchan, hframe, hreply, hsend, fun _ => hin⟩

/-- While a transfer runs, the idle counter is inactive. -/
theorem ChannelSound.idle_of_armed (hl : ChannelSound s c x l) (harmed : x.per.armed = true) : x.idle = notIdle := by
  by_contra hact
  exact absurd (harmed.symm.trans (hl.idle hact).1) (by decide)

/-- The completed channel: its head gone, no transfer, its counter inactive. -/
theorem ChannelSound.finished (hl : ChannelSound s c x (h :: l)) (harmed : x.per.armed = true) (hcfg : t.cfg = s.cfg)
    (htkt : ∀ g, g ≠ h → t.ticket? g = s.ticket? g) : ChannelSound t c (finishedChannel x false) l := by
  obtain ⟨hnotin, hnodup⟩ := List.nodup_cons.mp hl.nodup
  have hrest (g : Handle) (hg : g ∈ l) : t.ticket? g = s.ticket? g := htkt g fun e => hnotin (e ▸ hg)
  exact {
    holds := completed_queue hl.holds
    cap := hcfg ▸ hl.cap
    nodup := hnodup
    queued := fun g hg => by rw [hrest g hg]; exact hl.queued g (List.mem_cons_of_mem h hg)
    armed := fun hno => by cases hno
    unarmed := fun _ => rfl
    idle := fun hact => absurd (hl.idle_of_armed harmed) hact
    delivered := fun hst => by simp [finishedChannel, resetPer] at hst
    inert := fun hinit => absurd (hl.created (List.cons_ne_nil h l)) (by simp [show x.init = false from hinit]) }

/-- Once the head is popped and its slot holds no Pending ticket, only invariant 6 of the channel may be open. -/
theorem State.Inv.completed {slot : Option Ticket} (hs : s.Inv) (hx : s.ch[c]? = some x) (hl : ChannelSound s c x (h :: l))
    (harmed : x.per.armed = true) (hslot : ∀ z', slot = some z' → z'.WF s.cfg ∧ z'.status ≠ .pending) :
    InvBut (completed s c x h slot) c := by
  obtain ⟨z, hz, hzc, -⟩ := hl.queued h (List.mem_cons_self ..)
  obtain ⟨h0, -⟩ := ticket?_eq_some.mp hz
  have hself : (Machine.completed s c x h slot).ticket? h = slot :=
    ticket?_setSlot_same h0 (handle_le_of_ticket hz)
  have hother (g : Handle) (hg : g ≠ h) : (Machine.completed s c x h slot).ticket? g = s.ticket? g :=
    ticket?_setSlot_other (o := slot) h0 hg
  have hch (j : Nat) (hj : j ≠ c) : (Machine.completed s c x h slot).ch[j]? = s.ch[j]? := List.getElem?_set_ne (Ne.symm hj)
  have hhandler : HandlerSound (Machine.completed s c x h slot) :=
    handlerSound_setCh hs.sound.handler hx (y := finishedChannel x false) id rfl rfl rfl
  refine ⟨hs.sound.write (c := c) (g := h) rfl rfl rfl hhandler
    (List.length_set ..) (List.length_set ..) hch hother ?_ ?_ fun x' hx' => ⟨l, ?_, fun g z' hz' hst hzc' => ?_⟩,
    fun j hj => (hs.notStranded j).frame (hch j hj) id⟩
  · intro z' hz' _
    obtain rfl : z = z' := Option.some.inj (hz.symm.trans hz')
    exact hzc
  · intro z' hz'
    obtain ⟨hwf, hst⟩ := hslot z' (hself.symm.trans hz')
    exact ⟨hwf, fun e => absurd e hst⟩
  · obtain rfl : finishedChannel x false = x' := Option.some.inj ((completed_ch hx).symm.trans hx')
    exact hl.finished harmed rfl hother
  · have hg : g ≠ h := by
      rintro rfl
      exact (hslot z' (hself.symm.trans hz')).2 hst
    have hmem := hs.sound.pending g z' x (h :: l) (hother g hg ▸ hz') hst (hzc' ▸ hx) hl.holds
    exact (List.mem_cons.mp hmem).resolve_left hg

/-- The entry of a host handler for the completed ticket closes invariant 6: the channel waits for its own handler. -/
theorem InvBut.enterHandler (hs : InvBut s c) (hx : s.ch[c]? = some x) (hinit : x.init = true) (hph : s.hphase = .none)
    (hpos : 1 ≤ h.toNat) (hle : h.toNat ≤ s.cfg.maxTickets) (o : Output) :
    ((s.emit o).setHphase (.active (BitVec.ofNat 7 c) h)).Inv := by
  obtain ⟨hc, -⟩ := List.getElem?_eq_some_iff.mp hx
  have hc7 : (BitVec.ofNat 7 c).toNat = c := by
    have hlt : c < 128 := by
      have hnum := hs.sound.sized.2.2
      have hmax := hs.sound.cfgValid.2.1
      omega
    simpa using Nat.mod_eq_of_lt hlt
  refine State.Sound.inv ((hs.sound.emit o).setHphase ?_) fun j => ?_
  · rintro _ _ ⟨⟩
    exact ⟨⟨x, hc7.symm ▸ hx, hinit⟩, hpos, hle⟩
  · by_cases hj : j = c
    · intro x' _ hnone
      exact absurd (hj ▸ hc7) (handlerOf_eq_none.mp hnone _ _ rfl)
    · exact (hs.others j hj).frame rfl fun _ => by rw [hph]; rfl

/-- Under the invariants a takeable completion is taken, whatever handler its ticket has. -/
theorem State.Inv.onCompletion (hs : s.Inv) (hx : s.ch[c]? = some x) (hpend : x.completionPending = true)
    (hph : s.hphase = .none) : ∃ t, s.onCompletion c = .ok t ∧ t.Inv := by
  obtain ⟨l, hl⟩ := hs.channelSound hx
  have hst : x.per.stRx = true ∨ x.per.stTo = true := by
    simp only [Channel.completionPending, Bool.or_eq_true, Bool.and_eq_true] at hpend
    exact hpend.imp And.left And.left
  have harmed : x.per.armed = true := by
    by_contra hno
    rw [hl.unarmed (by simpa using hno)] at hst
    simp [Periph.off] at hst
  obtain ⟨hne, -⟩ := hl.armed harmed
  obtain ⟨h, m, rfl⟩ := List.exists_cons_of_ne_nil hne
  obtain ⟨z, hz, -, -⟩ := hl.queued h (List.mem_cons_self ..)
  obtain ⟨z', hz', hin⟩ := hl.delivered hst h rfl
  obtain rfl : z = z' := Option.some.inj (hz.symm.trans hz')
  have hwf := hs.sound.tickets h z hz
  obtain ⟨st, hclass, hterminal⟩ := classify_of_delivered hwf hin x.per.stTo
  have hsize : x.q.size ≠ 0 := Nat.one_le_iff_ne_zero.mp ((one_le_size_iff hl.holds).mpr hne)
  have hrecorded := hs.completed (slot := some { z with status := st }) hx hl harmed
    (by rintro _ ⟨⟩; exact ⟨wf_setStatus hwf hin st, hterminal⟩)
  have hfreed := hs.completed (slot := none) hx hl harmed (fun _ hno => by cases hno)
  have htake {s3 t : State}
      (hinvoke : (Machine.completed s c x h (some { z with status := st })).invokeHandler c h st z.hid = s3)
      (hrest : (s3.hphase = .none ∧ s3.continuation c = .ok t) ∨ (s3.hphase ≠ .none ∧ s3 = t)) : s.onCompletion c = .ok t :=
    onCompletion_eq_ok.mpr ⟨x, h, z, st, s3, hx, harmed, hsize, hl.holds.head, hz, hclass, hinvoke, hrest⟩
  rcases invokeHandler_cases (Machine.completed s c x h (some { z with status := st })) c h st z.hid with
    ⟨-, e⟩ | ⟨-, e⟩ | ⟨-, -, e⟩
  · obtain ⟨t, ht, hinv⟩ := hrecorded.continuation (completed_ch hx)
    exact ⟨t, htake e (.inl ⟨hph, ht⟩), hinv⟩
  · rw [completed_release] at e
    obtain ⟨t, ht, hinv⟩ := hfreed.continuation (completed_ch hx)
    exact ⟨t, htake e (.inl ⟨hph, ht⟩), hinv⟩
  · have hpos := toNat_pos_of_ne_zero (ticket?_eq_some.mp hz).1
    have hle : h.toNat ≤ s.cfg.maxTickets := hs.sized.2.1 ▸ handle_le_of_ticket hz
    exact ⟨_, htake e (.inr ⟨HPhase.noConfusion, rfl⟩),
      hrecorded.enterHandler (completed_ch hx) (hl.created hne) hph hpos hle _⟩

/-! ### The end of a transfer (spec 60 R148) -/

/-- A delivery of 8 bytes to a ticket in its form is made, and leaves it in its form with its inbound buffer holding values. -/
theorem deliver_of_wf {g : Config} {d : List Byte} (hz : z.WF g) (hst : z.status = .pending) (hd : d.length = 8) :
    ∃ z', z.deliver d = .ok z' ∧ z'.WF g ∧ z'.inbound.all Option.isSome = true ∧
      z'.chan = z.chan ∧ z'.status = z.status ∧ z'.hid = z.hid := by
  obtain ⟨hchan, hframe, hreply, hsend, -⟩ := hz
  have hterminal : ¬(z.status = .completedOk ∨ z.status = .crcError) := by
    rw [hst]
    decide
  cases hk : z.kind with
  | read =>
    refine ⟨_, deliver_eq_ok.mpr (.inl ⟨hk, d.map some, memWrite_eq_ok.mpr ⟨by omega, ?_⟩, rfl⟩),
      ⟨hchan, hframe, by simpa using hd, ?_, fun h => absurd h hterminal⟩, ?_, rfl, rfl, rfl⟩
    · simp [hd, hreply]
    · simpa [Ticket.sendable, hk] using hsend
    · simp [Ticket.inbound, hk]
  | write =>
    refine ⟨_, deliver_eq_ok.mpr (.inr ⟨hk, d.map some, memWrite_eq_ok.mpr ⟨by omega, ?_⟩, rfl⟩),
      ⟨hchan, by simpa using hd, hreply, ?_, fun h => absurd h hterminal⟩, ?_, rfl, rfl, rfl⟩
    · simp [hd, hframe]
    · simp [Ticket.sendable, hk]
    · simp [Ticket.inbound, hk]

/-- A channel with the status sources of its peripheral set (spec 60 R148). -/
abbrev withSources (x : Channel) (rx timedOut : Bool) : Channel :=
  { x with per := { x.per with stRx := rx, stTo := timedOut } }

/-- The armed channel whose head's buffer has been filled, its status sources set. -/
theorem ChannelSound.delivering {z' : Ticket} (hl : ChannelSound s c x (h :: l)) (harmed : x.per.armed = true) (rx timedOut : Bool)
    (hcfg : t.cfg = s.cfg) (htkt : ∀ g, g ≠ h → t.ticket? g = s.ticket? g) (hz : t.ticket? h = some z')
    (hchan : z'.chan.toNat = c) (hst : z'.status = .pending) (hin : z'.inbound.all Option.isSome = true) :
    ChannelSound t c (withSources x rx timedOut) (h :: l) where
  holds := hl.holds
  cap := hcfg ▸ hl.cap
  nodup := hl.nodup
  queued := fun g hg => by
    by_cases hgh : g = h
    · exact ⟨z', hgh ▸ hz, hchan, hst⟩
    · rw [htkt g hgh]
      exact hl.queued g hg
  armed := hl.armed
  unarmed := fun hno => absurd (harmed.symm.trans hno) (by decide)
  idle := fun hact => absurd (hl.idle_of_armed harmed) hact
  delivered := by
    rintro - _ ⟨⟩
    exact ⟨z', hz, hin⟩
  inert := fun hinit => absurd (hl.created (List.cons_ne_nil h l)) (by simp [show x.init = false from hinit])

/-- The head's record is filled and the status sources of its armed channel set. -/
theorem State.Inv.fillHead {z' : Ticket} {rx timedOut : Bool} (hs : s.Inv) (hx : s.ch[c]? = some x)
    (hl : ChannelSound s c x (h :: l)) (harmed : x.per.armed = true) (h0 : h ≠ 0#16) (hle : h.toNat ≤ s.tkt.length)
    (hwf : z'.WF s.cfg) (hin : z'.inbound.all Option.isSome = true) (hchan : z'.chan.toNat = c) (hst : z'.status = .pending) :
    ((s.setTkt h z').setCh c (withSources x rx timedOut)).Inv := by
  have hself : ((s.setTkt h z').setCh c (withSources x rx timedOut)).ticket? h = some z' :=
    ticket?_setSlot_same h0 hle
  have hother (g : Handle) (hg : g ≠ h) :
      ((s.setTkt h z').setCh c (withSources x rx timedOut)).ticket? g = s.ticket? g :=
    ticket?_setSlot_other (o := some z') h0 hg
  have hsound := hl.delivering (t := (s.setTkt h z').setCh c (withSources x rx timedOut))
    harmed rx timedOut rfl hother hself hchan hst hin
  have hcself := ch_setCh_self (s := s.setTkt h z') hx (withSources x rx timedOut)
  refine State.Sound.inv (hs.sound.write (c := c) (g := h) rfl rfl rfl
    (handlerSound_setCh (y := withSources x rx timedOut) hs.sound.handler hx id rfl rfl rfl)
    (List.length_set ..) (List.length_set ..) (fun j hj => List.getElem?_set_ne (Ne.symm hj)) hother ?_ ?_ ?_) fun j => ?_
  · intro w hw _
    obtain ⟨z, hz, hzc, -⟩ := hl.queued h (List.mem_cons_self ..)
    exact Option.some.inj (hz.symm.trans hw) ▸ hzc
  · intro w hw
    obtain rfl : z' = w := Option.some.inj (hself.symm.trans hw)
    exact ⟨hwf, fun _ => hchan⟩
  · intro x' hx'
    obtain rfl := Option.some.inj (hcself.symm.trans hx')
    refine ⟨h :: l, hsound, fun g w hw hwst hwc => ?_⟩
    by_cases hgh : g = h
    · exact hgh ▸ List.mem_cons_self ..
    · exact hs.sound.pending g w x (h :: l) (hother g hgh ▸ hw) hwst (hwc ▸ hx) hl.holds
  · by_cases hj : j = c
    · subst hj
      intro x' hx' _ _
      obtain rfl := Option.some.inj (hcself.symm.trans hx')
      exact .inl harmed
    · exact (hs.notStranded j).frame (List.getElem?_set_ne (Ne.symm hj)) id

/-- Under the invariants a finish with status flags on an armed channel not yet finished is made (spec 60 R148). -/
theorem State.Inv.periphFinish {f : BitVec 2} {d : List Byte} (hs : s.Inv) (hc : c < s.cfg.numChannels) (hx : s.ch[c]? = some x)
    (hf : f ≠ 0#2) (harmed : x.per.armed = true) (hrx : x.per.stRx = false) (hto : x.per.stTo = false) (hd : d.length = 8) :
    ∃ t, s.periphFinish c f d = .ok t ∧ t.Inv := by
  obtain ⟨l, hl⟩ := hs.channelSound hx
  obtain ⟨h, m, rfl⟩ := List.exists_cons_of_ne_nil (hl.armed harmed).1
  obtain ⟨z, hz, hzc, hzst⟩ := hl.queued h (List.mem_cons_self ..)
  obtain ⟨z', hdel, hwf, hin, hchan, hst, -⟩ := deliver_of_wf (hs.sound.tickets h z hz) hzst hd
  exact ⟨_, periphFinish_eq_ok.mpr ⟨x, h, z, z', hc, hx, hf, harmed, hrx, hto, hl.holds.head, hz, hdel, rfl⟩,
    hs.fillHead hx hl harmed (ticket?_eq_some.mp hz).1 (handle_le_of_ticket hz) hwf hin (hchan ▸ hzc) (hst.trans hzst)⟩

/-! ### A new ticket (spec 43 R115, 44 R125, R134) -/

theorem newTicket_wf {g : Config} (hg : g.Valid) (hc : c < g.numChannels) (k : Kind) (dev : Byte) (reg : BitVec 7) (v : Word)
    (hid : BitVec 16) : (newTicket g.bitPacking c k dev reg v hid).WF g ∧ (newTicket g.bitPacking c k dev reg v hid).chan.toNat = c := by
  have hchan : (BitVec.ofNat 7 c).toNat = c := by
    have hmax := hg.2.1
    simpa using Nat.mod_eq_of_lt (show c < 128 by omega)
  refine ⟨⟨hchan.symm ▸ hc, ?_, rfl, ?_, fun hno => ?_⟩, hchan⟩
  · cases k <;> rfl
  · cases k <;> rfl
  · rcases hno with hno | hno <;> cases hno

/-- The free slot found is the slot of a handle of the table, which names no ticket. -/
theorem State.Sound.freeHandle {i : Nat} (hs : s.Sound) (hfree : freeSlot s.tkt = some i) :
    handleAt i ≠ 0#16 ∧ (handleAt i).toNat ≤ s.tkt.length ∧ s.ticket? (handleAt i) = none := by
  obtain ⟨hslot, -⟩ := freeSlot_eq_some.mp hfree
  obtain ⟨hlt, -⟩ := List.getElem?_eq_some_iff.mp hslot
  have hmax : s.tkt.length ≤ 65535 := hs.sized.2.1 ▸ hs.cfgValid.2.2.2.2.1
  have hi : i < 65535 := by omega
  refine ⟨handleAt_ne_zero hi, by rw [handleAt_toNat hi]; omega, ?_⟩
  rw [ticket?_handleAt hi, hslot]
  rfl

/-- A new Pending ticket in a free slot, queued on its channel: only invariant 6 of the channel may be open. -/
theorem State.Inv.queued_new {i : Nat} {q' : Queue 16} (hs : s.Inv) (hx : s.ch[c]? = some x) (hl : ChannelSound s c x l)
    (hinit : x.init = true) (hfree : freeSlot s.tkt = some i) (hwf : z.WF s.cfg) (hchan : z.chan.toNat = c) (hst : z.status = .pending)
    (hq : q'.Holds (l ++ [handleAt i])) (hcap : q'.cap ≤ s.cfg.memLimit) :
    InvBut ((s.setTkt (handleAt i) z).setCh c { x with q := q' }) c ∧
      ChannelSound ((s.setTkt (handleAt i) z).setCh c { x with q := q' }) c { x with q := q' } (l ++ [handleAt i]) := by
  obtain ⟨h0, hle, hnone⟩ := hs.sound.freeHandle hfree
  have hself : ((s.setTkt (handleAt i) z).setCh c { x with q := q' }).ticket? (handleAt i) = some z :=
    ticket?_setSlot_same h0 hle
  have hother (g : Handle) (hg : g ≠ handleAt i) :
      ((s.setTkt (handleAt i) z).setCh c { x with q := q' }).ticket? g = s.ticket? g :=
    ticket?_setSlot_other (o := some z) h0 hg
  have hnew (g : Handle) (hg : g ∈ l) : g ≠ handleAt i := by
    rintro rfl
    obtain ⟨w, hw, -⟩ := hl.queued _ hg
    rw [hnone] at hw
    cases hw
  have hsound : ChannelSound ((s.setTkt (handleAt i) z).setCh c { x with q := q' }) c { x with q := q' } (l ++ [handleAt i]) := {
    holds := hq
    cap := hcap
    nodup := List.nodup_append.mpr ⟨hl.nodup, List.nodup_singleton _, fun g hg g' hg' => List.mem_singleton.mp hg' ▸ hnew g hg⟩
    queued := fun g hg => by
      rcases List.mem_append.mp hg with hg | hg
      · rw [hother g (hnew g hg)]
        exact hl.queued g hg
      · exact ⟨z, List.mem_singleton.mp hg ▸ hself, hchan, hst⟩
    armed := fun harmed => ⟨by simp, (hl.armed harmed).2⟩
    unarmed := hl.unarmed
    idle := fun hact => by
      obtain ⟨harmed, -, hrest⟩ := hl.idle hact
      exact ⟨harmed, by simp, hrest⟩
    delivered := fun hfin g hg => by
      cases l with
      | nil =>
        have hoff := hl.unarmed (by by_contra harmed; exact (hl.armed (by simpa using harmed)).1 rfl)
        rw [show ({ x with q := q' } : Channel).per = Periph.off from hoff] at hfin
        simp [Periph.off] at hfin
      | cons a m =>
        obtain rfl : a = g := by simpa using hg
        rw [hother a (hnew a (List.mem_cons_self ..))]
        exact hl.delivered hfin a rfl
    inert := fun hno => absurd (hinit.symm.trans hno) (by decide) }
  have hcself := ch_setCh_self (s := s.setTkt (handleAt i) z) hx { x with q := q' }
  refine ⟨⟨hs.sound.write (c := c) (g := handleAt i) rfl rfl rfl
    (handlerSound_setCh (y := { x with q := q' }) hs.sound.handler hx id rfl rfl rfl) (List.length_set ..) (List.length_set ..)
    (fun j hj => List.getElem?_set_ne (Ne.symm hj)) hother ?_ ?_ ?_,
    fun j hj => (hs.notStranded j).frame (List.getElem?_set_ne (Ne.symm hj)) id⟩, hsound⟩
  · intro w hw
    rw [hnone] at hw
    cases hw
  · intro w hw
    obtain rfl : z = w := Option.some.inj (hself.symm.trans hw)
    exact ⟨hwf, fun _ => hchan⟩
  · intro x' hx'
    obtain rfl := Option.some.inj (hcself.symm.trans hx')
    refine ⟨_, hsound, fun g w hw hwst hwc => ?_⟩
    by_cases hg : g = handleAt i
    · exact hg ▸ List.mem_append_right _ (List.mem_singleton_self _)
    · exact List.mem_append_left _ (hs.sound.pending g w x l (hother g hg ▸ hw) hwst (hwc ▸ hx) hl.holds)

/-- The new ticket is enqueued: its transfer starts on an empty queue, else something is under way already. -/
theorem State.Inv.enqueue_new {i : Nat} (hs : s.Inv) (hx : s.ch[c]? = some x) (hinit : x.init = true)
    (hfree : freeSlot s.tkt = some i) (hwf : z.WF s.cfg) (hchan : z.chan.toNat = c) (hst : z.status = .pending) :
    (s.setTkt (handleAt i) z).enqueue c (handleAt i) = raise .allocationFailure ∨
      ∃ t, (s.setTkt (handleAt i) z).enqueue c (handleAt i) = .ok t ∧ t.Inv := by
  obtain ⟨l, hl⟩ := hs.channelSound hx
  have hx' : (s.setTkt (handleAt i) z).ch[c]? = some x := hx
  rcases hl.holds.place s.cfg (m := [handleAt i]) (by simp) with ⟨-, -, e⟩ | ⟨-, q', e, hq, -⟩
  · left
    rw [State.enqueue, getCh_eq_ok.mpr hx', ok_bind, State.setTkt_cfg, e, raise_bind]
  · right
    have hcap := (Queue.wf_iff.mp ((Queue.wf_iff.mpr ⟨hl.cap, l, hl.holds⟩ : x.q.WF s.cfg.memLimit).place e)).1
    obtain ⟨hbut, hnew⟩ := hs.queued_new hx hl hinit hfree hwf hchan hst hq hcap
    have hcself := ch_setCh_self hx' { x with q := q' }
    by_cases hsize : x.q.size = 0
    · have hnil : l = [] := List.length_eq_zero_iff.mp (hl.holds.length.trans hsize)
      subst hnil
      have harmed : x.per.armed = false := by
        by_contra harmed
        exact (hl.armed (by simpa using harmed)).1 rfl
      have hidle : x.idle = notIdle := by
        by_contra hact
        exact (hl.idle hact).2.1 rfl
      obtain ⟨t, ht, hinv⟩ := hbut.startTransfer hcself hnew harmed hidle
      exact ⟨t, enqueue_eq_ok.mpr ⟨x, _, hx', e, .inl ⟨hsize, ht⟩⟩, hinv⟩
    · refine ⟨_, enqueue_eq_ok.mpr ⟨x, _, hx', e, .inr ⟨hsize, rfl⟩⟩, hbut.inv fun x' hx'' hnone _ => ?_⟩
      obtain rfl := Option.some.inj (hcself.symm.trans hx'')
      exact hs.notStranded c x hx hnone (Nat.one_le_iff_ne_zero.mpr hsize)

end

/-! ## Every step keeps the invariants (spec 10 R35) -/

section
variable {s t : State} {i : Instr} {c : Nat} {x : Channel} {h : Handle} {z : Ticket}

theorem State.Inv.setFifo (hs : s.Inv) {k : Nat} {q : Queue 32} (hq : q.WF s.cfg.memLimit) : (s.setFifo k q).Inv :=
  (hs.sound.setFifo hq).inv fun j => (hs.notStranded j).frame rfl id

/-- A terminal ticket is queued nowhere; its slot may be freed. -/
theorem State.Inv.release (hs : s.Inv) (hz : s.ticket? h = some z) (hst : z.status ≠ .pending) : (s.release h).Inv := by
  obtain ⟨h0, -⟩ := ticket?_eq_some.mp hz
  have hself : (s.release h).ticket? h = none := ticket?_setSlot_same h0 (handle_le_of_ticket hz)
  refine State.Sound.inv (hs.sound.write (c := s.ch.length) (g := h) rfl rfl rfl (handlerSound_congr hs.sound.handler rfl rfl rfl)
    (List.length_set ..) rfl (fun _ _ => rfl) (fun g hg => ticket?_setSlot_other h0 hg) (fun w hw hwst => ?_) (fun w hw => ?_)
    fun x' hx' => ?_) fun j => (hs.notStranded j).frame rfl id
  · obtain rfl : z = w := Option.some.inj (hz.symm.trans hw)
    exact absurd hwst hst
  · rw [hself] at hw
    cases hw
  · rw [State.release_ch, List.getElem?_eq_none le_rfl] at hx'
    cases hx'

theorem newChannel_sound (hcfg : s.cfg.Valid) (c : Nat) : ChannelSound s c (newChannel s.cfg) [] where
  holds := Queue.fresh_holds _
  cap := (Queue.fresh_cap 16 _).symm ▸ hcfg.2.2.2.2.2.1
  nodup := List.nodup_nil
  queued := fun h hh => by cases hh
  armed := fun harmed => by cases harmed
  unarmed := fun _ => rfl
  idle := fun hact => absurd rfl hact
  delivered := fun _ h hh => by cases hh
  inert := fun hinit => by cases hinit

/-- A channel not created is as reset left it, and CHNEW may create it (spec 44 R133). -/
theorem State.Inv.create (hs : s.Inv) (hx : s.ch[c]? = some x) (hinit : x.init = false) :
    (s.setCh c (newChannel s.cfg)).Inv := by
  obtain ⟨l, hl⟩ := hs.channelSound hx
  have hempty : x.q.Holds [] := (hl.inert hinit).1 ▸ Queue.fresh_holds 0
  exact hs.setCh hx hempty (newChannel_sound hs.cfgValid c) (fun _ => rfl) fun _ hne => absurd rfl hne

theorem State.Inv.submit {k : Kind} {dev : Byte} {reg : BitVec 7} {v hw : Word} (hs : s.Inv)
    (h : s.submit c k dev reg v hw = .ok t) : t.Inv := by
  obtain ⟨x, hid, ⟨s1, g⟩, u, hc, hx, hinit, -, halloc, henq, rfl⟩ := submit_eq_ok.mp h
  obtain ⟨i, hfree, rfl, rfl⟩ := tktAlloc_eq_ok.mp halloc
  obtain ⟨hwf, hchan⟩ := newTicket_wf hs.cfgValid hc k dev reg v hid
  rcases hs.enqueue_new hx hinit hfree hwf hchan rfl with e | ⟨u', e, hinv⟩
  · exact absurd (e.symm.trans henq) (raise_ne_ok _ _)
  · exact Except.ok.inj (e.symm.trans henq) ▸ hinv.emit _

theorem length_unpackWords_pair (w1 w2 : Word) : (unpackWords [w1, w2]).length = 8 := rfl

/-- Every effect of an instruction keeps the invariants. -/
theorem Effect.inv (h : Effect s i t) (hs : s.Inv) : t.Inv := by
  cases h with
  | responds ws => exact hs.emit _
  | writesFifo ws _ _ hq hwf => exact (hs.setFifo (hwf (hs.sound.fifos _ (List.mem_of_getElem? hq)))).emit _
  | releases _ hz hst => exact (hs.release hz hst).emit _
  | creates _ hx hinit => exact (hs.create hx hinit).emit _
  | submits _ _ _ h => exact hs.submit h
  | returns hh hcont =>
    obtain ⟨x, hx, -⟩ := continuation_eq_ok.mp hcont
    obtain ⟨u, hu, hinv⟩ := hs.hret hx hh
    exact Except.ok.inj (hu.symm.trans hcont) ▸ hinv.emit _
  | finishes h =>
    obtain ⟨x, g, z, z', hc, hx, hf, harmed, hrx, hto, -⟩ := periphFinish_eq_ok.mp h
    obtain ⟨u, hu, hinv⟩ := hs.periphFinish hc hx hf harmed hrx hto (length_unpackWords_pair _ _)
    exact Except.ok.inj (hu.symm.trans h) ▸ hinv
  | ticks hx => exact hs.setTickp hx true

/-- Under the invariants a takeable completion is taken. -/
theorem State.Inv.takeComp (hs : s.Inv) (htake : s.compTakeable c = true) : ∃ t, s.onCompletion c = .ok t ∧ t.Inv := by
  obtain ⟨hph, x, hx, hpend⟩ := compTakeable_iff.mp htake
  exact hs.onCompletion hx hpend hph

/-- Under the invariants a takeable tick is taken. -/
theorem State.Inv.takeTick (hs : s.Inv) (htake : s.tickTakeable c = true) : ∃ t, s.takeTickBody c = .ok t ∧ t.Inv := by
  obtain ⟨-, x, hx, -⟩ := tickTakeable_iff.mp htake
  exact hs.takeTickBody hx

theorem State.Inv.step (hs : s.Inv) (h : step s = .next t) : t.Inv := by
  cases step_effect h with
  | waits cmd evt r => exact hs.withInputs cmd evt r
  | faults cmd evt r e u o => exact (hs.withInputs cmd evt r).latch e u o
  | command _ _ _ _ heff | event _ _ _ _ heff => exact heff.inv (hs.withInputs _ _ _)
  | completion _ _ htake hbody =>
    obtain ⟨u, hu, hinv⟩ := (hs.withInputs _ _ _).takeComp htake
    exact Except.ok.inj (hu.symm.trans hbody) ▸ hinv
  | tick _ _ htake hbody =>
    obtain ⟨u, hu, hinv⟩ := (hs.withInputs _ _ _).takeTick htake
    exact Except.ok.inj (hu.symm.trans hbody) ▸ hinv

/-! ### Reset and runs -/

theorem reset_channelSound (s : State) (c : Nat) : ChannelSound s c Channel.reset [] where
  holds := Queue.fresh_holds 0
  cap := Nat.zero_le _
  nodup := List.nodup_nil
  queued := fun h hh => by cases hh
  armed := fun harmed => by cases harmed
  unarmed := fun _ => rfl
  idle := fun hact => absurd rfl hact
  delivered := fun _ h hh => by cases hh
  inert := fun _ => ⟨rfl, rfl, rfl⟩

theorem resetOf_ch_eq {g : Config} (hx : (State.resetOf g).ch[c]? = some x) : x = Channel.reset :=
  List.eq_of_mem_replicate (List.mem_of_getElem? hx)

theorem resetOf_ticket? (g : Config) (h : Handle) : (State.resetOf g).ticket? h = none := by
  cases hz : (State.resetOf g).ticket? h with
  | none => rfl
  | some z =>
    obtain ⟨-, hslot⟩ := ticket?_eq_some.mp hz
    cases List.eq_of_mem_replicate (List.mem_of_getElem? hslot)

theorem resetOf_inv {g : Config} (hg : g.Valid) : (State.resetOf g).Inv := by
  refine State.Sound.inv ⟨hg, ?_, (resetOf_memory_wf hg).1, fun h z hz => ?_, fun h z x l hz => ?_, fun c x hx => ?_,
    fun c7 h hact => (by cases hact), Nat.zero_le _⟩ fun c x hx _ hsize => ?_
  · exact ⟨List.length_replicate .., List.length_replicate .., List.length_replicate ..⟩
  · rw [resetOf_ticket?] at hz
    cases hz
  · rw [resetOf_ticket?] at hz
    cases hz
  · obtain rfl := resetOf_ch_eq hx
    exact ⟨[], reset_channelSound _ c⟩
  · obtain rfl := resetOf_ch_eq hx
    cases hsize

/-- The invariants and the parameters along every run, whatever the environment does. -/
theorem Reachable.inv {g : Config} (hg : g.Valid) (h : Reachable g s) : s.Inv ∧ s.cfg = g := by
  induction h with
  | reset => exact ⟨resetOf_inv hg, rfl⟩
  | input s cmd evt r _ ih =>
    obtain ⟨hinv, hcfg⟩ := ih
    exact ⟨hinv.withInputs cmd evt r, hcfg⟩
  | step s t _ hstep ih =>
    obtain ⟨hinv, hcfg⟩ := ih
    exact ⟨hinv.step hstep, (stepKeepsConfigAndOutputs s t hstep).1.trans hcfg⟩

end

end Sys2Proof.Machine

open Sys2Proof Sys2Proof.Machine

/-- Settles O52, by the effect of the step. -/
theorem stepKeepsInvariants : Obligations.StepKeepsInvariants := fun _ _ hs h => hs.step h

/-- Settles O51: reset leaves every queue empty, every slot free and every channel inert. -/
theorem resetMeetsInvariants : Obligations.ResetMeetsInvariants := fun _ hg => resetOf_inv hg

/-- Settles O54, by induction on the run. -/
theorem reachableStatesMeetInvariants : Obligations.ReachableStatesMeetInvariants := fun _ _ hg h => h.inv hg
end

section
/-! SUPPORT. Under the invariants no step leaves a space and no unreachable fault is raised (spec 00 R11, 44 R138, 60 R144); how a
ticket and a channel's queue change (spec 43 R116, 44 R139). -/

namespace Sys2Proof.Machine

open Sys2Proof.Claims

/-! ## Procedures that end well -/

/-- The faults that spec 60 R144 calls unreachable. -/
abbrev Unreachable (e : FaultCode) : Prop := e = .doubleStart ∨ e = .invariantBroken

/-- The procedure answers something that meets `Q`, or raises a fault that is not one of the unreachable ones; it never leaves a
space. -/
def EndsIn {α : Type} (Q : α → Prop) : Op α → Prop
  | .ok a => Q a
  | .error (.raised e) => ¬Unreachable e
  | .error .outside => False

abbrev EndsWell {α : Type} (p : Op α) : Prop := EndsIn (fun _ => True) p

section
variable {α β : Type} {p : Op α} {f : α → Op β} {P : α → Prop} {Q : β → Prop}

theorem EndsIn.ok {a : α} (h : P a) : EndsIn P (.ok a) := h

theorem EndsWell.of_eq_ok {a : α} (h : p = .ok a) : EndsWell p := h ▸ trivial

theorem EndsIn.raise {e : FaultCode} (he : ¬Unreachable e) : EndsIn P (raise e) := he

theorem EndsIn.bind (hp : EndsWell p) (hf : ∀ a, p = .ok a → EndsIn Q (f a)) : EndsIn Q (p >>= f) := by
  cases p with
  | ok a => exact hf a rfl
  | error e =>
    cases e with
    | raised e => exact hp
    | outside => exact hp

theorem EndsIn.ite {c : Prop} [Decidable c] {q : Op α} (hp : c → EndsIn P p) (hq : ¬c → EndsIn P q) :
    EndsIn P (if c then p else q) := by
  split
  · exact hp ‹_›
  · exact hq ‹_›

theorem EndsWell.endsIn (hp : EndsWell p) (h : ∀ a, p = .ok a → P a) : EndsIn P p := by
  cases p with
  | ok a => exact h a rfl
  | error e =>
    cases e with
    | raised e => exact hp
    | outside => exact hp

end

/-! ## What every rule reads (spec 20 R36) -/

section
variable {s : State} {c : Nat} {u : BitVec 8} {h : Handle}

theorem State.TablesSized.ch_of_lt (hs : s.TablesSized) (hc : c < s.cfg.numChannels) : ∃ x, s.ch[c]? = some x :=
  ⟨_, List.getElem?_eq_getElem (hs.2.2.symm ▸ hc)⟩

theorem channelUnit_endsWell (hs : s.TablesSized) (c : Nat) : EndsWell (s.channelUnit c) := by
  by_cases hc : c < s.cfg.numChannels
  · obtain ⟨x, hx⟩ := hs.ch_of_lt hc
    exact .of_eq_ok (channelUnit_eq_ok.mpr ⟨hc, hx⟩)
  · rw [channelUnit_badUnit (Nat.not_lt.mp hc)]
    exact .raise (by decide)

theorem createdChannel_endsWell (hs : s.TablesSized) (c : Nat) : EndsWell (s.createdChannel c) :=
  (channelUnit_endsWell hs c).bind fun _ _ => .ite (fun _ => .raise (by decide)) fun _ => .ok trivial

theorem qsel_endsWell (hs : s.TablesSized) (u : BitVec 8) (m : Bool) : EndsWell (s.qsel u m) := by
  unfold State.qsel
  refine .ite (fun _ => .ite (fun _ => .raise (by decide)) fun hc => ?_) fun _ =>
    .ite (fun _ => .raise (by decide)) fun hk => ?_
  · obtain ⟨x, hx⟩ := hs.ch_of_lt (Nat.not_le.mp hc)
    exact EndsIn.bind (.of_eq_ok (getCh_eq_ok.mpr hx)) fun _ _ =>
      .ite (fun _ => .raise (by decide)) fun _ => .ite (fun _ => .raise (by decide)) fun _ => .ok trivial
  · have hlt : unitIndex u < s.fifo.length := hs.1.symm ▸ Nat.not_le.mp hk
    exact EndsIn.bind (.of_eq_ok (getFifo_eq_ok.mpr (List.getElem?_eq_getElem hlt))) fun _ _ => .ok trivial

theorem qselMut_endsWell (hs : s.TablesSized) (u : BitVec 8) : EndsWell (s.qselMut u) :=
  (qsel_endsWell hs u true).bind fun sel _ => by
    cases sel with
    | fifo k q => exact .ok trivial
    | chan k q => exact .raise (by decide)

/-- The FIFO that a mutating UNIT selects holds a list. -/
theorem State.Sound.qselMut_holds {sel : Nat × Queue 32} (hs : s.Sound) (h : s.qselMut u = .ok sel) : ∃ l, sel.2.Holds l := by
  obtain ⟨-, -, -, hq⟩ := qselMut_eq_ok.mp h
  exact (Queue.wf_iff.mp (hs.fifos _ (List.mem_of_getElem? hq))).2

theorem liveWords_endsWell {m : Bool} {sel : Selected} (hs : s.Sound) (h : s.qsel u m = .ok sel) : EndsWell sel.liveWords := by
  rcases qsel_eq_ok.mp h with ⟨-, -, -, x, hx, -, rfl⟩ | ⟨-, -, q, hq, rfl⟩
  · obtain ⟨l, hl⟩ := hs.channels _ x hx
    exact .of_eq_ok (liveWords_chan_of_holds hl.holds)
  · obtain ⟨-, l, hl⟩ := Queue.wf_iff.mp (hs.fifos q (List.mem_of_getElem? hq))
    exact .of_eq_ok hl.live

theorem element_endsWell (sel : Selected) (e : Word) : EndsWell (sel.element e) := by
  cases sel with
  | fifo k q => exact .ok trivial
  | chan c q => exact .ite (fun _ => .ok trivial) fun _ => .raise (by decide)

theorem ticketOf_endsWell (s : State) (h : Handle) : EndsWell (s.ticketOf h) := by
  cases hv : s.validHandle h with
  | false =>
    rw [ticketOf_badHandle hv]
    exact .raise (by decide)
  | true =>
    have hsome := hv
    simp only [State.validHandle, Bool.and_eq_true] at hsome
    obtain ⟨z, hz⟩ := Option.isSome_iff_exists.mp hsome.2
    exact .of_eq_ok (ticketOf_eq_ok.mpr ⟨hv, hz⟩)

theorem place_endsWell {w : Nat} {q : Queue w} {l : List (BitVec w)} (hq : q.Holds l) (g : Config) (m : List (BitVec w)) :
    EndsWell (q.place g m) := by
  by_cases hm : m.length = 0
  · rw [List.length_eq_zero_iff.mp hm, Queue.place_nil]
    exact .ok trivial
  · rcases hq.place g hm with ⟨-, -, e⟩ | ⟨-, q', e, -⟩
    · exact e ▸ .raise (by decide)
    · exact .of_eq_ok e

theorem normalize_endsWell {w : Nat} {q : Queue w} {l : List (BitVec w)} (hq : q.Holds l) (g : Config) :
    EndsWell (q.normalize g) := by
  rcases hq.normalize g with ⟨-, e⟩ | ⟨-, -, q', e, -⟩ | ⟨-, -, -, q', e, -⟩ | ⟨-, -, -, e⟩
  · exact .of_eq_ok e
  · exact .of_eq_ok e
  · exact .of_eq_ok e
  · exact e ▸ .raise (by decide)

theorem crc8Operands_endsWell (n : BitVec 16) (ws : List Word) : EndsWell (crc8Operands n ws) :=
  .ite (fun _ => .raise (by decide)) fun _ => .ite (fun _ => .raise (by decide)) fun _ => .ok trivial

theorem handlerId_endsWell (w : Word) : EndsWell (handlerId w) := .ite (fun _ => .ok trivial) fun _ => .raise (by decide)

theorem tktAlloc_endsWell (s : State) (c : Nat) (k : Kind) (dev : Byte) (reg : BitVec 7) (v : Word) (hid : BitVec 16) :
    EndsWell (s.tktAlloc c k dev reg v hid) := by
  unfold State.tktAlloc
  cases freeSlot s.tkt with
  | none => exact .raise (by decide)
  | some i => exact .ok trivial

/-! ## Every instruction under the invariants -/

theorem pushList_endsWell (hs : s.Inv) (u : BitVec 8) (es : List Word) : EndsIn (fun t => t.fault = s.fault) (s.pushList u es) :=
  (qselMut_endsWell hs.sized u).bind fun _ hsel => by
    obtain ⟨l, hl⟩ := hs.sound.qselMut_holds hsel
    exact (place_endsWell hl s.cfg es).bind fun _ _ => .ok rfl

theorem pullCount_endsWell (hs : s.Inv) (u : BitVec 8) (r : Bool) (n : Nat) : EndsWell (s.pullCount u r n) :=
  (qsel_endsWell hs.sized u r).bind fun _ hsel => .ite (fun _ => .ok trivial) fun _ =>
    (liveWords_endsWell hs.sound hsel).bind fun _ _ => .ok trivial

theorem pullUntil_endsWell (hs : s.Inv) (u : BitVec 8) (r : Bool) (e : Word) : EndsWell (s.pullUntil u r e) :=
  (qsel_endsWell hs.sized u r).bind fun sel hsel => (element_endsWell sel e).bind fun _ _ =>
    (liveWords_endsWell hs.sound hsel).bind fun _ _ => .ite (fun _ => .ok trivial) fun _ => .ok trivial

theorem submit_endsWell (hs : s.Inv) (c : Nat) (k : Kind) (dev : Byte) (reg : BitVec 7) (v hw : Word) :
    EndsWell (s.submit c k dev reg v hw) :=
  (createdChannel_endsWell hs.sized c).bind fun x hx => (handlerId_endsWell hw).bind fun hid _ =>
    (tktAlloc_endsWell s c k dev reg v hid).bind fun a halloc => by
      obtain ⟨hc, hx, hinit⟩ := createdChannel_eq_ok.mp hx
      obtain ⟨s1, g⟩ := a
      obtain ⟨i, hfree, rfl, rfl⟩ := tktAlloc_eq_ok.mp halloc
      obtain ⟨hwf, hchan⟩ := newTicket_wf hs.cfgValid hc k dev reg v hid
      refine EndsIn.bind ?_ fun _ _ => .ok trivial
      rcases hs.enqueue_new hx hinit hfree hwf hchan rfl with e | ⟨t, e, -⟩
      · exact (congrArg EndsWell e).mpr (.raise (by decide))
      · exact .of_eq_ok e

theorem periphFinish_endsWell (hs : s.Inv) (c : Nat) (f : BitVec 2) {d : List Byte} (hd : d.length = 8) :
    EndsWell (s.periphFinish c f d) := by
  by_cases hok : ∃ x, (c < s.cfg.numChannels ∧ s.ch[c]? = some x) ∧ f ≠ 0#2 ∧ x.per.armed = true ∧ x.per.stRx = false ∧
      x.per.stTo = false
  · obtain ⟨x, ⟨hc, hx⟩, hf, harmed, hrx, hto⟩ := hok
    obtain ⟨t, ht, -⟩ := hs.periphFinish hc hx hf harmed hrx hto hd
    exact .of_eq_ok ht
  · refine (channelUnit_endsWell hs.sized c).bind fun x hx => .ite (fun _ => .raise (by decide)) fun hf =>
      .ite (fun _ => .raise (by decide)) fun hbusy => absurd ⟨x, channelUnit_eq_ok.mp hx, hf, ?_⟩ hok
    simpa [not_or] using hbusy

/-- A finished read's reply holds its 8 bytes. -/
theorem valueReply_endsWell {z : Ticket} {g : Config} (hz : z.WF g) (hr : z.valueReadable = true) :
    EndsWell (memRead z.reply 0 8) := by
  obtain ⟨-, -, hreply, -, hin⟩ := hz
  obtain ⟨hk, hst⟩ := valueReadable_iff.mp hr
  obtain ⟨bs, hbs⟩ := all_isSome_iff.mp (hin hst)
  simp only [Ticket.inbound, hk] at hbs
  exact .of_eq_ok (memRead_eq_ok.mpr ⟨by omega, by rw [List.drop_zero, ← hreply, List.take_length, hbs]⟩)

theorem headOr0_endsWell (hs : s.Sound) {x : Channel} (hx : s.ch[c]? = some x) : EndsWell x.q.headOr0 := by
  obtain ⟨l, hl⟩ := hs.channels c x hx
  exact .of_eq_ok (headOr0_of_holds hl.holds)

theorem hret_endsWell (hs : s.Inv) {x : Channel} (hx : s.ch[c]? = some x) :
    EndsIn (fun t => t.fault = s.fault) (match handlerOf s.hphase c with
      | none => raise .handlerProtocol
      | some _ => do
        let s' ← (s.setHphase .none).continuation c
        .ok (s'.respondOk [])) := by
  cases hh : handlerOf s.hphase c with
  | none => exact .raise (by decide)
  | some g =>
    obtain ⟨t, ht, -⟩ := hs.hret hx hh
    exact EndsIn.bind (.of_eq_ok ht) fun u hu => .ok (continuation_retimed hu).fault

/-- Under the invariants the rule of every instruction ends well. -/
theorem exec_endsWell (hs : s.Inv) (i : Instr) : ∃ body, exec i s = runStep i.opcode.code i.unitField s body ∧
    EndsIn (fun t => t.fault = s.fault) body := by
  cases i
  case fpush u e => exact ⟨_, rfl, pushList_endsWell hs u [e]⟩
  case fpushn u es => exact ⟨_, rfl, pushList_endsWell hs u es⟩
  case fpop u n => exact ⟨_, rfl, (qselMut_endsWell hs.sized u).bind fun _ _ => .ite (fun _ => .ok rfl) fun _ => .ok rfl⟩
  case fpopu u e =>
    refine ⟨_, rfl, (qselMut_endsWell hs.sized u).bind fun sel hsel => ?_⟩
    obtain ⟨l, hl⟩ := hs.sound.qselMut_holds hsel
    exact EndsIn.bind (.of_eq_ok hl.live) fun _ _ => .ite (fun _ => .ok rfl) fun _ => .ok rfl
  case fpull u r n => exact ⟨_, rfl, (pullCount_endsWell hs u r n.toNat).endsIn fun _ h =>
      (pullCount_effect (i := .fpull u r n) rfl rfl rfl h).onlyAppends.2.1⟩
  case fpullu u r e => exact ⟨_, rfl, (pullUntil_endsWell hs u r e).endsIn fun _ h =>
      (pullUntil_effect (i := .fpullu u r e) rfl rfl rfl h).onlyAppends.2.1⟩
  case ffind u e =>
    exact ⟨_, rfl, (qsel_endsWell hs.sized u false).bind fun sel hsel => (element_endsWell sel e).bind fun _ _ =>
      (liveWords_endsWell hs.sound hsel).bind fun _ _ => .ok rfl⟩
  case fnorm u =>
    refine ⟨_, rfl, (qselMut_endsWell hs.sized u).bind fun sel hsel => ?_⟩
    obtain ⟨l, hl⟩ := hs.sound.qselMut_holds hsel
    exact (normalize_endsWell hl s.cfg).bind fun _ _ => .ok rfl
  case fsize u | fcap u | fempty u => exact ⟨_, rfl, (qsel_endsWell hs.sized u false).bind fun _ _ => .ok rfl⟩
  case crc8 n ws => exact ⟨_, rfl, (crc8Operands_endsWell n ws).bind fun _ _ => .ok rfl⟩
  case mkrd | mkwr | parse => exact ⟨.ok (s.respondOk _), rfl, .ok rfl⟩
  case tstat h => exact ⟨_, rfl, (ticketOf_endsWell s h).bind fun _ _ => .ok rfl⟩
  case tval h =>
    refine ⟨_, rfl, (ticketOf_endsWell s h).bind fun z hz => .ite (fun _ => .raise (by decide)) fun hr => ?_⟩
    have hwf := hs.sound.tickets h z (ticketOf_eq_ok.mp hz).2
    exact (valueReply_endsWell hwf (by simpa using hr)).bind fun _ _ => .ok rfl
  case trel h =>
    exact ⟨_, rfl, (ticketOf_endsWell s h).bind fun _ _ => .ite (fun _ => .raise (by decide)) fun _ => .ok rfl⟩
  case chnew c =>
    exact ⟨_, rfl, (channelUnit_endsWell hs.sized c.toNat).bind fun _ _ => .ite (fun _ => .raise (by decide)) fun _ => .ok rfl⟩
  case chrd c dev reg w1 =>
    exact ⟨_, rfl, (submit_endsWell hs c.toNat .read dev reg 0#32 w1).endsIn fun _ h => (submit_onlyAppends h).2.1⟩
  case chwr c dev reg v w2 =>
    exact ⟨_, rfl, (submit_endsWell hs c.toNat .write dev reg v w2).endsIn fun _ h => (submit_onlyAppends h).2.1⟩
  case hret c =>
    exact ⟨_, rfl, (channelUnit_endsWell hs.sized c.toNat).bind fun x hx => hret_endsWell hs (channelUnit_eq_ok.mp hx).2⟩
  case chstat c =>
    exact ⟨_, rfl, (channelUnit_endsWell hs.sized c.toNat).bind fun x hx =>
      (headOr0_endsWell hs.sound (channelUnit_eq_ok.mp hx).2).bind fun _ _ => .ok rfl⟩
  case evcomp c f w1 w2 =>
    exact ⟨_, rfl, (periphFinish_endsWell hs c.toNat f (length_unpackWords_pair w1 w2)).endsIn fun _ h =>
      (periphFinish_onlyAppends h).2.1⟩
  case evtick c => exact ⟨_, rfl, (channelUnit_endsWell hs.sized c.toNat).bind fun _ _ => .ok rfl⟩

end

/-! ## Every step under the invariants -/

section
variable {s t : State} {c : Nat}

/-- The outcome is a next state, whose fault register is `f` or holds the code of a fault that is not one of the unreachable
ones. -/
abbrev AnswersWell (f : FaultReg) (r : Result) : Prop :=
  ∃ t, r = .next t ∧ (t.fault = f ∨ ∃ e : FaultCode, ¬Unreachable e ∧ t.fault.code = e.byte)

theorem exec_answersWell (hs : s.Inv) (hrun : Running s) (i : Instr) : AnswersWell s.fault (exec i s) := by
  obtain ⟨body, hexec, hbody⟩ := exec_endsWell hs i
  have hf := faulted_of_running hrun
  cases body with
  | ok t => exact ⟨t, hexec.trans (runStep_ok hf), .inl hbody⟩
  | error e =>
    cases e with
    | raised e => exact ⟨_, hexec.trans (runStep_raise hf), .inr ⟨e, hbody, rfl⟩⟩
    | outside => exact hbody.elim

theorem runDecoded_answersWell {d : Decoded} {consumed : List Word → State} (hrun : Running s)
    (hcons : ∀ ws, (consumed ws).Inv ∧ (consumed ws).fault = s.fault) : AnswersWell s.fault (runDecoded d s consumed) := by
  cases d with
  | short => exact ⟨s, rfl, .inl rfl⟩
  | reject why hdr => exact ⟨_, illegalWord_of_running hrun hdr, .inr ⟨.illegalCommand, by decide, rfl⟩⟩
  | instr i ws =>
    obtain ⟨hinv, hfault⟩ := hcons ws
    have hrun' : Running (consumed ws) := (congrArg FaultReg.code hfault).trans hrun
    exact hfault ▸ exec_answersWell hinv hrun' i

/-- Under the invariants the completion take of a running block raises no fault (spec 44 R138). -/
theorem takeCompletion_answers (hs : s.Inv) (hrun : Running s) (c : Nat) :
    ∃ t, takeCompletion c s = .next t ∧ t.fault = s.fault := by
  cases htake : s.compTakeable c with
  | false => exact ⟨s, if_neg (by simp [htake]), rfl⟩
  | true =>
    obtain ⟨t, ht, -⟩ := hs.takeComp htake
    refine ⟨t, ?_, (onCompletion_onlyAppends ht).2.1⟩
    rw [takeCompletion, if_pos htake, ht]
    exact runStep_ok (faulted_of_running hrun)

/-- Under the invariants the tick take of a running block raises no fault (spec 44 R138). -/
theorem takeTick_answers (hs : s.Inv) (hrun : Running s) (c : Nat) :
    ∃ t, takeTick c s = .next t ∧ t.fault = s.fault := by
  cases htake : s.tickTakeable c with
  | false => exact ⟨s, if_neg (by simp [htake]), rfl⟩
  | true =>
    obtain ⟨t, ht, -⟩ := hs.takeTick htake
    refine ⟨t, ?_, (takeTickBody_retimed ht).fault⟩
    rw [Machine.takeTick, if_pos htake, ht]
    exact runStep_ok (faulted_of_running hrun)

theorem agentMove_answersWell (hs : s.Inv) (hrun : Running s) (m : Move) : AnswersWell s.fault (agentMove m s) := by
  cases m with
  | host => exact runDecoded_answersWell hrun fun ws => ⟨hs.withInputs ws s.evt s.sched, rfl⟩
  | event => exact runDecoded_answersWell hrun fun ws => ⟨hs.withInputs s.cmd ws s.sched, rfl⟩
  | takeComp c =>
    obtain ⟨t, ht, hfault⟩ := takeCompletion_answers hs hrun c
    exact ⟨t, ht, .inl hfault⟩
  | takeTick c =>
    obtain ⟨t, ht, hfault⟩ := takeTick_answers hs hrun c
    exact ⟨t, ht, .inl hfault⟩

theorem step_answersWell (hs : s.Inv) : AnswersWell s.fault (step s) := by
  by_cases hrun : Running s
  · cases hsched : s.sched with
    | nil => exact ⟨s, step_eq_next.mpr (.inr ⟨faulted_of_running hrun, .inl ⟨hsched, rfl⟩⟩), .inl rfl⟩
    | cons m r =>
      rw [step_eq_agentMove hrun hsched]
      exact agentMove_answersWell (hs.withInputs s.cmd s.evt r) hrun m
  · exact ⟨s, step_of_faulted (faulted_iff.mpr hrun), .inl rfl⟩

/-- Only the unreachable faults have their codes. -/
theorem byte_of_reachable {e : FaultCode} (he : ¬Unreachable e) : e.byte ≠ 0x07#8 ∧ e.byte ≠ 0x0A#8 := by
  revert he
  cases e <;> decide

end

/-! ## How a ticket changes (spec 43 R116) -/

section
variable {s t : State} {i : Instr} {c : Nat} {x : Channel} {h g : Handle} {z w : Ticket}

theorem ticketAt_iff (hs : s.TablesSized) : TicketAt s h z ↔ s.ticket? h = some z := by
  constructor
  · exact ticket?_of_ticketAt
  · intro hz
    obtain ⟨h0, hslot⟩ := ticket?_eq_some.mp hz
    exact ⟨h0, hs.2.1 ▸ handle_le_of_ticket hz, hslot⟩

/-- From `s` to `t` the ticket `z` of handle `h` is freed or kept where it is terminal, and stays Pending, with its channel and its
handler, where it is Pending. -/
abbrev TicketKept (t : State) (h : Handle) (z : Ticket) : Prop :=
  (z.status ≠ .pending → t.tkt[h.toNat - 1]? = some none ∨ t.tkt[h.toNat - 1]? = some (some z)) ∧
  (z.status = .pending →
    ∃ y, t.tkt[h.toNat - 1]? = some (some y) ∧ y.status = .pending ∧ y.chan = z.chan ∧ y.hid = z.hid)

theorem ticketKept_of_slot (hslot : t.tkt[h.toNat - 1]? = some (some z)) : TicketKept t h z :=
  ⟨fun _ => .inr hslot, fun hst => ⟨z, hslot, hst, rfl, rfl⟩⟩

theorem slot_ne_of_ne (h0 : h ≠ 0#16) (g0 : g ≠ 0#16) (hg : g ≠ h) : g.toNat - 1 ≠ h.toNat - 1 := by
  bv_omega

/-- A write to the slot of another handle keeps the ticket. -/
theorem ticketKept_of_setSlot {o : Option Ticket} (hz : s.ticket? h = some z) (g0 : g ≠ 0#16) (hg : g ≠ h)
    (htkt : t.tkt = s.tkt.set (g.toNat - 1) o) : TicketKept t h z := by
  obtain ⟨h0, hslot⟩ := ticket?_eq_some.mp hz
  exact ticketKept_of_slot (by rw [htkt, List.getElem?_set_ne (slot_ne_of_ne h0 g0 hg), hslot])

/-- What the slot of the handle holds once it is written. -/
theorem slot_of_setSlot {o : Option Ticket} (hz : s.ticket? h = some z) (htkt : t.tkt = s.tkt.set (h.toNat - 1) o) :
    t.tkt[h.toNat - 1]? = some o := by
  obtain ⟨-, hslot⟩ := ticket?_eq_some.mp hz
  obtain ⟨hlt, -⟩ := List.getElem?_eq_some_iff.mp hslot
  rw [htkt, List.getElem?_set_self hlt]

/-- The head of a channel's queue is a Pending ticket of the channel. -/
theorem State.Inv.head_pending (hs : s.Inv) (hx : s.ch[c]? = some x) (hh : x.q.head = .ok h) (hz : s.ticket? h = some z) :
    z.chan.toNat = c ∧ z.status = .pending := by
  obtain ⟨l, hl⟩ := hs.channelSound hx
  obtain ⟨m, hm⟩ := Queue.head_eq_ok.mp hh
  obtain rfl : l = h :: m := Except.ok.inj (hl.holds.live.symm.trans hm)
  obtain ⟨z', hz', hc, hst⟩ := hl.queued h (List.mem_cons_self ..)
  obtain rfl : z = z' := Option.some.inj (hz.symm.trans hz')
  exact ⟨hc, hst⟩

theorem Effect.ticketKept (heff : Effect s i t) (hs : s.Inv) (hz : s.ticket? h = some z) : TicketKept t h z := by
  obtain ⟨h0, hslot⟩ := ticket?_eq_some.mp hz
  cases heff with
  | responds | writesFifo | creates | ticks => exact ticketKept_of_slot hslot
  | @releases g w _ hw hst =>
    by_cases hg : g = h
    · subst hg
      obtain rfl : z = w := Option.some.inj (hz.symm.trans hw)
      exact ⟨fun _ => .inl (slot_of_setSlot (o := none) hz rfl), fun hp => absurd hp hst⟩
    · exact ticketKept_of_setSlot (o := none) hz (ticket?_eq_some.mp hw).1 hg rfl
  | submits _ _ _ h =>
    obtain ⟨x, hid, j, r, u, -, -, -, hfree, -, hre, rfl⟩ := submit_form h
    obtain ⟨g0, -, hnone⟩ := hs.sound.freeHandle hfree
    refine ticketKept_of_setSlot (g := handleAt j) hz g0 ?_ hre.tkt
    rintro rfl
    rw [hnone] at hz
    cases hz
  | returns _ hcont => exact ticketKept_of_slot ((congrArg (·[h.toNat - 1]?) (continuation_retimed hcont).tkt).trans hslot)
  | finishes hfin =>
    obtain ⟨x, g, w, w', -, hx, -, -, -, -, hhead, hw, hdel, rfl⟩ := periphFinish_eq_ok.mp hfin
    by_cases hg : g = h
    · subst hg
      obtain rfl : z = w := Option.some.inj (hz.symm.trans hw)
      have hst := (hs.head_pending hx hhead hz).2
      refine ⟨fun hno => absurd hst hno, fun _ => ⟨w', slot_of_setSlot (o := some w') hz rfl, ?_⟩⟩
      rcases deliver_eq_ok.mp hdel with ⟨-, b, -, rfl⟩ | ⟨-, b, -, rfl⟩ <;> exact ⟨hst, rfl, rfl⟩
    · exact ticketKept_of_setSlot (o := some w') hz (ticket?_eq_some.mp hw).1 hg rfl

/-- The completion take writes no slot but the one of the head. -/
theorem onCompletion_tkt (hok : s.onCompletion c = .ok t) :
    ∃ x hd w o, s.ch[c]? = some x ∧ x.q.head = .ok hd ∧ s.ticket? hd = some w ∧ t.tkt = s.tkt.set (hd.toNat - 1) o := by
  obtain ⟨x, hd, w, st, hx, hhead, hw, hre⟩ := onCompletion_form hok
  rcases invokeHandler_cases (completed s c x hd (some { w with status := st })) c hd st w.hid with ⟨-, e⟩ | ⟨-, e⟩ | ⟨-, -, e⟩
  · exact ⟨x, hd, w, some { w with status := st }, hx, hhead, hw, hre.tkt.trans (congrArg State.tkt e)⟩
  · exact ⟨x, hd, w, none, hx, hhead, hw, hre.tkt.trans (congrArg State.tkt (e.trans completed_release))⟩
  · exact ⟨x, hd, w, some { w with status := st }, hx, hhead, hw, hre.tkt.trans (congrArg State.tkt e)⟩

end

/-! ## How a channel's queue changes (spec 44 R139) -/

section
variable {s t : State} {i : Instr} {c : Nat} {x y : Channel} {l m : List Handle}

/-- Every channel keeps its queue where the channels are as they were. -/
theorem queue_eq_of_ch (hch : t.ch = s.ch) (hx : s.ch[c]? = some x) (hy : t.ch[c]? = some y) (hl : x.q.Holds l)
    (hm : y.q.Holds m) : m = l := by
  rw [hch, hx] at hy
  obtain rfl : x = y := Option.some.inj hy
  exact hm.unique hl

/-- One channel is written and, from there on, every channel keeps its queue. -/
theorem Retimed.queue_setCh {s1 u : State} {j : Nat} {w v : Channel} (hre : Retimed s1 u j) (hch : s1.ch = s.ch.set j v)
    (hw : s.ch[j]? = some w) (hx : s.ch[c]? = some x) (hy : u.ch[c]? = some y) :
    (c ≠ j ∧ y.q = x.q) ∨ (c = j ∧ x = w ∧ y.q = v.q) := by
  obtain ⟨hj, -⟩ := List.getElem?_eq_some_iff.mp hw
  by_cases hc : c = j
  · subst hc
    have hv : s1.ch[c]? = some v := by rw [hch, List.getElem?_set_self hj]
    exact .inr ⟨rfl, Option.some.inj (hx.symm.trans hw), hre.queue hv hy⟩
  · have hx1 : s1.ch[c]? = some x := by rw [hch, List.getElem?_set_ne (Ne.symm hc), hx]
    exact .inl ⟨hc, hre.queue hx1 hy⟩

/-- An instruction leaves a channel's queue, or a command appends a handle to it. -/
theorem Effect.queue (heff : Effect s i t) (hs : s.Inv) (hx : s.ch[c]? = some x) (hy : t.ch[c]? = some y)
    (hl : x.q.Holds l) (hm : y.q.Holds m) : m = l ∨ (i.isEvent = false ∧ ∃ h, m = l ++ [h]) := by
  cases heff with
  | responds | writesFifo | releases => exact .inl (queue_eq_of_ch rfl hx hy hl hm)
  | @creates j w _ hw hinit =>
    rcases (Retimed.refl (ch_setCh_self hw (newChannel s.cfg))).queue_setCh (s := s) rfl hw hx hy with ⟨-, e⟩ | ⟨-, rfl, e⟩
    · exact .inl ((e ▸ hm).unique hl)
    · obtain ⟨l', hl'⟩ := hs.channelSound hx
      have hold := (hl'.inert hinit).1
      rw [hold] at hl
      rw [e] at hm
      exact .inl ((hm.unique (Queue.fresh_holds _)).trans (hl.unique (Queue.fresh_holds _)).symm)
  | submits hev _ _ h =>
    obtain ⟨w, hid, j, ⟨q', b⟩, u, -, hw, -, -, hplace, hre, rfl⟩ := submit_form h
    rcases hre.queue_setCh (s := s) rfl hw hx hy with ⟨-, e⟩ | ⟨-, rfl, e⟩
    · exact .inl ((e ▸ hm).unique hl)
    · rcases hl.place s.cfg (m := [handleAt j]) (by simp) with ⟨-, -, e'⟩ | ⟨-, p, e', hp, -⟩
      · exact absurd (e'.symm.trans hplace) (raise_ne_ok _ _)
      · obtain ⟨rfl, -⟩ := Prod.mk.inj (Except.ok.inj (e'.symm.trans hplace))
        rw [e] at hm
        exact .inr ⟨hev, handleAt j, hm.unique hp⟩
  | returns _ hcont => exact .inl (((continuation_retimed hcont).queue hx hy ▸ hm).unique hl)
  | @finishes _ f _ _ _ hfin =>
    obtain ⟨w, g, z, z', -, hw, -, -, -, -, -, -, -, rfl⟩ := periphFinish_eq_ok.mp hfin
    have hretimed := retimed_setCh (s := s.setTkt g z') (y := withSources w (flagRx f) (flagTo f)) hw rfl rfl
    exact .inl ((hretimed.queue hx hy ▸ hm).unique hl)
  | @ticks _ w hw => exact .inl (((retimed_setCh (y := { w with tickp := true }) hw rfl rfl).queue hx hy ▸ hm).unique hl)

/-- The completion take pops the head of its own channel's queue and leaves every other queue. -/
theorem onCompletion_queue {j : Nat} (hok : s.onCompletion j = .ok t) (hx : s.ch[c]? = some x) (hy : t.ch[c]? = some y)
    (hl : x.q.Holds l) (hm : y.q.Holds m) : m = l ∨ (c = j ∧ ∃ h, l = h :: m) := by
  obtain ⟨w, hd, z, st, hw, hhead, -, hre⟩ := onCompletion_form hok
  rcases hre.queue_setCh (s := s) (invokeHandler_ch _ _ _ _ _) hw hx hy with ⟨-, e⟩ | ⟨hc, rfl, e⟩
  · exact .inl ((e ▸ hm).unique hl)
  · obtain ⟨l', hlive⟩ := Queue.head_eq_ok.mp hhead
    obtain rfl : l = hd :: l' := Except.ok.inj (hl.live.symm.trans hlive)
    rw [e] at hm
    exact .inr ⟨hc, hd, by rw [hm.unique (completed_queue hl)]⟩

end

end Sys2Proof.Machine

open Sys2Proof Sys2Proof.Machine

/-- Settles O53: under the invariants every agent's move answers. -/
theorem stepNeverStops : Obligations.StepNeverStops := by
  intro s hs
  obtain ⟨t, ht, -⟩ := step_answersWell hs
  exact ⟨t, ht⟩

/-- Settles O55, by the codes that the step of a running block can leave, and by what a take answers. -/
theorem unreachableFaultsAreNotRaised : Obligations.UnreachableFaultsAreNotRaised := by
  intro s t hs hrun h
  obtain ⟨u, hu, hfault⟩ := step_answersWell hs
  obtain rfl : u = t := Host.Outcome.next.inj (hu.symm.trans h)
  have hcodes : u.fault.code ≠ 0x07#8 ∧ u.fault.code ≠ 0x0A#8 := by
    rcases hfault with hsame | ⟨e, he, hcode⟩
    · rw [hsame, hrun]
      decide
    · rw [hcode]
      exact byte_of_reachable he
  refine ⟨hcodes.1, hcodes.2, fun c r hsched => ?_⟩
  have hinv := hs.withInputs s.cmd s.evt r
  have htaken : ∃ v, step s = .next v ∧ v.fault = s.fault := by
    rcases hsched with hsched | hsched <;> rw [step_eq_agentMove hrun hsched]
    · exact takeCompletion_answers hinv hrun c
    · exact takeTick_answers hinv hrun c
  obtain ⟨v, hv, hsame⟩ := htaken
  obtain rfl : v = u := Host.Outcome.next.inj (hv.symm.trans h)
  exact (congrArg FaultReg.code hsame).trans hrun

/-- Settles O56: only the completion take writes the slot of a Pending ticket, and then the head's. -/
theorem ticketStatusChangesOnce : Obligations.TicketStatusChangesOnce := by
  intro s t h z hs hstep hat
  have hz := ticket?_of_ticketAt hat
  obtain ⟨-, -, hslot⟩ := hat
  have hkept (hk : TicketKept t h z) :
      (z.status ≠ .pending → t.tkt[h.toNat - 1]? = some none ∨ t.tkt[h.toNat - 1]? = some (some z)) ∧
      (z.status = .pending →
        (∃ y, t.tkt[h.toNat - 1]? = some (some y) ∧ y.status = .pending ∧ y.chan = z.chan ∧ y.hid = z.hid) ∨
          ∃ r, s.sched = .takeComp z.chan.toNat :: r) := ⟨hk.1, fun hp => .inl (hk.2 hp)⟩
  cases step_effect hstep with
  | waits | faults => exact hkept (ticketKept_of_slot hslot)
  | command _ _ _ _ heff | event _ _ _ _ heff => exact hkept (heff.ticketKept (hs.withInputs _ _ _) hz)
  | tick _ _ _ hbody =>
    exact hkept (ticketKept_of_slot ((congrArg (·[h.toNat - 1]?) (takeTickBody_retimed hbody).tkt).trans hslot))
  | @completion c r _ _ hsched _ hbody =>
    obtain ⟨x, hd, w, o, hx, hhead, hw, htkt⟩ := onCompletion_tkt hbody
    by_cases hh : hd = h
    · subst hh
      obtain rfl : z = w := Option.some.inj (hz.symm.trans hw)
      obtain ⟨hc, hst⟩ := hs.head_pending hx hhead hz
      exact ⟨fun hno => absurd hst hno, fun _ => .inr ⟨r, by rw [hc]; exact hsched⟩⟩
    · exact hkept (ticketKept_of_setSlot hz (ticket?_eq_some.mp hw).1 hh htkt)

/-- Settles O58: a command appends, the completion take pops, and nothing else touches a queue. -/
theorem channelQueueDiscipline : Obligations.ChannelQueueDiscipline := by
  intro s t c x y l m hs hstep hx hy hl hm
  cases step_effect hstep with
  | waits | faults => exact .inl (queue_eq_of_ch rfl hx hy hl hm)
  | command _ hsched _ _ heff =>
    rcases heff.queue (hs.withInputs _ _ _) hx hy hl hm with e | ⟨-, g, e⟩
    · exact .inl e
    · exact .inr (.inl ⟨g, _, e, hsched⟩)
  | event _ _ _ hev heff =>
    rcases heff.queue (hs.withInputs _ _ _) hx hy hl hm with e | ⟨hno, -⟩
    · exact .inl e
    · exact absurd (hno.symm.trans hev) (by decide)
  | completion _ hsched _ hbody =>
    rcases onCompletion_queue hbody hx hy hl hm with e | ⟨rfl, g, e⟩
    · exact .inl e
    · exact .inr (.inr ⟨g, _, e, hsched⟩)
  | tick _ _ _ hbody => exact .inl (((takeTickBody_retimed hbody).queue hx hy ▸ hm).unique hl)
end

section
/-! SUPPORT. The other FIFO commands (spec 41): what each answers on the queue that UNIT selects, what a push and FNORM leave, and
the faults of UNIT and of an element. -/

namespace Sys2Proof.Machine

open Sys2Proof.Claims

/-! ## Queue operations (spec 41 R84 to R87, R90) -/

section
variable {w : Nat} {g : Config} {q q' : Queue w} {l m : List (BitVec w)}

theorem Queue.Holds.of_compact (h : q.Holds l) (hq : q.compact = .ok q') : q'.Holds l := by
  obtain ⟨p, hp, hl, -⟩ := h.compact
  exact Except.ok.inj (hp.symm.trans hq) ▸ hl

theorem Queue.Holds.of_grow {k : Nat} (h : q.Holds l) (hq : q.grow g k = .ok q') : q'.Holds l := by
  rcases h.grow g k with ⟨-, e⟩ | ⟨-, p, hp, hl, -⟩
  · exact absurd (e.symm.trans hq) (raise_ne_ok _ _)
  · exact Except.ok.inj (hp.symm.trans hq) ▸ hl

theorem Queue.Holds.of_place {b : Bool} (h : q.Holds l) (hq : q.place g m = .ok (q', b)) : q'.Holds (l ++ m) := by
  by_cases hm : m.length = 0
  · obtain rfl := List.length_eq_zero_iff.mp hm
    obtain ⟨rfl, -⟩ := Prod.mk.inj (Except.ok.inj hq)
    rwa [List.append_nil]
  · rcases h.place g hm with ⟨-, -, e⟩ | ⟨-, p, hp, hl, -⟩
    · exact absurd (e.symm.trans hq) (raise_ne_ok _ _)
    · obtain ⟨rfl, -⟩ := Prod.mk.inj (Except.ok.inj (hp.symm.trans hq))
      exact hl

/-- Neither the tail nor a compaction makes room for more elements than the capacity has free. -/
theorem Queue.Holds.room_of_overflow {n : Nat} (h : q.Holds l) (hover : q.cap < q.size + n) : q.room n = .growth := by
  obtain ⟨hht, htc, -⟩ := h
  have htc : q.t ≤ q.cap := htc
  have hsize : q.size = q.t - q.h := rfl
  rw [Queue.room, if_neg (by omega), if_neg (by omega)]

theorem Queue.capAfter_of_growth {n : Nat} (hroom : q.room n = .growth) : q.capAfter n = q.cap + max n (q.cap / 5) := by
  rw [Queue.capAfter, hroom]

/-- A push that fits is placed, in the words of the statements. -/
theorem Queue.Holds.place_of_fits {s : State} (h : q.Holds l) (hm : m ≠ []) (hfits : Fits s q m.length) :
    ∃ p, q.place s.cfg m = .ok (p, decide (q.room m.length = .growth)) ∧ Appended q p l m := by
  have hlen : m.length ≠ 0 := mt List.length_eq_zero_iff.mp hm
  rcases h.place s.cfg hlen with ⟨hroom, hlimit, -⟩ | ⟨-, p, hp, hl, hstart, -, hcap, htail, hcomp, hgrow⟩
  · exact absurd (hfits hroom) (Nat.not_le.mpr hlimit)
  · exact ⟨p, hp, hl, hstart, hcap, htail, hcomp, hgrow⟩

theorem Queue.Holds.place_of_not_fits {s : State} (h : q.Holds l) (hm : m ≠ []) (hfits : ¬Fits s q m.length) :
    q.place s.cfg m = raise .allocationFailure := by
  have hlen : m.length ≠ 0 := mt List.length_eq_zero_iff.mp hm
  rcases h.place s.cfg hlen with ⟨-, -, e⟩ | ⟨hok, -⟩
  · exact e
  · exact absurd hok hfits

end

/-! ## FPUSH, FPUSHN and FNORM (spec 41 R91, R92, R98) -/

section
variable {s : State} {k : Nat} {q q' : Queue 32} {l es : List Word}

theorem setFifo_of_eq (hq : s.fifo[k]? = some q) : s.setFifo k q = s := by
  obtain ⟨hk, rfl⟩ := List.getElem?_eq_some_iff.mp hq
  simp [State.setFifo]

theorem pushList_of_place {b : Bool} (hat : FifoAt s k q l) (hp : q.place s.cfg es = .ok (q', b)) :
    s.pushList (fifoUnit k) es = .ok (answered (withFifo s k q') 0#32 [bitWord b]) := by
  rw [State.pushList, qselMut_of_fifoAt hat, ok_bind, hp]
  rfl

theorem pushList_of_raise {e : FaultCode} (hat : FifoAt s k q l) (hp : q.place s.cfg es = raise e) :
    s.pushList (fifoUnit k) es = raise e := by
  rw [State.pushList, qselMut_of_fifoAt hat, ok_bind, hp, raise_bind]

theorem exec_fnorm_of_normalize {b : Bool} (hrun : Running s) (hat : FifoAt s k q l) (hn : q.normalize s.cfg = .ok (q', b)) :
    exec (.fnorm (fifoUnit k)) s = .next (answered (withFifo s k q') 0#32 [bitWord b]) := by
  change execFnorm (fifoUnit k) s = _
  rw [execFnorm, qselMut_of_fifoAt hat, ok_bind, hn]
  exact runStep_ok (faulted_of_running hrun)

theorem exec_fnorm_of_raise {e : FaultCode} (hrun : Running s) (hat : FifoAt s k q l) (hn : q.normalize s.cfg = raise e) :
    exec (.fnorm (fifoUnit k)) s = .next (s.latch e (fifoUnit k) Opcode.fnorm.code) := by
  change execFnorm (fifoUnit k) s = _
  rw [execFnorm, qselMut_of_fifoAt hat, ok_bind, hn]
  exact runStep_raise (faulted_of_running hrun)

/-! ## FPOPU (spec 41 R94) -/

theorem fpopu_fifo (hrun : Running s) (hat : FifoAt s k q l) (e : Word) :
    exec (.fpopu (fifoUnit k) e) s =
      .next (if findPos l e = l.length then s.respondFail else (s.setFifo k (q.pop (findPos l e + 1))).respondOk []) := by
  have hsel := qselMut_of_fifoAt hat
  obtain ⟨-, -, -, hq⟩ := hat
  change execFpopu (fifoUnit k) e s = _
  rw [execFpopu, hsel, ok_bind, hq.live, ok_bind, ← hq.length, ← apply_ite Except.ok, command,
    runStep_ok (faulted_of_running hrun)]

end

/-! ## FPULL and FPULLU (spec 41 R95, R96) -/

section
variable {s : State} {u : BitVec 8} {r : Bool} {sel : Selected} {l : List Word}

theorem pullCount_of_selected (hsel : s.qsel u r = .ok sel) (hlive : sel.liveWords = .ok l) (n : Nat) :
    s.pullCount u r n = .ok (if n > l.length then s.respondFail
      else (if r then s.popSelected sel n else s).respondOk (l.take n)) := by
  rw [State.pullCount, hsel, ok_bind, ← liveWords_length hlive, hlive, ok_bind, ← apply_ite Except.ok]

theorem pullUntil_of_selected {e : Word} (hsel : s.qsel u r = .ok sel) (helem : sel.element e = .ok e)
    (hlive : sel.liveWords = .ok l) :
    s.pullUntil u r e = .ok (if findPos l e = l.length then s.respondFail
      else (if r then s.popSelected sel (findPos l e + 1) else s).respondOk
        (countWord (findPos l e + 1) :: l.take (findPos l e + 1))) := by
  rw [State.pullUntil, hsel, ok_bind, helem, ok_bind, hlive, ok_bind, ← liveWords_length hlive, ← apply_ite Except.ok]

theorem exec_fpull_of_selected (hrun : Running s) {n : BitVec 15} (hsel : s.qsel u r = .ok sel) (hlive : sel.liveWords = .ok l) :
    (n.toNat ≤ l.length → exec (.fpull u r n) s =
      .next (answered (if r then s.popSelected sel n.toNat else s) 0#32 (l.take n.toNat))) ∧
    (l.length < n.toNat → exec (.fpull u r n) s = .next (answered s 1#32 [])) := by
  have hexec : exec (.fpull u r n) s = .next (if n.toNat > l.length then s.respondFail
      else (if r then s.popSelected sel n.toNat else s).respondOk (l.take n.toNat)) := by
    change execFpull u r n s = _
    rw [execFpull, pullCount_of_selected hsel hlive, command, runStep_ok (faulted_of_running hrun)]
  refine ⟨fun hn => ?_, fun hn => ?_⟩
  · rw [hexec, if_neg (Nat.not_lt.mpr hn)]
    rfl
  · rw [hexec, if_pos hn]
    rfl

theorem take_through (a : List Word) (e : Word) (b : List Word) : (a ++ e :: b).take (a.length + 1) = a ++ [e] := by
  simp [List.take_append]

theorem drop_through (a : List Word) (e : Word) (b : List Word) : (a ++ e :: b).drop (a.length + 1) = b := by
  simp [List.drop_append]

theorem exec_fpullu_of_selected {e : Word} (hrun : Running s) (hsel : s.qsel u r = .ok sel) (helem : sel.element e = .ok e)
    (hlive : sel.liveWords = .ok l) :
    (∀ a b, l = a ++ e :: b → e ∉ a → exec (.fpullu u r e) s =
      .next (answered (if r then s.popSelected sel (a.length + 1) else s) 0#32
        (BitVec.ofNat 32 (a.length + 1) :: (a ++ [e])))) ∧
    (e ∉ l → exec (.fpullu u r e) s = .next (answered s 1#32 [])) := by
  have hexec : exec (.fpullu u r e) s = .next (if findPos l e = l.length then s.respondFail
      else (if r then s.popSelected sel (findPos l e + 1) else s).respondOk
        (countWord (findPos l e + 1) :: l.take (findPos l e + 1))) := by
    change execFpullu u r e s = _
    rw [execFpullu, pullUntil_of_selected hsel helem hlive, command, runStep_ok (faulted_of_running hrun)]
  refine ⟨fun a b hl he => ?_, fun he => ?_⟩
  · subst hl
    rw [hexec, findPos_append he, if_neg (by simp), take_through]
    rfl
  · rw [hexec, if_pos (findPos_eq_length.mpr he)]
    rfl

/-! ## FSIZE, FCAP and FEMPTY (spec 41 R99 to R101) -/

theorem exec_fsize_of_selected (hrun : Running s) (hsel : s.qsel u false = .ok sel) :
    exec (.fsize u) s = .next (answered s 0#32 [BitVec.ofNat 32 sel.size]) := by
  change execFsize u s = _
  rw [execFsize, hsel, ok_bind, command_respondOk hrun]
  rfl

theorem exec_fcap_of_selected (hrun : Running s) (hsel : s.qsel u false = .ok sel) :
    exec (.fcap u) s = .next (answered s 0#32 [BitVec.ofNat 32 sel.cap]) := by
  change execFcap u s = _
  rw [execFcap, hsel, ok_bind, command_respondOk hrun]
  rfl

theorem exec_fempty_of_selected (hrun : Running s) (hsel : s.qsel u false = .ok sel) :
    exec (.fempty u) s = .next (answered s 0#32 [bitWord (sel.size == 0)]) := by
  change execFempty u s = _
  rw [execFempty, hsel, ok_bind, command_respondOk hrun]
  rfl

end

theorem length_beq_zero {α : Type} (l : List α) : (l.length == 0) = l.isEmpty := by
  cases l <;> rfl

/-! ## The faults of UNIT and of an element (spec 30 R69, R71, 41 R83) -/

section
variable {s : State} {u : BitVec 8} {i : Instr} {m : Bool}

theorem unitIndex_of_channel (hu : 128 ≤ u.toNat) : unitIsChannel u = true ∧ unitIndex u = u.toNat - 128 := by
  refine ⟨?_, ?_⟩
  · change u.msb = true
    rw [BitVec.msb_eq_decide]
    simpa using hu
  · rw [unitIndex, BitVec.extractLsb'_toNat]
    simp only [Nat.shiftRight_zero]
    omega

theorem unitIsChannel_of_lt (hu : u.toNat < 128) : unitIsChannel u = false := by
  change u.msb = false
  rw [BitVec.msb_eq_decide]
  simpa using hu

theorem qsel_of_noFifo (hu : u.toNat < 128) (hnum : s.cfg.numFifos ≤ u.toNat) : s.qsel u m = raise .badUnit := by
  have hfifo := unitIsChannel_of_lt hu
  obtain ⟨hidx, -⟩ := unitIndex_of_fifo hfifo
  rw [State.qsel, if_neg (by simp [hfifo]), if_pos (hidx ▸ hnum)]

/-- A channel's queue is not there, or not for a mutating command. -/
theorem qsel_of_noQueue (hs : s.TablesSized) (hu : 128 ≤ u.toNat)
    (hno : s.cfg.numChannels ≤ u.toNat - 128 ∨ (s.chan (u.toNat - 128)).init = false ∨ m = true) :
    s.qsel u m = raise .badUnit := by
  obtain ⟨hchan, hidx⟩ := unitIndex_of_channel hu
  rw [State.qsel, if_pos hchan, hidx]
  by_cases hc : s.cfg.numChannels ≤ u.toNat - 128
  · exact if_pos hc
  · obtain ⟨x, hx⟩ := hs.ch_of_lt (Nat.not_le.mp hc)
    rw [if_neg hc, getCh_eq_ok.mpr hx, ok_bind]
    cases hinit : x.init with
    | false => exact if_pos rfl
    | true =>
      rw [if_neg (by decide), if_pos]
      rw [chan_eq hx, hinit] at hno
      exact (hno.resolve_left hc).resolve_left (by decide)

theorem qselMut_of_raise {e : FaultCode} (h : s.qsel u true = raise e) : s.qselMut u = raise e := by
  rw [State.qselMut, h, raise_bind]

/-- A command whose rule begins with a fault raises it. -/
theorem command_of_bind_raise {α : Type} {o : Opcode} {asked : Op α} {f : α → Op State} {e : FaultCode} (hrun : Running s)
    (h : asked = raise e) : command o u s (asked >>= f) = .next (s.latch e u o.code) := by
  rw [h, raise_bind]
  exact runStep_raise (faulted_of_running hrun)

/-- A FIFO command asks first for the queue that UNIT selects; a fault of that is the command's. -/
theorem exec_of_qsel_raise {e : FaultCode} (hrun : Running s) (hi : isFifoOpcode i.opcode = true)
    (h : s.qsel i.unitField (mutates i) = raise e) : exec i s = .next (s.latch e i.unitField i.opcode.code) := by
  cases i
  case fpush | fpushn | fpop | fpopu | fnorm => exact command_of_bind_raise hrun (qselMut_of_raise h)
  case fpull | fpullu | ffind | fsize | fcap | fempty => exact command_of_bind_raise hrun h
  all_goals cases hi

/-- A wide element of a channel's queue faults in the commands that look for it (spec 41 R83, log entry 13). -/
theorem exec_of_wide_element {c : Nat} {q : Queue 16} {e : Word} (hrun : Running s) (hsel : s.qsel u false = .ok (.chan c q))
    (he : e.extractLsb' 16 16 ≠ 0#16) :
    exec (.ffind u e) s = .next (s.latch .illegalCommand u Opcode.ffind.code) ∧
    exec (.fpullu u false e) s = .next (s.latch .illegalCommand u Opcode.fpullu.code) := by
  have helem : (Selected.chan c q).element e = raise .illegalCommand := if_neg he
  constructor
  · change execFfind u e s = _
    rw [execFfind, hsel, ok_bind]
    exact command_of_bind_raise hrun helem
  · change execFpullu u false e s = _
    rw [execFpullu, State.pullUntil, hsel, ok_bind]
    exact command_of_bind_raise hrun helem

end

end Sys2Proof.Machine
end

section
open Sys2Proof Sys2Proof.Machine Sys2Proof.Claims

/-- Settles O16, from what compaction, growth and place each leave a queue to hold. -/
theorem queueOperationsKeepOrder : Obligations.QueueOperationsKeepOrder :=
  fun _ _ _ _ _ _ _ _ h => ⟨h.of_compact, h.of_grow, h.of_place⟩

/-- Settles O15: past the capacity the room is made by growth, and growth is by `max n (cap div 5)`. -/
theorem pushPastCapacityReallocates : Obligations.PushPastCapacityReallocates := by
  intro w g q l m h hover
  have hroom := h.room_of_overflow hover
  have hm : m.length ≠ 0 := by
    have := h.length
    obtain ⟨-, htc, -⟩ := h
    have hcap : q.t ≤ q.cap := htc
    have hsize : q.size = q.t - q.h := rfl
    omega
  rcases h.place g hm with ⟨-, hlimit, e⟩ | ⟨hok, p, hp, hl, -, -, hcap, -⟩
  · exact ⟨fun hle => absurd hle (Nat.not_le.mpr hlimit), fun _ => e⟩
  · refine ⟨fun _ => ⟨p, ?_, ?_, hl⟩, fun hlt => absurd (hok hroom) (Nat.not_le.mpr hlt)⟩
    · rw [hp, decide_eq_true hroom]
    · rw [hcap, Queue.capAfter_of_growth hroom]

/-- Settles O13, from the place that fits. -/
theorem pushAppends : Obligations.PushAppends := by
  intro s k q l es hrun hat
  have ⟨_, _, hq, hl⟩ := hat
  have hnf := faulted_of_running hrun
  refine ⟨fun hes hfits => ?_, ?_⟩
  · obtain ⟨p, hp, happ⟩ := hl.place_of_fits hes hfits
    have hpush := pushList_of_place hat hp
    refine ⟨p, happ, ?_, ?_⟩
    · exact (congrArg (command .fpushn (fifoUnit k) s) hpush).trans (runStep_ok hnf)
    · rintro e rfl
      exact (congrArg (command .fpush (fifoUnit k) s) hpush).trans (runStep_ok hnf)
  · have hpush := pushList_of_place hat (Queue.place_nil s.cfg q)
    rw [show withFifo s k q = s from setFifo_of_eq hq] at hpush
    exact (congrArg (command .fpushn (fifoUnit k) s) hpush).trans (runStep_ok hnf)

/-- Settles O14, from the place that does not fit. -/
theorem pushPastLimitFaults : Obligations.PushPastLimitFaults := by
  intro s k q l es hrun hat hes hfits
  have ⟨_, _, _, hl⟩ := hat
  have hpush := pushList_of_raise hat (hl.place_of_not_fits hes hfits)
  have hnf := faulted_of_running hrun
  refine ⟨?_, ?_⟩
  · exact (congrArg (command .fpushn (fifoUnit k) s) hpush).trans (runStep_raise hnf)
  · rintro e rfl
    exact (congrArg (command .fpush (fifoUnit k) s) hpush).trans (runStep_raise hnf)

/-- Settles O18, from the position of the first terminator. -/
theorem fpopuRemovesThroughTerminator : Obligations.FpopuRemovesThroughTerminator := by
  intro s k q l e hrun hat
  have hexec := fpopu_fifo hrun hat e
  have ⟨_, _, _, hl⟩ := hat
  refine ⟨?_, fun he => ?_⟩
  · rintro a b rfl he
    refine ⟨?_, ?_⟩
    · have hpop := hl.pop (k := a.length + 1) (by simp)
      rwa [drop_through] at hpop
    · rw [hexec, findPos_append he, if_neg (by simp)]
      rfl
  · rw [hexec, if_pos (findPos_eq_length.mpr he)]
    rfl

/-- Settles O19, from FPULL on a selected queue: a channel's queue shows its handles zero-extended. -/
theorem fpullCopiesPrefix : Obligations.FpullCopiesPrefix := by
  intro s n hrun
  refine ⟨fun k q l r hat => ?_, fun c x l hat => ?_⟩
  · have ⟨_, _, _, hl⟩ := hat
    exact exec_fpull_of_selected hrun (qsel_of_fifoAt hat r) hl.live
  · have ⟨_, _, _, _, hl⟩ := hat
    obtain ⟨henough, hfew⟩ :=
      exec_fpull_of_selected hrun (n := n) (qsel_of_queueAt hat) (liveWords_chan_of_holds hl)
    rw [List.length_map] at henough hfew
    refine ⟨fun hn => ?_, hfew⟩
    rw [henough hn, ← List.map_take, funext zero_append_handle]
    rfl

/-- Settles O20, from FPULLU on a selected queue; a handle stands where its zero extension stands. -/
theorem fpulluCopiesThroughTerminator : Obligations.FpulluCopiesThroughTerminator := by
  intro s hrun
  refine ⟨fun k q l r e hat => ?_, fun c x l e hat => ?_⟩
  · have ⟨_, _, _, hl⟩ := hat
    exact exec_fpullu_of_selected hrun (qsel_of_fifoAt hat r) rfl hl.live
  · have ⟨_, _, _, _, hl⟩ := hat
    have hmem (m : List Handle) : (0#16 ++ e : Word) ∈ m.map (fun h => h.zeroExtend 32) ↔ e ∈ m := by
      rw [zero_append_handle]
      exact List.mem_map_of_injective zeroExtend_handle_injective
    obtain ⟨hfound, hnone⟩ := exec_fpullu_of_selected hrun (qsel_of_queueAt hat) (element_chan_handle c x.q e)
      (liveWords_chan_of_holds hl)
    refine ⟨?_, fun he => hnone (mt (hmem l).mp he)⟩
    rintro a b rfl he
    rw [hfound (a.map fun h => h.zeroExtend 32) (b.map fun h => h.zeroExtend 32) (by simp [zero_append_handle])
      (mt (hmem a).mp he), List.length_map, funext zero_append_handle, List.map_append]
    rfl

/-- Settles O22, from what `normalize` does on a queue that holds `l`. -/
theorem fnormCompactsOrGrows : Obligations.FnormCompactsOrGrows := by
  intro s k q l hrun hat
  have ⟨_, _, hq, hl⟩ := hat
  have hlen := hl.length
  rcases hl.normalize s.cfg with
    ⟨hstart, hn⟩ | ⟨hstart, hlow, p, hn, hp, h0, -, hcap, hwritten⟩ |
    ⟨hstart, hhigh, hfits, p, hn, hp, h0, -, hcap, hfree⟩ | ⟨hstart, hhigh, hover, hn⟩
  · refine ⟨fun _ => ?_, fun h => absurd hstart h, fun h => absurd hstart h, fun h => absurd hstart h⟩
    rw [exec_fnorm_of_normalize hrun hat hn, show withFifo s k q = s from setFifo_of_eq hq]
    rfl
  · refine ⟨fun h => absurd h hstart, fun _ _ => ⟨p, ?_, hwritten, exec_fnorm_of_normalize hrun hat hn⟩,
      fun _ _ _ => by omega, fun _ _ _ => by omega⟩
    exact ⟨hp, h0, hcap⟩
  · refine ⟨fun h => absurd h hstart, fun _ _ => by omega,
      fun _ _ _ => ⟨p, ?_, hfree, exec_fnorm_of_normalize hrun hat hn⟩, fun _ _ _ => by omega⟩
    exact ⟨hp, h0, hcap⟩
  · exact ⟨fun h => absurd h hstart, fun _ _ => by omega, fun _ _ _ => by omega,
      fun _ _ _ => exec_fnorm_of_raise hrun hat hn⟩

/-- Settles O23, from the three commands on a selected queue. -/
theorem sizeCapEmptyAnswer : Obligations.SizeCapEmptyAnswer := by
  intro s hrun
  refine ⟨fun k q l hat => ?_, fun c x l hat => ?_⟩
  · have ⟨_, _, _, hl⟩ := hat
    have hsel := qsel_of_fifoAt hat false
    refine ⟨?_, exec_fcap_of_selected hrun hsel, ?_⟩
    · rw [hl.length]
      exact exec_fsize_of_selected hrun hsel
    · rw [← length_beq_zero, hl.length]
      exact exec_fempty_of_selected hrun hsel
  · have ⟨_, _, _, _, hl⟩ := hat
    have hsel := qsel_of_queueAt hat
    refine ⟨?_, exec_fcap_of_selected hrun hsel, ?_⟩
    · rw [hl.length]
      exact exec_fsize_of_selected hrun hsel
    · rw [← length_beq_zero, hl.length]
      exact exec_fempty_of_selected hrun hsel

/-- Settles O24: a FIFO command asks first for the queue that UNIT selects, and then for its element. -/
theorem fifoUnitAndElementFaults : Obligations.FifoUnitAndElementFaults := by
  intro i s hrun hs hi
  have hop : isFifoOpcode i.opcode = true := isFifoCommand_eq i ▸ hi
  refine ⟨fun hu hnum => exec_of_qsel_raise hrun hop (qsel_of_noFifo hu hnum),
    fun hu hno => exec_of_qsel_raise hrun hop (qsel_of_noQueue hs hu hno), fun hu hnum hinit e he hcmd => ?_⟩
  obtain ⟨x, hx⟩ := hs.ch_of_lt hnum
  obtain ⟨hchan, hidx⟩ := unitIndex_of_channel hu
  have hsel : s.qsel i.unitField false = .ok (.chan (i.unitField.toNat - 128) x.q) := by
    rw [chan_eq hx] at hinit
    exact qsel_eq_ok.mpr (.inl ⟨hchan, rfl, hidx ▸ hnum, x, hidx ▸ hx, hinit, by rw [hidx]⟩)
  obtain ⟨hfind, hpull⟩ := exec_of_wide_element hrun hsel he
  rcases hcmd with hcmd | hcmd
  · have hopc : i.opcode = .ffind := by rw [hcmd]; rfl
    rw [hopc]
    exact (congrArg (exec · s) hcmd).trans hfind
  · have hopc : i.opcode = .fpullu := by rw [hcmd]; rfl
    rw [hopc]
    exact (congrArg (exec · s) hcmd).trans hpull

end

section
/-! SUPPORT. The checksum as a linear map of its register (spec 42 R103, R104), and what a change of a byte does to it. -/

namespace Sys2Proof.Machine

open Sys2Proof.Claims

/-! ## The shift of the register -/

/-- The shift as a map of bits: the top bit that leaves comes back as the polynomial. -/
theorem msbShift_eq_xor (r : Byte) : msbShift r = r <<< 1 ^^^ if r.getLsbD 7 then 0x07#8 else 0x00#8 := by
  unfold msbShift
  cases r.getLsbD 7
  · exact BitVec.xor_zero.symm
  · rfl

theorem msbShift_xor (a b : Byte) : msbShift (a ^^^ b) = msbShift a ^^^ msbShift b := by
  have hpoly : ∀ x y : Bool, (if x ^^ y then 0x07#8 else 0x00#8) =
      (if x then 0x07#8 else 0x00#8) ^^^ (if y then 0x07#8 else 0x00#8) := by decide
  simp only [msbShift_eq_xor, BitVec.getLsbD_xor, BitVec.shiftLeft_xor_distrib, hpoly]
  ac_rfl

theorem msbShift_injective : Function.Injective msbShift := by
  intro a b h
  have hkernel : ∀ r : Byte, msbShift r = 0#8 → r = 0#8 := by decide
  refine BitVec.xor_eq_zero_iff.mp (hkernel _ ?_)
  rw [msbShift_xor, h, BitVec.xor_self]

/-- Eight shifts: what the register of the MSB-first CRC goes through for a byte. -/
def msbByteShift (r : Byte) : Byte := msbShift^[8] r

theorem msbByteShift_injective : Function.Injective msbByteShift := msbShift_injective.iterate 8

theorem msbByteShift_xor (a b : Byte) : msbByteShift (a ^^^ b) = msbByteShift a ^^^ msbByteShift b := by
  simp only [msbByteShift, Function.iterate_succ, Function.comp_apply, Function.iterate_zero, id_eq, msbShift_xor]

/-- A data bit is fed into the top of the register. -/
theorem crcBit_eq : ∀ (r : Byte) (b : Bool), crcBit r b = msbShift (r ^^^ if b then 0x80#8 else 0x00#8) := by decide

/-- What a byte adds to the register does not depend on what the register holds. -/
theorem crcByte_eq_xor (r b : Byte) : crcByte r b = msbByteShift r ^^^ crcByte 0#8 b := by
  simp only [crcByte, crcBit_eq, msbByteShift, Function.iterate_succ, Function.comp_apply, Function.iterate_zero, id_eq,
    msbShift_xor, BitVec.zero_xor, BitVec.xor_assoc]

theorem crcByte_zero : ∀ b : Byte, crcByte 0#8 b = msbByteShift (rev8 b) := by decide +kernel

/-- Feeding a byte from its bit 0 upward is feeding the reversed byte from its top bit downward (spec 42 R104). -/
theorem crcByte_eq (r b : Byte) : crcByte r b = msbByteShift (r ^^^ rev8 b) := by
  rw [crcByte_eq_xor, crcByte_zero, msbByteShift_xor]

theorem crcOver_eq_msbCrc (bs : List Byte) : crcOver bs = msbCrc (bs.map rev8) := by
  rw [crcOver, funext₂ crcByte_eq, msbCrc, List.foldl_map]
  rfl

/-! ## Changes show -/

theorem rev8_injective : Function.Injective rev8 := by
  have hinv : ∀ b : Byte, rev8 (rev8 b) = b := by decide
  exact Function.LeftInverse.injective hinv

theorem crcByte_inj_register {r r' b : Byte} : crcByte r b = crcByte r' b ↔ r = r' := by
  rw [crcByte_eq, crcByte_eq, msbByteShift_injective.eq_iff, BitVec.xor_left_inj]

theorem crcByte_inj_byte {r b b' : Byte} : crcByte r b = crcByte r b' ↔ b = b' := by
  rw [crcByte_eq, crcByte_eq, msbByteShift_injective.eq_iff, BitVec.xor_right_inj, rev8_injective.eq_iff]

theorem foldl_crcByte_inj {bs : List Byte} : ∀ {r r' : Byte}, bs.foldl crcByte r = bs.foldl crcByte r' ↔ r = r' := by
  induction bs with
  | nil => exact Iff.rfl
  | cons b bs ih => exact ih.trans crcByte_inj_register

/-- A byte that changes, alone, changes the checksum. -/
theorem crcOver_set {b : Byte} {bs : List Byte} {i : Nat} (hi : i < bs.length) (hb : b ≠ bs[i]) :
    crcOver (bs.set i b) ≠ crcOver bs := by
  unfold crcOver
  generalize 0x00#8 = r
  induction bs generalizing i r with
  | nil => cases hi
  | cons a bs ih =>
    cases i with
    | zero => exact mt (foldl_crcByte_inj.trans crcByte_inj_byte).mp hb
    | succ i => exact ih (Nat.lt_of_succ_lt_succ hi) hb _

/-! ## Frames -/

theorem parse_fst_eq_true {r : List Byte} : (parse r).1 = true ↔ crcOver (r.take 7) = r.getD 7 0#8 := beq_iff_eq

theorem parse_fst_eq_false {r : List Byte} : (parse r).1 = false ↔ crcOver (r.take 7) ≠ r.getD 7 0#8 := beq_eq_false_iff_ne

/-- The four bytes of a word, put together again. -/
theorem packWord_bytes (w : Word) :
    packWord (w.extractLsb' 24 8) (w.extractLsb' 16 8) (w.extractLsb' 8 8) (w.extractLsb' 0 8) = w := by
  have hall : w.extractLsb' 24 8 ++ w.extractLsb' 0 24 = w.extractLsb' 0 32 :=
    BitVec.extractLsb'_append_extractLsb'_eq_extractLsb' rfl
  rw [packWord_eq_append, extract_three_bytes w 0, hall]
  exact BitVec.extractLsb'_eq_self

/-- Seven bytes closed with their checksum are a good frame. -/
theorem parse_withCrc {bs : List Byte} (h : bs.length = 7) : (parse (withCrc bs)).1 = true := by
  have hlast : (withCrc bs).getD 7 0#8 = crcOver bs := by simp [withCrc, h]
  rw [parse_fst_eq_true, hlast, withCrc, List.take_left' h]

theorem parse_buildWrite (p : BitPacking) (dev : Byte) (reg : BitVec 7) (v : Word) :
    parse (buildWrite p dev reg v) = (true, v) := by
  have hok : (parse (buildWrite p dev reg v)).1 = true := parse_withCrc rfl
  have hval : (parse (buildWrite p dev reg v)).2 = v := packWord_bytes v
  exact Prod.ext hok hval

/-- A good frame with another byte 7 is not good. -/
theorem parse_set_last {r : List Byte} {b : Byte} (hlen : r.length = 8) (hok : (parse r).1 = true) (hb : b ≠ r.getD 7 0#8) :
    (parse (r.set 7 b)).1 = false := by
  rw [parse_fst_eq_true] at hok
  rw [parse_fst_eq_false, List.take_set_of_le (Nat.le_refl 7), hok]
  simpa [hlen] using hb.symm

/-- A good frame with another byte under its checksum is not good. -/
theorem parse_set_covered {r : List Byte} {b : Byte} {i : Nat} (hlen : r.length = 8) (hok : (parse r).1 = true) (hi : i < 7)
    (hb : b ≠ r.getD i 0#8) : (parse (r.set i b)).1 = false := by
  rw [parse_fst_eq_true] at hok
  have hlast : (r.set i b).getD 7 0#8 = r.getD 7 0#8 := by simp [hi.ne]
  rw [parse_fst_eq_false, List.take_set, hlast, ← hok]
  have hin : i < (r.take 7).length := by simp [hlen, hi]
  refine crcOver_set hin ?_
  rwa [List.getElem_take, ← List.getD_eq_getElem r 0#8]

end Sys2Proof.Machine

open Sys2Proof Sys2Proof.Machine Sys2Proof.Claims

/-- Settles O27, byte by byte; the check values by evaluation. -/
theorem crc8IsMsbCrcOfReversedBytes : Obligations.Crc8IsMsbCrcOfReversedBytes :=
  ⟨fun bs n => crcOver_eq_msbCrc (bs.take (n - 1)), by decide +kernel, by decide +kernel⟩

/-- Settles O31: what is built closes with its checksum, and a byte that changes, alone, breaks the equality with byte 7. -/
theorem framesParseBackAndErrorsShow : Obligations.FramesParseBackAndErrorsShow := by
  refine ⟨parse_buildWrite, fun r hlen hok => ⟨fun b => parse_set_last hlen hok, fun i hi j hj => ?_⟩⟩
  have hbit : ∀ j < 8, 1#8 <<< j ≠ 0#8 := by decide
  exact parse_set_covered hlen hok hi fun h => hbit j hj ((BitVec.xor_right_inj _).mp (h.trans BitVec.xor_zero.symm))

end

section
/-! SUPPORT. What CHSTAT shows of the element HPHASE and of a channel's head ticket (spec 10 R31, 44 R137), and what EVCOMP and a
run of idle ticks do (spec 60 R148, 44 R131). -/

namespace Sys2Proof.Machine

open Sys2Proof.Claims

/-! ## Fields of the words of CHSTAT (spec 10 R31, 44 R137) -/

section
variable {c : Nat}

theorem chstatW0_active (x : Channel) (act : Bool) : (chstatW0 x act).extractLsb' 24 1 = BitVec.ofBool act := by
  rw [chstatW0, BitVec.extractLsb'_append_eq_of_le (by decide), BitVec.extractLsb'_append_eq_of_le (by decide)]
  exact BitVec.extractLsb'_append_eq_right

theorem chstatW2_head (a b : Handle) : (chstatW2 a b).extractLsb' 16 16 = a := BitVec.extractLsb'_append_eq_left

theorem chstatW2_handler (a b : Handle) : (chstatW2 a b).extractLsb' 0 16 = b := BitVec.extractLsb'_append_eq_right

theorem hphaseWord_active (c7 : BitVec 7) (h : Handle) : (HPhase.active c7 h).word.extractLsb' 0 1 = 1#1 :=
  BitVec.extractLsb'_append_eq_right

theorem hphaseWord_reserved (c7 : BitVec 7) (h : Handle) : (HPhase.active c7 h).word.extractLsb' 8 8 = 0#8 := by
  rw [HPhase.word, BitVec.extractLsb'_append_eq_of_le (by decide), BitVec.extractLsb'_append_eq_of_le (by decide)]
  exact BitVec.extractLsb'_append_eq_right

theorem hphaseWord_chan (c7 : BitVec 7) (h : Handle) : (HPhase.active c7 h).word.extractLsb' 1 7 = c7 :=
  hphaseChan_word_active c7 h

theorem hphaseWord_handle (c7 : BitVec 7) (h : Handle) : (HPhase.active c7 h).word.extractLsb' 16 16 = h :=
  hphaseHandle_word_active c7 h

/-- The channel that the HPHASE word names is shown the word's own bits. -/
theorem handlerOf_of_named {p : HPhase} (h : (p.word.extractLsb' 1 7).toNat = c) :
    BitVec.ofBool (handlerOf p c).isSome = p.word.extractLsb' 0 1 ∧ (handlerOf p c).getD 0#16 = p.word.extractLsb' 16 16 := by
  cases p with
  | none => exact ⟨rfl, rfl⟩
  | active c7 g =>
    rw [hphaseWord_chan] at h
    rw [hphaseWord_active, hphaseWord_handle, handlerOf, if_pos h]
    exact ⟨rfl, rfl⟩

theorem handlerOf_of_not_named {p : HPhase} (h : (p.word.extractLsb' 1 7).toNat ≠ c) : handlerOf p c = none := by
  cases p with
  | none => rfl
  | active c7 g =>
    rw [hphaseWord_chan] at h
    exact if_neg h

end

/-! ## EVCOMP (spec 60 R148) -/

section
variable {s : State} {c : BitVec 8} {f : BitVec 2} {w1 w2 : Word}

/-- Eight bytes fill a buffer of eight cells. -/
theorem memWrite_eightBytes {a : List (Option Byte)} (h : a.length = 8) :
    memWrite a 0 (eightBytes w1 w2) = .ok ((eightBytes w1 w2).map some) := by
  refine memWrite_eq_ok.mpr ⟨h.ge, ?_⟩
  have hend : a.drop (0 + (eightBytes w1 w2).length) = [] := List.drop_eq_nil_of_le h.le
  rw [hend, List.append_nil]
  rfl

/-- The finish of the head's transfer delivers the bytes and sets the status bits. -/
theorem exec_evcomp_of_deliver {x : Channel} {h : Handle} {l : List Handle} {y y' : Ticket} (hrun : Running s)
    (hc : c.toNat < s.cfg.numChannels) (hx : s.ch[c.toNat]? = some x) (hq : x.q.Holds (h :: l)) (hy : TicketAt s h y)
    (hf : f ≠ 0#2) (harmed : x.per.armed = true) (hrx : x.per.stRx = false) (hto : x.per.stTo = false)
    (hdeliver : y.deliver (eightBytes w1 w2) = .ok y') :
    exec (.evcomp c f w1 w2) s =
      .next (withChan (withSlot s (h.toNat - 1) (some y')) c.toNat { x with per := finishedPer x.per f }) := by
  have hfinish : s.periphFinish c.toNat f (unpackWords [w1, w2]) =
      .ok (withChan (withSlot s (h.toNat - 1) (some y')) c.toNat { x with per := finishedPer x.per f }) :=
    periphFinish_eq_ok.mpr ⟨x, h, y, y', hc, hx, hf, harmed, hrx, hto, hq.head, ticket?_of_ticketAt hy, hdeliver, rfl⟩
  change execEvcomp c f w1 w2 s = _
  rw [execEvcomp, hfinish]
  exact runStep_ok (faulted_of_running hrun)

end

/-! ## A run of idle ticks (spec 44 R131, R140) -/

section
variable {s : State} {c : Nat} {x : Channel}

theorem setCh_setCh (s : State) (c : Nat) (y z : Channel) : (s.setCh c y).setCh c z = s.setCh c z := by
  simp [State.setCh]

/-- A count up to the longest threshold is not the mark of an inactive counter. -/
theorem toNat_count {n : Nat} (hn : n ≤ 253) : (BitVec.ofNat 8 n).toNat = n ∧ BitVec.ofNat 8 n ≠ notIdle := by
  have hnat : (BitVec.ofNat 8 n).toNat = n := Nat.mod_eq_of_lt (by omega)
  refine ⟨hnat, fun h => ?_⟩
  have h255 : (BitVec.ofNat 8 n).toNat = 255 := congrArg BitVec.toNat h
  omega

/-- Up to the threshold every tick counts. -/
theorem idleTicks_count (hx : s.ch[c]? = some x) (hidle : x.idle = 0x00#8) (hmax : s.cfg.debounceT ≤ 253) (n : Nat)
    (hn : n ≤ s.cfg.debounceT) : idleTicks c n s = .ok (s.setCh c { x with idle := BitVec.ofNat 8 n }) := by
  induction n with
  | zero =>
    have hself : { x with idle := BitVec.ofNat 8 0 } = x := by rw [← hidle]
    rw [hself, setCh_of_eq hx]
    rfl
  | succ n ih =>
    obtain ⟨hnat, hactive⟩ := toNat_count (n := n) (by omega)
    rw [idleTicks, ih (by omega), ok_bind, idleTick_counts (ch_setCh_self hx _) hactive (hnat.symm ▸ hn), setCh_setCh,
      BitVec.ofNat_add]

end

end Sys2Proof.Machine

open Sys2Proof Sys2Proof.Machine Sys2Proof.Claims

/-- Settles O41, field by field; the handler that CHSTAT shows is the one that the HPHASE word names. -/
theorem chstatShowsHphase : Obligations.ChstatShowsHphase := by
  refine ⟨rfl, fun c7 h => ⟨hphaseWord_active c7 h, hphaseWord_chan c7 h, hphaseWord_reserved c7 h, hphaseWord_handle c7 h⟩,
    fun s c x l hrun hc hx hl => ⟨_, _, _, exec_chstat hrun hc hx hl, ?_⟩⟩
  rw [chstatW0_active, chstatW2_handler]
  refine ⟨handlerOf_of_named, fun hno => ?_⟩
  rw [handlerOf_of_not_named hno]
  exact ⟨rfl, rfl⟩

/-- Settles O42: the queue holds exactly the Pending tickets of its channel, and its head is none of them or the first. -/
theorem chstatHeadIsPending : Obligations.ChstatHeadIsPending := by
  intro s c hs hrun hc
  obtain ⟨x, hx⟩ := hs.sized.ch_of_lt hc
  obtain ⟨l, hl⟩ := hs.channelSound hx
  refine ⟨_, _, _, exec_chstat hrun hc hx hl.holds, ?_⟩
  rw [chstatW2_head]
  cases l with
  | nil =>
    refine ⟨fun h => absurd rfl h, fun _ h y hy hst hchan => ?_⟩
    exact absurd (hs.sound.pending h y x [] ((ticketAt_iff hs.sized).mp hy) hst (hchan ▸ hx) hl.holds) (List.not_mem_nil)
  | cons h l =>
    obtain ⟨y, hy, hchan, hst⟩ := hl.queued h List.mem_cons_self
    refine ⟨fun _ => ⟨y, (ticketAt_iff hs.sized).mpr hy, hst, hchan⟩, fun h0 => ?_⟩
    exact absurd h0 (ticket?_eq_some.mp hy).1

/-- Settles O43: the bytes are delivered where the kind of the head ticket says. -/
theorem evcompDelivers : Obligations.EvcompDelivers := by
  intro s c f w1 w2 x h l y hrun hc hx hq hy hf harmed hrx hto
  refine ⟨fun hk hlen => ?_, fun hk hlen => ?_⟩
  · exact exec_evcomp_of_deliver hrun hc hx hq hy hf harmed hrx hto
      (deliver_eq_ok.mpr (.inl ⟨hk, _, memWrite_eightBytes hlen, rfl⟩))
  · exact exec_evcomp_of_deliver hrun hc hx hq hy hf harmed hrx hto
      (deliver_eq_ok.mpr (.inr ⟨hk, _, memWrite_eightBytes hlen, rfl⟩))

/-- Settles O44, check by check in the rule's order. -/
theorem evcompFaults : Obligations.EvcompFaults := by
  intro s c f w1 w2 hrun
  refine ⟨fun hc => command_channelUnit_of_badUnit hrun hc, fun x hc hx => ⟨fun hf => ?_, fun hf hbusy => ?_⟩⟩
  · refine (command_channelUnit (o := .evcomp) (u := c) hc hx).trans ?_
    rw [if_pos hf]
    exact runStep_raise (faulted_of_running hrun)
  · refine (command_channelUnit (o := .evcomp) (u := c) hc hx).trans ?_
    rw [if_neg hf, if_pos hbusy]
    exact runStep_raise (faulted_of_running hrun)

/-- Settles O49: the ticks count to the threshold, and the one past it starts. -/
theorem debounceStartsAfterThreshold : Obligations.DebounceStartsAfterThreshold := by
  intro s c x hx hidle hmax
  have hcount := idleTicks_count hx hidle hmax
  refine ⟨hcount, fun h l y o harmed hq hy ho => ?_⟩
  obtain ⟨hnat, hactive⟩ := toNat_count hmax
  rw [idleTicks, hcount _ (Nat.le_refl _), ok_bind]
  have hat := ch_setCh_self hx { x with idle := BitVec.ofNat 8 s.cfg.debounceT }
  have hpast : s.cfg.debounceT < (BitVec.ofNat 8 s.cfg.debounceT).toNat + 1 := hnat.symm ▸ Nat.lt_succ_self _
  refine (idleTick_starts hat hactive hpast harmed hq hy ho).trans ?_
  rw [setCh_setCh]
  rfl

end

section
/-! SUPPORT. The common rule of CHRD and CHWR (spec 44 R134, R135): the ticket it allocates, the enqueue on an empty and on a busy
queue, and its faults in order. -/

namespace Sys2Proof.Machine

open Sys2Proof.Claims

section
variable {s t : State} {c i : Nat} {x : Channel} {l : List Handle} {k : Kind} {dev : Byte} {reg : BitVec 7} {v hw : Word}

/-! ## The ticket (spec 43 R115) -/

theorem setTkt_handleAt (hi : i < 65535) (y : Ticket) : s.setTkt (handleAt i) y = withSlot s i (some y) := by
  rw [State.setTkt, State.setSlot, handleAt_toNat hi, Nat.add_sub_cancel]
  rfl

theorem freeSlot_of_leastFree (h : LeastFree s i) : freeSlot s.tkt = some i := by
  obtain ⟨-, hslot, hlive⟩ := h
  refine freeSlot_eq_some.mpr ⟨hslot, fun j hj => ?_⟩
  obtain ⟨y, hy⟩ := Option.isSome_iff_exists.mp (hlive j hj)
  exact ⟨y, Option.join_eq_some_iff.mp hy⟩

theorem tktAlloc_of_leastFree (h : LeastFree s i) (hid : BitVec 16) :
    s.tktAlloc c k dev reg v hid =
      .ok (withSlot s i (some (newTicket s.cfg.bitPacking c k dev reg v hid)), handleAt i) := by
  have ⟨hi, _, _⟩ := h
  exact tktAlloc_eq_ok.mpr ⟨i, freeSlot_of_leastFree h, rfl, (setTkt_handleAt hi _).symm⟩

/-- The ticket that has just been allocated is the one that its handle names. -/
theorem ticket?_allocated (h : LeastFree s i) (y : Ticket) : (withSlot s i (some y)).ticket? (handleAt i) = some y := by
  obtain ⟨hi, hslot, -⟩ := h
  obtain ⟨hlt, -⟩ := List.getElem?_eq_some_iff.mp hslot
  rw [ticket?_handleAt hi, withSlot, List.getElem?_set_self hlt]
  rfl

/-- The transfer of a ticket that has just been allocated sends the request or the frame that was built for it. -/
theorem starts_readTicket (s : State) (p : BitPacking) (dev : Byte) (reg : BitVec 7) (hid : BitVec 16) (h : Handle) :
    Starts s c h (readTicket p c dev reg hid)
      (.pstart c (buildRead p dev reg) 4 (.reply h) 8 s.cfg.timeoutBitTimes) :=
  .inl ⟨rfl, _, _, _, _, _, rfl, rfl⟩

theorem starts_writeTicket (s : State) (p : BitPacking) (dev : Byte) (reg : BitVec 7) (v : Word) (hid : BitVec 16) (h : Handle) :
    Starts s c h (writeTicket p c dev reg v hid)
      (.pstart c (buildWrite p dev reg v) 8 (.frame h) 8 s.cfg.timeoutBitTimes) :=
  .inr ⟨rfl, _, rfl, rfl, rfl⟩

/-! ## Enqueue (spec 44 R125) -/

theorem enqueue_of_busy {h : Handle} {q' : Queue 16} {b : Bool} (hx : s.ch[c]? = some x) (hq : x.q.Holds l) (hl : l ≠ [])
    (hp : x.q.place s.cfg [h] = .ok (q', b)) : s.enqueue c h = .ok (s.setCh c { x with q := q' }) := by
  have hsize : x.q.size ≠ 0 := hq.length ▸ mt List.length_eq_zero_iff.mp hl
  exact enqueue_eq_ok.mpr ⟨x, _, hx, hp, .inr ⟨hsize, rfl⟩⟩

theorem enqueue_of_empty {h : Handle} {q' : Queue 16} {b : Bool} {y : Ticket} {o : Output} (hx : s.ch[c]? = some x)
    (hq : x.q.Holds []) (hp : x.q.place s.cfg [h] = .ok (q', b)) (hq' : q'.Holds [h]) (harmed : x.per.armed = false)
    (hy : s.ticket? h = some y) (ho : Starts s c h y o) :
    s.enqueue c h = .ok ((s.setCh c { x with q := q', per := startedPer }).emit o) := by
  have hstart : (s.setCh c { x with q := q' }).startTransfer c =
      .ok (((s.setCh c { x with q := q' }).setCh c { x with q := q', per := startedPer }).emit o) :=
    startTransfer_eq_ok.mpr ⟨_, h, y, o, ch_setCh_self hx _, harmed, hq'.head, hy, pstartOf_of_starts ho, rfl⟩
  rw [setCh_setCh] at hstart
  exact enqueue_eq_ok.mpr ⟨x, _, hx, hp, .inl ⟨hq.length.symm, hstart⟩⟩

theorem enqueue_of_raise {h : Handle} {e : FaultCode} (hx : s.ch[c]? = some x) (hp : x.q.place s.cfg [h] = raise e) :
    s.enqueue c h = raise e := by
  rw [State.enqueue, getCh_eq_ok.mpr hx, ok_bind, hp, raise_bind]

/-! ## Submit (spec 44 R134, R135) -/

theorem createdChannel_of_queueAt (hat : QueueAt s c x l) : s.createdChannel c = .ok x := by
  obtain ⟨-, hc, hx, hinit, -⟩ := hat
  exact createdChannel_eq_ok.mpr ⟨hc, hx, hinit⟩

theorem createdChannel_of_missing
    (h : s.cfg.numChannels ≤ c ∨ (c < s.ch.length ∧ (s.chan c).init = false)) : s.createdChannel c = raise .badUnit := by
  by_cases hc : s.cfg.numChannels ≤ c
  · rw [State.createdChannel, channelUnit_badUnit hc, raise_bind]
  · obtain ⟨hlt, hinit⟩ := h.resolve_left hc
    rw [State.createdChannel, channelUnit_eq_ok.mpr ⟨Nat.not_le.mp hc, ch_of_lt hlt⟩, ok_bind, if_pos hinit]

/-- The answer is the new handle; an enqueue decides the rest. -/
theorem submit_of_enqueue (hat : QueueAt s c x l) (hfree : LeastFree s i) (hhw : hw.extractLsb' 16 16 = 0#16)
    (henq : (withSlot s i (some (newTicket s.cfg.bitPacking c k dev reg v (hw.extractLsb' 0 16)))).enqueue c (handleAt i) = .ok t) :
    s.submit c k dev reg v hw = .ok (answered t 0#32 [BitVec.ofNat 32 (i + 1)]) := by
  have hword : (handleAt i).zeroExtend 32 = BitVec.ofNat 32 (i + 1) := by
    have hi := handleAt_toNat (Nat.lt_of_succ_le hfree.1)
    exact BitVec.eq_of_toNat_eq ((BitVec.toNat_setWidth ..).trans (by rw [hi, BitVec.toNat_ofNat]))
  rw [State.submit, createdChannel_of_queueAt hat, ok_bind, handlerId_eq_ok.mpr ⟨hhw, rfl⟩, ok_bind,
    tktAlloc_of_leastFree hfree, ok_bind, henq, ok_bind, hword]
  rfl

/-- The faults of the rule, in its order. -/
theorem submit_of_missing (h : s.cfg.numChannels ≤ c ∨ (c < s.ch.length ∧ (s.chan c).init = false)) :
    s.submit c k dev reg v hw = raise .badUnit := by
  rw [State.submit, createdChannel_of_missing h, raise_bind]

theorem submit_of_illegal_handler (hat : QueueAt s c x l) (hhw : hw.extractLsb' 16 16 ≠ 0#16) :
    s.submit c k dev reg v hw = raise .illegalCommand := by
  rw [State.submit, createdChannel_of_queueAt hat, ok_bind, handlerId, if_neg hhw, raise_bind]

theorem submit_of_no_room (hat : QueueAt s c x l) (hhw : hw.extractLsb' 16 16 = 0#16)
    (h : (∀ o ∈ s.tkt, o ≠ none) ∨ ¬Fits s x.q 1) : s.submit c k dev reg v hw = raise .allocationFailure := by
  rw [State.submit, createdChannel_of_queueAt hat, ok_bind, handlerId_eq_ok.mpr ⟨hhw, rfl⟩, ok_bind]
  cases hfree : freeSlot s.tkt with
  | none => rw [State.tktAlloc, hfree, raise_bind]
  | some i =>
    obtain ⟨-, -, hx, -, hq⟩ := hat
    have hfits : ¬Fits s x.q 1 := h.resolve_left fun hfull => by
      rw [freeSlot_eq_none.mpr hfull] at hfree
      cases hfree
    have hplace : x.q.place s.cfg [handleAt i] = raise .allocationFailure := hq.place_of_not_fits (List.cons_ne_nil _ _) hfits
    have henq (y : Ticket) : (s.setTkt (handleAt i) y).enqueue c (handleAt i) = raise .allocationFailure :=
      enqueue_of_raise (s := s.setTkt (handleAt i) y) hx hplace
    rw [tktAlloc_eq_ok (r := (_, handleAt i)).mpr ⟨i, hfree, rfl, rfl⟩, ok_bind]
    exact (congrArg (· >>= _) (henq _)).trans (raise_bind _ _)

end

/-! ## CHRD and CHWR -/

section
variable {s t : State} {c : BitVec 8} {dev : Byte} {reg : BitVec 7} {v hw : Word} {e : FaultCode}

theorem exec_chrd_of_ok (hrun : Running s) (h : s.submit c.toNat .read dev reg 0#32 hw = .ok t) :
    exec (.chrd c dev reg hw) s = .next t :=
  (congrArg (command .chrd c s) h).trans (runStep_ok (faulted_of_running hrun))

theorem exec_chwr_of_ok (hrun : Running s) (h : s.submit c.toNat .write dev reg v hw = .ok t) :
    exec (.chwr c dev reg v hw) s = .next t :=
  (congrArg (command .chwr c s) h).trans (runStep_ok (faulted_of_running hrun))

theorem exec_chrd_of_raise (hrun : Running s) (h : s.submit c.toNat .read dev reg 0#32 hw = raise e) :
    exec (.chrd c dev reg hw) s = .next (s.latch e c Opcode.chrd.code) :=
  (congrArg (command .chrd c s) h).trans (runStep_raise (faulted_of_running hrun))

theorem exec_chwr_of_raise (hrun : Running s) (h : s.submit c.toNat .write dev reg v hw = raise e) :
    exec (.chwr c dev reg v hw) s = .next (s.latch e c Opcode.chwr.code) :=
  (congrArg (command .chwr c s) h).trans (runStep_raise (faulted_of_running hrun))

end

end Sys2Proof.Machine

open Sys2Proof Sys2Proof.Machine Sys2Proof.Claims

/-- Settles O36: on an empty queue the ticket just allocated is the head that starts. -/
theorem submitOnEmptyQueueStarts : Obligations.SubmitOnEmptyQueueStarts := by
  intro s c x i dev reg v hw hrun hat hfree hhw harmed hfits
  have ⟨_, _, hx, _, hq⟩ := hat
  obtain ⟨q', hp, happ⟩ := hq.place_of_fits (m := [handleAt i]) (List.cons_ne_nil _ _) hfits
  exact ⟨q', happ,
    exec_chrd_of_ok hrun (submit_of_enqueue hat hfree hhw
      (enqueue_of_empty hx hq hp happ.1 harmed (ticket?_allocated hfree _) (starts_readTicket ..))),
    exec_chwr_of_ok hrun (submit_of_enqueue hat hfree hhw
      (enqueue_of_empty hx hq hp happ.1 harmed (ticket?_allocated hfree _) (starts_writeTicket ..)))⟩

/-- Settles O37: on a busy queue the ticket just allocated waits. -/
theorem submitOnBusyChannelQueues : Obligations.SubmitOnBusyChannelQueues := by
  intro s c x l i dev reg v hw hrun hat hl hfree hhw hfits
  have ⟨_, _, hx, _, hq⟩ := hat
  obtain ⟨q', hp, happ⟩ := hq.place_of_fits (m := [handleAt i]) (List.cons_ne_nil _ _) hfits
  exact ⟨q', happ,
    exec_chrd_of_ok hrun (submit_of_enqueue hat hfree hhw (enqueue_of_busy hx hq hl hp)),
    exec_chwr_of_ok hrun (submit_of_enqueue hat hfree hhw (enqueue_of_busy hx hq hl hp))⟩

/-- Settles O38, check by check in the rule's order. -/
theorem submitFaults : Obligations.SubmitFaults := by
  intro s c dev reg v hw hrun
  refine ⟨fun hno => ⟨?_, ?_⟩, fun x l hat => ⟨fun hhw => ⟨?_, ?_⟩, fun hhw hno => ⟨?_, ?_⟩⟩⟩
  · exact exec_chrd_of_raise hrun (submit_of_missing hno)
  · exact exec_chwr_of_raise hrun (submit_of_missing hno)
  · exact exec_chrd_of_raise hrun (submit_of_illegal_handler hat hhw)
  · exact exec_chwr_of_raise hrun (submit_of_illegal_handler hat hhw)
  · exact exec_chrd_of_raise hrun (submit_of_no_room hat hhw hno)
  · exact exec_chwr_of_raise hrun (submit_of_no_room hat hhw hno)

end
